-- ==== Sys2Proof/Word.lean ====
section
/-! DEFINITION. The bit-vector types of the block: R19, R20. -/

namespace Sys2Proof

/-- A command word (R141). -/
abbrev CmdWord := BitVec 16

/-- A byte: a palette index, a framebuffer element, a byte of the wire format (R19, R58, R60). -/
abbrev Byte := BitVec 8

/-- A palette colour, opaque to the block (R59, R296). -/
abbrev Color := BitVec 16

/-- The bit pattern of an IEEE 754 binary32 value (R19, R25). -/
abbrev F32 := BitVec 32

/-- A ring-buffer element. A ring of `RB_TW`-bit elements holds each of them zero-extended to 64 bits, the largest
`RB_TW` of R17; a `SE.STG` element is the packed pair of R55. -/
abbrev Elem := BitVec 64

/-- A complex binary32 value: real part, imaginary part (R238). -/
abbrev Cplx := F32 × F32

end Sys2Proof
end

