-- ==== Sys2Proof/Config.lean ====
section
/-! DEFINITION. The build-time parameters of the block (R17), their constraints (R18), the choice of the next move
(R113), and the values the spec leaves free, each an opaque constant. -/

namespace Sys2Proof

/-- The post-processing variant `SE_VARIANT` (R17, R247 to R250). -/
inductive SeVariant where
  | none | norm | power | normPower
deriving DecidableEq, Repr, Inhabited

/-- The scanline order of transmission `FB_SCAN` (R17, R304). -/
inductive Scan where
  | rowMajor | columnMajor
deriving DecidableEq, Repr, Inhabited

/-- The parameters of R17. They are never changed by a step (R10, R70); the model carries them in its state because its
state type takes no argument (assumption 1). -/
structure Config where
  /-- `RB_N`, the capacity of the ring buffer. -/
  rbN : Nat
  /-- `RB_R`, the number of reader ports. -/
  rbR : Nat
  /-- `RB_TW`, the width of an element. -/
  rbTw : Nat
  /-- `RB_HAS_DROPS`. -/
  rbHasDrops : Bool
  /-- `RB_DROPW`, the width of a drop counter. -/
  rbDropW : Nat
  /-- `SE_N`, the size of the transform. -/
  seN : Nat
  /-- `SE_OV`, new samples per transform. -/
  seOv : Nat
  /-- `SE_S`, the capacity of the staging ring buffer. -/
  seS : Nat
  /-- `SE_WIN`, the window table (the contents of `SE.WIN`, R52). -/
  seWin : List F32
  /-- `SE_VARIANT`. -/
  seVariant : SeVariant
  /-- `FB_W`. -/
  fbW : Nat
  /-- `FB_H`. -/
  fbH : Nat
  /-- `FB_SCAN`. -/
  fbScan : Scan
deriving DecidableEq, Repr, Inhabited

/-- The constraints of R17. A configuration that breaks one has no block (R18). -/
def Config.valid (c : Config) : Bool :=
  decide (1 ≤ c.rbN ∧ c.rbN ≤ 32767) && decide (1 ≤ c.rbR ∧ c.rbR ≤ 256)
    && decide (1 ≤ c.rbTw ∧ c.rbTw ≤ 64) && decide (1 ≤ c.rbDropW ∧ c.rbDropW ≤ 32)
    && decide (2 ≤ c.seN ∧ c.seN ≤ 32768) && decide (2 ^ c.seN.log2 = c.seN)
    && decide (1 ≤ c.seOv ∧ c.seOv < c.seN) && decide (c.seOv ≤ c.seS)
    && decide (c.seWin.length = c.seN)
    && decide (1 ≤ c.fbW ∧ c.fbW ≤ 32767) && decide (1 ≤ c.fbH ∧ c.fbH ≤ 32767)

/-- `FB_LL`, pixels per line (R60). -/
def Config.lineLen (c : Config) : Nat :=
  match c.fbScan with
  | .rowMajor => c.fbW
  | .columnMajor => c.fbH

/-- `FB_NL`, lines per frame (R63). -/
def Config.lineCount (c : Config) : Nat :=
  match c.fbScan with
  | .rowMajor => c.fbH
  | .columnMajor => c.fbW

/-- The configuration of `State.reset`: the sizes the test vectors of 95_test_vectors.md use, with every optional
command present (DESIGN CHOICE, assumption 1). -/
def Config.initial : Config where
  rbN := 4
  rbR := 2
  rbTw := 32
  rbHasDrops := true
  rbDropW := 8
  seN := 4
  seOv := 2
  seS := 4
  seWin := [0x00000000#32, 0x3F000000#32, 0x3F800000#32, 0x3F000000#32]
  seVariant := .normPower
  fbW := 4
  fbH := 2
  fbScan := .rowMajor

/-- Who takes the next step (R113), with the choices that step leaves open. `agent` is an index into the agents. -/
inductive Move where
  /-- A client agent issues its next command, or has its held command looked at again (R344). `pick` is the pixel the
  step writes when the command is a multi-pixel one (R282). -/
  | issue (agent pick : Nat)
  /-- `BURST_r` delivers one element (R196). -/
  | beat (r : Nat)
  /-- The drawing command an agent has in progress writes one more pixel, the `pick`-th of those left (R282). -/
  | pixel (agent pick : Nat)
  /-- `SCHED` takes its enabled step (R302). -/
  | sched
  /-- `PANEL` completes the line, with success or failure (R306, R308). -/
  | panel (ok : Bool)
  /-- An agent chooses, from the responses it has, which command of its script comes next (R41, R202). -/
  | jump (agent pos : Nat)
  /-- Reset, the one event that covers the whole block (R380, R383). -/
  | reset
deriving DecidableEq, Repr, Inhabited

/-- `SE_FFT` (R238): bin `k` of the transform of the windowed samples, uninterpreted. It depends on the configuration and
the input alone. -/
opaque Config.seFft (c : Config) (z : List Cplx) (k : Nat) : Cplx

/-- Free values: the bits of the `k`-th NaN drawn (R237, U4), before they are made a NaN. -/
opaque Config.freeNanBits (k : Nat) : F32

/-- Free values: `RB.DATA[i]` as the `epoch`-th reset leaves it (R381, U1). -/
opaque Config.freeRbData (epoch i : Nat) : Elem

/-- Free values: `SE.STG.DATA[i]` as the `epoch`-th reset leaves it (R381, U2). -/
opaque Config.freeStgData (epoch i : Nat) : Elem

/-- Free values: `FB.LINE[j]` as the `epoch`-th reset leaves it (R381, U3). -/
opaque Config.freeLine (epoch j : Nat) : Byte

/-- Free values: the `k`-th choice of the next move that the agenda does not make (R113, U7, U8). -/
opaque Config.freeMove (k : Nat) : Move

end Sys2Proof
end

