-- ==== Sys2Proof/Machine/Float.lean ====
section
/-! DEFINITION. The binary32 arithmetic of unit SE: `fl32` of R25 and the operations of R237, computed exactly and then
rounded once. A finite value is sign, magnitude `m`, exponent `e`, and stands for `±m * 2^e`. -/

namespace Sys2Proof.Machine

/-- The sign bit. -/
def f32Neg (a : F32) : Bool := a.msb

/-- The biased exponent field. -/
def f32Exp (a : F32) : Nat := (a.extractLsb' 23 8).toNat

/-- The fraction field. -/
def f32Frac (a : F32) : Nat := (a.extractLsb' 0 23).toNat

/-- A NaN pattern. -/
def f32IsNaN (a : F32) : Bool := f32Exp a == 255 && f32Frac a != 0

/-- An infinity. -/
def f32IsInf (a : F32) : Bool := f32Exp a == 255 && f32Frac a == 0

/-- A zero of either sign. -/
def f32IsZero (a : F32) : Bool := f32Exp a == 0 && f32Frac a == 0

/-- A finite value. -/
def f32IsFinite (a : F32) : Bool := f32Exp a != 255

/-- The magnitude's integer significand; subnormals have no implicit bit. -/
def f32Mant (a : F32) : Nat := if f32Exp a = 0 then f32Frac a else 2 ^ 23 + f32Frac a

/-- The exponent of the significand's last bit. -/
def f32Pow (a : F32) : Int := if f32Exp a = 0 then -149 else (f32Exp a : Int) - 150

/-- The significand with its sign. -/
def f32Signed (a : F32) : Int := if f32Neg a then -(f32Mant a : Int) else f32Mant a

/-- The pattern with sign `neg` and the 31 bits `bits`. -/
def f32WithSign (neg : Bool) (bits : Nat) : F32 :=
  if neg then BitVec.ofNat 32 (2 ^ 31 + bits) else BitVec.ofNat 32 bits

/-- The 31 bits of infinity: an exponent field of ones, a zero fraction. -/
def f32InfBits : Nat := 255 * 2 ^ 23

/-- `m / 2^s` rounded to the nearest integer, ties to even. -/
def roundShift (m s : Nat) : Nat :=
  let q := m / 2 ^ s
  let r := m % 2 ^ s
  if 2 * r < 2 ^ s ∨ (2 * r = 2 ^ s ∧ q % 2 = 0) then q else q + 1

/-- The exponent of the last bit that binary32 keeps of `m * 2^e`: 24 significant bits, and never below `2^-149`
(gradual underflow). -/
def ulpExp (m : Nat) (e : Int) : Int := max (e + (m.log2 : Int) - 23) (-149)

/-- `fl32(±m * 2^e)`: the nearest binary32 value, ties to even, overflow to infinity, gradual underflow (R25). A zero
keeps the sign it is given. The sum of exponent field and significand carries into the next exponent when rounding does. -/
def fl32 (neg : Bool) (m : Nat) (e : Int) : F32 :=
  if m = 0 then f32WithSign neg 0
  else
    let q := ulpExp m e
    let n := if q ≤ e then m * 2 ^ (e - q).toNat else roundShift m (q - e).toNat
    f32WithSign neg (min ((q + 149).toNat * 2 ^ 23 + n) f32InfBits)

/-- The binary32 value nearest to the decimal `±digits / 10^places`, ties to even (R155). The quotient is taken to far more
bits than binary32 keeps, with a last bit that says whether something was cut off. -/
def f32OfDecimal (neg : Bool) (digits places : Nat) : F32 :=
  let den : Nat := 10 ^ places
  let k : Nat := 200 + den.log2
  let q : Nat := digits * 2 ^ k / den
  let sticky : Nat := if digits * 2 ^ k % den = 0 then 0 else 1
  fl32 neg (2 * q + sticky) (-(k : Int) - 1)

/-- A NaN with the sign and payload of `b`; every NaN pattern is one of these (R237, U4). -/
def f32MakeNaN (b : F32) : F32 := if f32Frac b = 0 then b ||| 0x7F800001#32 else b ||| 0x7F800000#32

/-- The `k`-th NaN drawn: a free value (R237, assumption 3). -/
def freeNaN (k : Nat) : F32 := f32MakeNaN (Config.freeNanBits k)

/-- `fl32(a * b)`; `nan` is the NaN drawn if the result is one (R237). -/
def f32Mul (nan a b : F32) : F32 :=
  let neg := f32Neg a != f32Neg b
  if f32IsNaN a || f32IsNaN b then nan
  else if f32IsInf a || f32IsInf b then
    if f32IsZero a || f32IsZero b then nan else f32WithSign neg f32InfBits
  else fl32 neg (f32Mant a * f32Mant b) (f32Pow a + f32Pow b)

/-- `fl32(a + b)`; `nan` is the NaN drawn if the result is one (R237). An exact zero sum is `+0.0` unless both operands
are `-0.0` (PRESUMED from IEEE 754, assumption 18). -/
def f32Add (nan a b : F32) : F32 :=
  if f32IsNaN a || f32IsNaN b then nan
  else if f32IsInf a then if f32IsInf b && f32Neg a != f32Neg b then nan else a
  else if f32IsInf b then b
  else
    let e := min (f32Pow a) (f32Pow b)
    let t := f32Signed a * 2 ^ (f32Pow a - e).toNat + f32Signed b * 2 ^ (f32Pow b - e).toNat
    fl32 (if t = 0 then f32Neg a && f32Neg b else decide (t < 0)) t.natAbs e

/-- `fl32(a / 2^k)`; `nan` is the NaN drawn if the result is one (R237, R248). -/
def f32DivPow2 (nan a : F32) (k : Nat) : F32 :=
  if f32IsNaN a then nan
  else if f32IsInf a then a
  else fl32 (f32Neg a) (f32Mant a) (f32Pow a - k)

end Sys2Proof.Machine
end

