-- ==== Sys2Proof/Syntax.lean ====
section
/-! DEFINITION. The commands of the block: one constructor per row of the opcode map (R157), each with the operand
fields of R148 as raw bit fields. `r` and `i` are the `SEL` field (R147). -/

namespace Sys2Proof

inductive Instr where
  /-- APPEND V (R185). -/
  | append (v : Elem)
  /-- ATTACH r (R189). -/
  | attach (r : BitVec 8)
  /-- COUNT r (R191). -/
  | count (r : BitVec 8)
  /-- READ r (R193). -/
  | read (r : BitVec 8)
  /-- CONSUME r (R195). -/
  | consume (r : BitVec 8)
  /-- DROPS r (R199). -/
  | drops (r : BitVec 8)
  /-- FEED RE, IM (R232). -/
  | feed (re im : F32)
  /-- COMPUTE (R236). -/
  | compute
  /-- POSTPROCESS (R247). -/
  | postprocess
  /-- COPYFFT L (R253). -/
  | copyfft (l : BitVec 32)
  /-- CLEAR (R284). -/
  | clear
  /-- PIXEL X, Y, C (R285). -/
  | pixel (x y : BitVec 16) (c : Byte)
  /-- HLINE X, Y, LEN, C (R286). -/
  | hline (x y len : BitVec 16) (c : Byte)
  /-- VLINE X, Y, LEN, C (R287). -/
  | vline (x y len : BitVec 16) (c : Byte)
  /-- CIRCLE XC, YC, RAD, C (R288). -/
  | circle (xc yc rad : BitVec 16) (c : Byte)
  /-- BLIT X, Y, BW, BH, DATA (R290). -/
  | blit (x y bw bh : BitVec 16) (data : List Byte)
  /-- VSCROLL (R292). -/
  | vscroll
  /-- SETPAL i, COL (R297). -/
  | setpal (i : BitVec 8) (col : Color)
  /-- UPDATE (R299). -/
  | update
  /-- READY (R301). -/
  | ready
deriving DecidableEq, Repr

/-- What an agent hands the block (R140): the command word, and the operand tuple as the bits of its fields, in the
order of R148, the first field from bit 0 (R142; the packing is assumption 7). -/
structure Packet where
  word : CmdWord
  ops : Nat
deriving DecidableEq, Repr, Inhabited

/-- The roles an agent may play (R11, R124). -/
inductive Role where
  /-- `P`: it issues APPEND. -/
  | producer
  /-- `C_r`: it issues the commands that name reader r. -/
  | consumer (r : Nat)
  /-- `SEA`: it issues the commands of unit SE. -/
  | spectral
  /-- `FBA`: it issues the commands of unit FB. -/
  | display
deriving DecidableEq, Repr

end Sys2Proof
end

