-- ==== Sys2Proof/WellFormed.lean ====
section
/-! DEFINITION. Which commands a block of a given configuration has: the widths and lengths of R148 and the presence
conditions of R157. A reader index at or above `RB_R` and a pinned palette index are well formed; they fault (R147). -/

namespace Sys2Proof

/-- Whether the command exists in a block of this configuration (the condition column of R157; R144, R145). -/
def Instr.present (c : Config) : Instr → Bool
  | .drops _ => c.rbHasDrops
  | .postprocess => decide (c.seVariant ≠ .none)
  | .append _ | .attach _ | .count _ | .read _ | .consume _ | .feed _ _ | .compute | .copyfft _ | .clear
  | .pixel _ _ _ | .hline _ _ _ _ | .vline _ _ _ _ | .circle _ _ _ _ | .blit _ _ _ _ _ | .vscroll | .setpal _ _
  | .update | .ready => true

/-- Whether every operand has the width or length of R148: `V` has `RB_TW` bits, `DATA` has `BW*BH` bytes. -/
def Instr.operandsFit (c : Config) : Instr → Bool
  | .append v => decide (v.toNat < 2 ^ c.rbTw)
  | .blit _ _ bw bh data => decide (data.length = bw.toNat * bh.toNat)
  | .attach _ | .count _ | .read _ | .consume _ | .drops _ | .feed _ _ | .compute | .postprocess | .copyfft _ | .clear
  | .pixel _ _ _ | .hline _ _ _ _ | .vline _ _ _ _ | .circle _ _ _ _ | .vscroll | .setpal _ _ | .update
  | .ready => true

/-- A command that the configuration's block has, with operands of the right shape. -/
def Instr.wellFormed (c : Config) (i : Instr) : Bool :=
  i.present c && i.operandsFit c

end Sys2Proof
end

