-- ==== Sys2Proof/Decode.lean ====
section
/-! DEFINITION. The command encoding: the decoder of R153, total on every packet and rejecting by name, the encoder of
R157, the roles and readers a command names (R124, R112), and the assembler's text form (R155, R156). -/

namespace Sys2Proof

/-- Why a command word is illegal (R151). -/
inductive IllegalWord where
  /-- `UNIT` is `0x3 .. 0xF` (R143). -/
  | reservedUnit
  /-- `OP` is reserved for its unit (R144, R145, R146). -/
  | reservedOp
  /-- DROPS without drop counters, POSTPROCESS without a variant (R144, R145). -/
  | absent
  /-- `SEL` is not `0x00` and the command does not use it (R147). -/
  | selNotZero
deriving DecidableEq, Repr

/-- What the decoder reads from a packet. -/
inductive Decoded where
  | instr (i : Instr)
  | illegal (why : IllegalWord)
deriving DecidableEq, Repr

/-- The instruction, where there is one. -/
def Decoded.toOption : Decoded → Option Instr
  | .instr i => some i
  | .illegal _ => none

/-! ## Fields of a packet -/

/-- `UNIT`, bits 15:12 (R141). -/
def CmdWord.unit (w : CmdWord) : BitVec 4 := w.extractLsb' 12 4

/-- `OP`, bits 11:8 (R141). -/
def CmdWord.op (w : CmdWord) : BitVec 4 := w.extractLsb' 8 4

/-- `SEL`, bits 7:0 (R141). -/
def CmdWord.sel (w : CmdWord) : BitVec 8 := w.extractLsb' 0 8

/-- The operand field of `width` bits that begins at bit `lo` of the operand tuple (assumption 7). -/
def operandField (width lo ops : Nat) : BitVec width := BitVec.ofNat width (ops >>> lo)

/-- The fields of an operand tuple, each with its width, packed from bit 0 upwards (assumption 7). -/
def packFields : List (Nat × Nat) → Nat
  | [] => 0
  | (width, v) :: rest => v + 2 ^ width * packFields rest

/-- The `n` bytes of BLIT's `DATA` (R148). -/
def unpackBytes : Nat → Nat → List Byte
  | 0, _ => []
  | n + 1, ops => BitVec.ofNat 8 ops :: unpackBytes n (ops >>> 8)

/-- BLIT's `DATA` as one field, byte 0 in the lowest bits. -/
def packBytes : List Byte → Nat
  | [] => 0
  | b :: rest => b.toNat + 256 * packBytes rest

/-! ## The decoder (R153) -/

/-- The commands of unit RB (R144). -/
def decodeRb (c : Config) (op : BitVec 4) (sel : BitVec 8) (ops : Nat) : Decoded :=
  match op.toNat with
  | 0 => if sel = 0 then .instr (.append (BitVec.ofNat 64 (ops % 2 ^ c.rbTw))) else .illegal .selNotZero
  | 1 => .instr (.attach sel)
  | 2 => .instr (.count sel)
  | 3 => .instr (.read sel)
  | 4 => .instr (.consume sel)
  | 5 => if c.rbHasDrops then .instr (.drops sel) else .illegal .absent
  | _ => .illegal .reservedOp

/-- The commands of unit SE (R145), for `SEL = 0x00`. -/
def decodeSe (c : Config) (op : BitVec 4) (ops : Nat) : Decoded :=
  match op.toNat with
  | 0 => .instr (.feed (operandField 32 0 ops) (operandField 32 32 ops))
  | 1 => .instr .compute
  | 2 => if c.seVariant = .none then .illegal .absent else .instr .postprocess
  | 3 => .instr (.copyfft (operandField 32 0 ops))
  | _ => .illegal .reservedOp

/-- The commands of unit FB that do not use `SEL` (R146), for `SEL = 0x00`. -/
def decodeFb (op : BitVec 4) (ops : Nat) : Decoded :=
  match op.toNat with
  | 0 => .instr .clear
  | 1 => .instr (.pixel (operandField 16 0 ops) (operandField 16 16 ops) (operandField 8 32 ops))
  | 2 => .instr (.hline (operandField 16 0 ops) (operandField 16 16 ops) (operandField 16 32 ops)
      (operandField 8 48 ops))
  | 3 => .instr (.vline (operandField 16 0 ops) (operandField 16 16 ops) (operandField 16 32 ops)
      (operandField 8 48 ops))
  | 4 => .instr (.circle (operandField 16 0 ops) (operandField 16 16 ops) (operandField 16 32 ops)
      (operandField 8 48 ops))
  | 5 => .instr (.blit (operandField 16 0 ops) (operandField 16 16 ops) (operandField 16 32 ops)
      (operandField 16 48 ops)
      (unpackBytes ((operandField 16 32 ops).toNat * (operandField 16 48 ops).toNat) (ops >>> 64)))
  | 6 => .instr .vscroll
  | 8 => .instr .update
  | 9 => .instr .ready
  | _ => .illegal .reservedOp

/-- The decode function of R153. Whether a word is legal does not depend on the operands (R142). -/
def decode (c : Config) (p : Packet) : Decoded :=
  let op := CmdWord.op p.word
  let sel := CmdWord.sel p.word
  match (CmdWord.unit p.word).toNat with
  | 0 => decodeRb c op sel p.ops
  | 1 => if sel = 0 then decodeSe c op p.ops else .illegal .selNotZero
  | 2 =>
    if op = 7 then .instr (.setpal sel (operandField 16 0 p.ops))
    else if sel = 0 then decodeFb op p.ops
    else .illegal .selNotZero
  | _ => .illegal .reservedUnit

/-- The packet whose bits are `w`, numbered as the opcode table numbers them: bits 15:0 are the command word, bit 16 is
bit 0 of the operand tuple; the bits at and above `nbits` are 0. -/
def Packet.ofBits (nbits w : Nat) : Packet :=
  { word := BitVec.ofNat 16 (w % 2 ^ nbits), ops := (w % 2 ^ nbits) >>> 16 }

/-- What the decoder of `State.reset`'s block reads from the bits `w`. -/
def decodeTableWord (nbits w : Nat) : Option Instr :=
  (decode Config.initial (Packet.ofBits nbits w)).toOption

/-! ## The encoder (R157) -/

/-- The command word: the `match` column of R157 with the `SEL` field where the command uses it. -/
def Instr.word : Instr → CmdWord
  | .append _ => 0x0000#16
  | .attach r => 0x01#8 ++ r
  | .count r => 0x02#8 ++ r
  | .read r => 0x03#8 ++ r
  | .consume r => 0x04#8 ++ r
  | .drops r => 0x05#8 ++ r
  | .feed _ _ => 0x1000#16
  | .compute => 0x1100#16
  | .postprocess => 0x1200#16
  | .copyfft _ => 0x1300#16
  | .clear => 0x2000#16
  | .pixel _ _ _ => 0x2100#16
  | .hline _ _ _ _ => 0x2200#16
  | .vline _ _ _ _ => 0x2300#16
  | .circle _ _ _ _ => 0x2400#16
  | .blit _ _ _ _ _ => 0x2500#16
  | .vscroll => 0x2600#16
  | .setpal i _ => 0x27#8 ++ i
  | .update => 0x2800#16
  | .ready => 0x2900#16

/-- The operand tuple of R148, packed. -/
def Instr.operandBits : Instr → Nat
  | .append v => v.toNat
  | .feed re im => packFields [(32, re.toNat), (32, im.toNat)]
  | .copyfft l => l.toNat
  | .pixel x y c => packFields [(16, x.toNat), (16, y.toNat), (8, c.toNat)]
  | .hline x y len c | .vline x y len c | .circle x y len c =>
    packFields [(16, x.toNat), (16, y.toNat), (16, len.toNat), (8, c.toNat)]
  | .blit x y bw bh data =>
    packFields [(16, x.toNat), (16, y.toNat), (16, bw.toNat), (16, bh.toNat), (8 * data.length, packBytes data)]
  | .setpal _ col => col.toNat
  | .attach _ | .count _ | .read _ | .consume _ | .drops _ | .compute | .postprocess | .clear | .vscroll | .update
  | .ready => 0

/-- The packet of a command. -/
def encode (i : Instr) : Packet := { word := i.word, ops := i.operandBits }

/-! ## Roles and readers -/

/-- The reader port a command names (R147). -/
def Instr.reader? : Instr → Option Nat
  | .attach r | .count r | .read r | .consume r | .drops r => some r.toNat
  | .append _ | .feed _ _ | .compute | .postprocess | .copyfft _ | .clear | .pixel _ _ _ | .hline _ _ _ _
  | .vline _ _ _ _ | .circle _ _ _ _ | .blit _ _ _ _ _ | .vscroll | .setpal _ _ | .update | .ready => none

/-- The role that issues a command (R124). -/
def Instr.role : Instr → Role
  | .append _ => .producer
  | .attach r | .count r | .read r | .consume r | .drops r => .consumer r.toNat
  | .feed _ _ | .compute | .postprocess | .copyfft _ => .spectral
  | .clear | .pixel _ _ _ | .hline _ _ _ _ | .vline _ _ _ _ | .circle _ _ _ _ | .blit _ _ _ _ _ | .vscroll
  | .setpal _ _ | .update | .ready => .display

/-- The role a command word belongs to; an illegal word belongs to none. -/
def roleOfWord (c : Config) (w : CmdWord) : Option Role :=
  match decode c ⟨w, 0⟩ with
  | .instr i => some i.role
  | .illegal _ => none

/-! ## Assembler text and pseudo-commands (R155, R156) -/

/-- FEEDR v: a real-only sample (R156). -/
def pseudoFeedr (v : F32) : Instr := .feed v 0#32

/-- APPENDF x, for `RB_TW = 32`, with x the decimal `±digits / 10^places` (R156). -/
def pseudoAppendf (neg : Bool) (digits places : Nat) : Instr :=
  .append ((Machine.f32OfDecimal neg digits places).setWidth 64)

/-- DRAIN r (R156). -/
def pseudoDrain (r : BitVec 8) : Instr := .consume r

/-- A number in hexadecimal with `digits` digits. -/
def hexText (digits n : Nat) : String :=
  let ds := Nat.toDigits 16 n
  "0x" ++ String.ofList ((List.replicate (digits - ds.length) '0' ++ ds).map Char.toUpper)

/-- The operands of a line, separated by commas. -/
def operandText : List String → String
  | [] => ""
  | [a] => a
  | a :: rest => a ++ ", " ++ operandText rest

/-- One line of assembler text: the mnemonic, then the operands in the order of R148 (R155). A binary32 operand is
written as its bit pattern. -/
def Instr.asm (c : Config) : Instr → String
  | .append v => "APPEND " ++ hexText ((c.rbTw + 3) / 4) v.toNat
  | .attach r => "ATTACH " ++ toString r.toNat
  | .count r => "COUNT " ++ toString r.toNat
  | .read r => "READ " ++ toString r.toNat
  | .consume r => "CONSUME " ++ toString r.toNat
  | .drops r => "DROPS " ++ toString r.toNat
  | .feed re im => "FEED " ++ operandText [hexText 8 re.toNat, hexText 8 im.toNat]
  | .compute => "COMPUTE"
  | .postprocess => "POSTPROCESS"
  | .copyfft l => "COPYFFT " ++ toString l.toNat
  | .clear => "CLEAR"
  | .pixel x y k => "PIXEL " ++ operandText [toString x.toInt, toString y.toInt, toString k.toNat]
  | .hline x y len k =>
    "HLINE " ++ operandText [toString x.toInt, toString y.toInt, toString len.toNat, toString k.toNat]
  | .vline x y len k =>
    "VLINE " ++ operandText [toString x.toInt, toString y.toInt, toString len.toNat, toString k.toNat]
  | .circle x y rad k =>
    "CIRCLE " ++ operandText [toString x.toInt, toString y.toInt, toString rad.toNat, toString k.toNat]
  | .blit x y bw bh data =>
    "BLIT " ++ operandText [toString x.toInt, toString y.toInt, toString bw.toNat, toString bh.toNat,
      "[" ++ operandText (data.map fun b => hexText 2 b.toNat) ++ "]"]
  | .vscroll => "VSCROLL"
  | .setpal i col => "SETPAL " ++ operandText [toString i.toNat, hexText 4 col.toNat]
  | .update => "UPDATE"
  | .ready => "READY"

end Sys2Proof
end

