-- ==== Sys2Proof/Machine/Operands.lean ====
section
/-! DEFINITION. Operand assembly (R149): how a command's raw fields are read, and the addressing forms the commands use
(R203, R283). -/

namespace Sys2Proof.Machine

/-- An `s16` operand as a mathematical integer (R21, R149). -/
def s16 (v : BitVec 16) : Int := v.toInt

/-- A `u16` operand (R149). -/
def u16 (v : BitVec 16) : Nat := v.toNat

/-- A `u32` operand (R149). -/
def u32 (v : BitVec 32) : Nat := v.toNat

/-- The `SEL` field as a reader or palette index (R147). -/
def selIndex (v : BitVec 8) : Nat := v.toNat

/-- The packed element `{RE, IM}` of `SE.STG` (R55). -/
def packSample (re im : F32) : Elem := re ++ im

/-- `e[63:32]`, the real part of a staged sample (R241). -/
def sampleRe (e : Elem) : F32 := e.extractLsb' 32 32

/-- `e[31:0]`, the imaginary part of a staged sample (R241). -/
def sampleIm (e : Elem) : F32 := e.extractLsb' 0 32

/-- A call `plot(x, y, c)` of a drawing command (R283). -/
structure Plot where
  x : Int
  y : Int
  c : Byte
deriving DecidableEq, Repr

/-- Whether the framebuffer holds the point; outside it, `plot` does nothing (R283). -/
def Plot.inside (c : Config) (p : Plot) : Bool :=
  decide (0 ≤ p.x ∧ p.x < c.fbW ∧ 0 ≤ p.y ∧ p.y < c.fbH)

/-- The index of pixel (x, y) in `FB.PIX` (assumption 16). -/
def pixIndex (c : Config) (x y : Nat) : Nat := y * c.fbW + x

/-- The 24-bit value of an `ERR` response (R150). -/
def errWord (fcmd : CmdWord) (fcode : BitVec 8) : BitVec 24 := fcmd ++ fcode

end Sys2Proof.Machine
end

