-- ==== Sys2Proof/Machine/State.lean ====
section
/-! DEFINITION. The state of the block and of its environment as plain data (10_state.md), the reasons a step can stop,
and the state after reset (R381). -/

namespace Sys2Proof.Machine

/-! ## Reasons to stop -/

/-- No step of this model stops with a fault: a fault of the block (R341) is a next state with the fault record written,
and no access can name an element outside its array (R101). The type has no constructor (assumption 28; safe). -/
inductive Fault
deriving DecidableEq, Repr

/-- Why the model has no execution (R355). -/
inductive Refusal where
  /-- Raised by `exec` for an instruction that has no meaning yet. Safe: nothing is claimed of it. -/
  | notModelled (mnemonic : String)
  /-- Raised by `step` when the configuration breaks a constraint of R17 (R18). Safe: the spec refuses it. -/
  | badConfiguration
  /-- Raised by `step` when two agents issue commands of one role (R123). Safe: the spec refuses the program. -/
  | ownershipBroken
deriving DecidableEq, Repr

/-! ## Storage arrays -/

/-- A storage array (R100): its listed elements by index, the indices strictly rising. What an element that is not listed
reads as is `Memory`'s to say (assumption 16). -/
abbrev Cells (α : Type) := List (Nat × α)

/-- The address spaces of R100 that a step can write. `SE.WIN` is read-only and is `Config.seWin`. -/
structure Memory where
  /-- `RB.DATA` (R43). -/
  rbData : Cells Elem
  /-- `SE.STG.DATA` (R55). -/
  stgData : Cells Elem
  /-- `SE.X` (R53). -/
  x : Cells F32
  /-- `SE.WORK` (R54). -/
  work : Cells F32
  /-- `FB.PIX` (R58): row y, column x at index `y * FB_W + x`. -/
  pix : Cells Byte
  /-- `FB.PAL` (R59): entries 2 to 255; 0 and 1 are hardwired. -/
  pal : Cells Color
  /-- `FB.LINE` (R60). -/
  line : Cells Byte
deriving DecidableEq, Repr

/-! ## Unit registers -/

/-- A reader port: `ATT` (R45), `CNT` (R46), `DROPS` (R47), `BR` (R48). -/
structure Reader where
  att : Bool
  cnt : Nat
  drops : Nat
  br : Nat
deriving DecidableEq, Repr

/-- The cursor and the reader ports of one ring buffer: unit RB, and `SE.STG` (R44 to R49, R55). -/
structure Ring where
  wr : Nat
  readers : List Reader
deriving DecidableEq, Repr

/-- The registers of unit SE (R55 to R57). -/
structure SpectralRegs where
  stg : Ring
  phase : Nat
  armed : Bool
deriving DecidableEq, Repr

/-- `FB.ST` (R61). -/
inductive FbStatus where
  | idle | treq | tx
deriving DecidableEq, Repr

/-- `FB.LS` (R65). -/
inductive LinePhase where
  | convert | send | wait
deriving DecidableEq, Repr

/-- The registers of unit FB (R61 to R65). -/
structure DisplayRegs where
  st : FbStatus
  pend : Bool
  cur : Nat
  xp : Nat
  ls : LinePhase
deriving DecidableEq, Repr

/-- The fault record (R67). -/
structure FaultRecord where
  faulted : Bool
  fcode : BitVec 8
  fcmd : CmdWord
deriving DecidableEq, Repr

/-! ## Agents and their environment -/

/-- A response of the block (R26, R150). -/
inductive Response where
  | ack
  | val (v : Elem)
  /-- `NUM(n)`, with the width it is carried in (R150). -/
  | num (width n : Nat)
  | bool (b : Bool)
  /-- A whole burst: `k`, the elements oldest first, the end marker. -/
  | burst (k : Nat) (vs : List Elem)
  /-- A burst that a fault cut short: `k`, the elements delivered before it, and `ERR` in place of the end marker
  (R346 (a)). -/
  | burstErr (k : Nat) (vs : List Elem) (e : BitVec 24)
  | words (ws : List F32)
  /-- `ERR`, the 24 bits `FCMD, FCODE`. -/
  | err (e : BitVec 24)
deriving DecidableEq, Repr

/-- A pixel write that a drawing command has still to do (R282). -/
structure PixelWrite where
  x : Nat
  y : Nat
  c : Byte
deriving DecidableEq, Repr

/-- The command of an agent that has been accepted and has not yet had its whole response (R111). -/
inductive Work where
  | idle
  /-- A CONSUME burst on reader `r` of `k` elements, those delivered so far oldest first (R195, R196). -/
  | burst (r k : Nat) (vs : List Elem)
  /-- A multi-pixel drawing command, with the pixel writes left (R282). -/
  | draw (todo : List PixelWrite)
deriving DecidableEq, Repr

/-- A client agent: its script and its place in it (R41), its command in progress, whether the command at `pos` is held
(R112), and the responses it has received, oldest first. -/
structure Agent where
  script : List Packet
  pos : Nat
  work : Work
  held : Bool
  inbox : List Response
deriving DecidableEq, Repr

/-- Everything outside the block that a step reads or writes (R40, R70): the agents, which of them moves next (R113), what
the panel was sent (R305), and the counters that index the free values. -/
structure Env where
  agents : List Agent
  agenda : List Move
  /-- The agent whose command is being performed. -/
  issuer : Nat
  /-- The choice of the pixel that this step writes (R282). -/
  pick : Nat
  /-- The TRANSMIT events since reset, oldest first. -/
  sent : List (List Byte)
  /-- How many moves have been drawn freely. -/
  moveDraws : Nat
  /-- How many NaN payloads have been drawn. -/
  nanDraws : Nat
  /-- How many resets there have been. -/
  resets : Nat
deriving DecidableEq, Repr

/-- The state: the parameters, the block (R43 to R67), its environment. -/
structure State where
  cfg : Config
  mem : Memory
  rb : Ring
  se : SpectralRegs
  fb : DisplayRegs
  blk : FaultRecord
  env : Env
deriving DecidableEq, Repr

/-! ## Reset (R381) -/

/-- Every array at reset: nothing is listed. -/
def Memory.reset : Memory := { rbData := [], stgData := [], x := [], work := [], pix := [], pal := [], line := [] }

/-- A reader port at reset (R45 to R48). -/
def Reader.reset : Reader := { att := false, cnt := 0, drops := 0, br := 0 }

/-- Unit RB at reset. -/
def Ring.reset (readers : Nat) : Ring := { wr := 0, readers := List.replicate readers Reader.reset }

/-- `SE.STG` at reset: its one reader is attached (R55). -/
def Ring.stgReset : Ring := { wr := 0, readers := [{ att := true, cnt := 0, drops := 0, br := 0 }] }

/-- Unit SE at reset. -/
def SpectralRegs.reset : SpectralRegs := { stg := Ring.stgReset, phase := 0, armed := false }

/-- Unit FB at reset. -/
def DisplayRegs.reset : DisplayRegs := { st := .idle, pend := false, cur := 0, xp := 0, ls := .convert }

/-- The fault record at reset. -/
def FaultRecord.reset : FaultRecord := { faulted := false, fcode := 0#8, fcmd := 0#16 }

/-- The environment before a program is loaded: no agents, nothing chosen, nothing sent (assumption 24). -/
def Env.reset : Env :=
  { agents := [], agenda := [], issuer := 0, pick := 0, sent := [], moveDraws := 0, nanDraws := 0, resets := 0 }

/-- The block of configuration `c` right after reset. -/
def State.resetWith (c : Config) : State :=
  { cfg := c, mem := Memory.reset, rb := Ring.reset c.rbR, se := SpectralRegs.reset, fb := DisplayRegs.reset,
    blk := FaultRecord.reset, env := Env.reset }

/-- The machine right after reset, for the configuration of assumption 1. -/
def State.reset : State := State.resetWith Config.initial

end Sys2Proof.Machine
end

