-- ==== Sys2Proof/Machine/Ops.lean ====
section
/-! DEFINITION. The named operations over the storage arrays, the rings, the agents and the fault record: every read and
write of state goes through them. Fault entry (R344) and reset (R380) stand here once. -/

namespace Sys2Proof.Machine

/-- The outcome of a step of this machine. -/
abbrev Result := Host.Outcome State Fault Refusal

/-! ## Storage arrays -/

section
variable {α : Type}

/-- The listed element at index `i`. -/
def Cells.find? : Cells α → Nat → Option α
  | [], _ => none
  | (j, v) :: rest, i => if j = i then some v else Cells.find? rest i

/-- `x[i]` (R22): the listed element, or `d`, which is what an element that is not listed reads as. `d = none` says that
it has no value of its own: reset left it unspecified. -/
def Cells.get (d : Option α) (m : Cells α) (i : Nat) : Option α :=
  match Cells.find? m i with
  | some v => some v
  | none => d

/-- List element `i` as `v`, keeping the indices rising. -/
def Cells.put : Cells α → Nat → α → Cells α
  | [], i, v => [(i, v)]
  | (j, u) :: rest, i, v =>
    if i < j then (i, v) :: (j, u) :: rest
    else if i = j then (i, v) :: rest
    else (j, u) :: Cells.put rest i v

/-- List element `i` no more. -/
def Cells.remove (m : Cells α) (i : Nat) : Cells α := m.filter fun e => e.1 != i

/-- `x[i] <- v` (R22), in canonical form: an element equal to what an unlisted one reads as is not listed. -/
def Cells.set [DecidableEq α] (d : Option α) (m : Cells α) (i : Nat) (v : α) : Cells α :=
  if some v = d then Cells.remove m i else Cells.put m i v

/-- The indices rise strictly, all of them above `lo`. -/
def Cells.risingFrom : Nat → Cells α → Bool
  | _, [] => true
  | lo, (j, _) :: rest => decide (lo ≤ j) && Cells.risingFrom (j + 1) rest

/-- The canonical form of an array: indices strictly rising, no element equal to what an unlisted one reads as. -/
def Cells.wf [DecidableEq α] (d : Option α) (m : Cells α) : Bool :=
  Cells.risingFrom 0 m && m.all fun e => decide (some e.2 ≠ d)

/-- Every listed index is below `n`. -/
def Cells.below (n : Nat) (m : Cells α) : Bool := m.all fun e => decide (e.1 < n)

end

/-- What an element that is not listed reads as, where reset gives the array zeros (R381). -/
def zeroFill (w : Nat) : Option (BitVec w) := some 0#w

/-- What an element that is not listed reads as, where reset leaves the array unspecified: nothing (R381). -/
def unspecified (w : Nat) : Option (BitVec w) := none

/-- The canonical form of every array. -/
def Memory.wf (m : Memory) : Bool :=
  Cells.wf (unspecified 64) m.rbData && Cells.wf (unspecified 64) m.stgData && Cells.wf (zeroFill 32) m.x
    && Cells.wf (zeroFill 32) m.work && Cells.wf (zeroFill 8) m.pix && Cells.wf (zeroFill 16) m.pal
    && Cells.wf (unspecified 8) m.line

/-- Every listed index is one of its array's (R100, R101). -/
def Memory.inRange (c : Config) (m : Memory) : Bool :=
  Cells.below c.rbN m.rbData && Cells.below c.seS m.stgData && Cells.below (2 * c.seN) m.x
    && Cells.below (2 * c.seN) m.work && Cells.below (c.fbW * c.fbH) m.pix && Cells.below 256 m.pal
    && Cells.below (2 * c.lineLen) m.line

/-! ### Reads -/

/-- `RB.DATA[i]`; before it is written, a free `RB_TW`-bit value (R381, assumption 4). -/
def State.rbElem (s : State) (i : Nat) : Elem :=
  (Cells.get (unspecified 64) s.mem.rbData i).getD
    (BitVec.ofNat 64 ((Config.freeRbData s.env.resets i).toNat % 2 ^ s.cfg.rbTw))

/-- `SE.STG.DATA[i]`; before it is written, a free value (R381, assumption 4). -/
def State.stgElem (s : State) (i : Nat) : Elem :=
  (Cells.get (unspecified 64) s.mem.stgData i).getD (Config.freeStgData s.env.resets i)

/-- `SE.WIN[n]` (R52): read-only, the parameter. -/
def State.winElem (s : State) (n : Nat) : F32 := s.cfg.seWin.getD n 0#32

/-- `SE.X[i]` (R53). -/
def State.xElem (s : State) (i : Nat) : F32 := (Cells.get (zeroFill 32) s.mem.x i).getD 0#32

/-- `SE.WORK[i]` (R54). -/
def State.workElem (s : State) (i : Nat) : F32 := (Cells.get (zeroFill 32) s.mem.work i).getD 0#32

/-- A framebuffer's pixel at an index. -/
def readPix (pix : Cells Byte) (a : Nat) : Byte := (Cells.get (zeroFill 8) pix a).getD 0#8

/-- `FB.PIX[y][x]` (R58). -/
def State.pixel (s : State) (x y : Nat) : Byte := readPix s.mem.pix (pixIndex s.cfg x y)

/-- `FB.PAL[i]` (R59): entries 0 and 1 are hardwired. -/
def State.palEntry (s : State) (i : Nat) : Color :=
  if i = 0 then 0x0000#16
  else if i = 1 then 0xFFFF#16
  else (Cells.get (zeroFill 16) s.mem.pal i).getD 0#16

/-- `FB.LINE[j]`; before it is written, a free value (R381, assumption 4). -/
def State.lineByte (s : State) (j : Nat) : Byte :=
  (Cells.get (unspecified 8) s.mem.line j).getD (Config.freeLine s.env.resets j)

/-! ### Writes -/

/-- `RB.DATA[i] <- v`. -/
def State.setRbElem (i : Nat) (v : Elem) (s : State) : State :=
  { s with mem := { s.mem with rbData := Cells.set (unspecified 64) s.mem.rbData i v } }

/-- `SE.STG.DATA[i] <- v`. -/
def State.setStgElem (i : Nat) (v : Elem) (s : State) : State :=
  { s with mem := { s.mem with stgData := Cells.set (unspecified 64) s.mem.stgData i v } }

/-- `SE.X[i] <- v`. -/
def State.setX (i : Nat) (v : F32) (s : State) : State :=
  { s with mem := { s.mem with x := Cells.set (zeroFill 32) s.mem.x i v } }

/-- `SE.WORK[i] <- v`. -/
def State.setWork (i : Nat) (v : F32) (s : State) : State :=
  { s with mem := { s.mem with work := Cells.set (zeroFill 32) s.mem.work i v } }

/-- `FB.PIX[y][x] <- c`. -/
def State.setPixel (p : PixelWrite) (s : State) : State :=
  { s with mem := { s.mem with pix := Cells.set (zeroFill 8) s.mem.pix (pixIndex s.cfg p.x p.y) p.c } }

/-- `FB.PAL[i] <- col`; the hardwired entries take no write (R59). -/
def State.setPal (i : Nat) (col : Color) (s : State) : State :=
  if i < 2 then s else { s with mem := { s.mem with pal := Cells.set (zeroFill 16) s.mem.pal i col } }

/-- `FB.LINE[j] <- b`. -/
def State.setLine (j : Nat) (b : Byte) (s : State) : State :=
  { s with mem := { s.mem with line := Cells.set (unspecified 8) s.mem.line j b } }

/-! ## Rings (R43 to R51, R184): unit RB, and `SE.STG` -/

/-- The parameters of one ring buffer. -/
structure RingParams where
  cap : Nat
  hasDrops : Bool
  dropW : Nat
deriving DecidableEq, Repr

/-- Unit RB's parameters. -/
def rbParams (c : Config) : RingParams :=
  { cap := c.rbN, hasDrops := c.rbHasDrops, dropW := c.rbDropW }

/-- The staging ring's parameters (R55): no drop counter. -/
def stgParams (c : Config) : RingParams := { cap := c.seS, hasDrops := false, dropW := 0 }

/-- Reader port `r`; a port that does not exist reads as one at reset (assumption 26). -/
def Ring.reader (g : Ring) (r : Nat) : Reader := g.readers.getD r Reader.reset

/-- Change reader port `r`. -/
def Ring.onReader (r : Nat) (f : Reader → Reader) (g : Ring) : Ring := { g with readers := g.readers.modify r f }

/-- `RD(r) = (WR - CNT[r]) mod N`, the slot of the oldest unread element (R49). -/
def Ring.readAddr (cap : Nat) (g : Ring) (r : Nat) : Nat :=
  (((g.wr : Int) - ((g.reader r).cnt : Int)) % (cap : Int)).toNat

/-- `sat_inc_W(c)` (R21). -/
def satInc (w c : Nat) : Nat := if c < 2 ^ w - 1 then c + 1 else c

/-- What an APPEND does to one reader port (R185, R186). -/
def Reader.onAppend (p : RingParams) (q : Reader) : Reader :=
  if q.att then
    if q.cnt < p.cap then { q with cnt := q.cnt + 1 }
    else if p.hasDrops then { q with drops := satInc p.dropW q.drops }
    else q
  else q

/-- What an APPEND does to the cursor and the ports (R185). The element is written at the old cursor. -/
def Ring.append (p : RingParams) (g : Ring) : Ring :=
  { wr := (g.wr + 1) % p.cap, readers := g.readers.map (Reader.onAppend p) }

/-- `CNT[r] <- CNT[r] - 1`: the oldest unread element of reader r is removed (R193, R196, R241). -/
def Ring.dropOldest (r : Nat) (g : Ring) : Ring := g.onReader r fun q => { q with cnt := q.cnt - 1 }

/-! ## Agents and responses -/

/-- The command at `pos` has its whole response at once. -/
def Agent.answer (r : Response) (a : Agent) : Agent :=
  { a with pos := a.pos + 1, held := false, inbox := a.inbox ++ [r] }

/-- The command at `pos` is accepted and stays in progress (R195, R282). -/
def Agent.begin (w : Work) (a : Agent) : Agent := { a with pos := a.pos + 1, held := false, work := w }

/-- The command in progress has its whole response. -/
def Agent.finish (r : Response) (a : Agent) : Agent := { a with work := .idle, inbox := a.inbox ++ [r] }

/-- The command at `pos` is held (R112). -/
def Agent.wait (a : Agent) : Agent := { a with held := true }

/-- Fault entry closes what the agent has in progress with `ERR` (R346 (a), (b)). -/
def Agent.closeWork (e : BitVec 24) (a : Agent) : Agent :=
  match a.work with
  | .idle => a
  | .burst _ k vs => a.finish (.burstErr k vs e)
  | .draw _ => a.finish (.err e)

/-- Fault entry answers a held command with `ERR` (R346 (c)). -/
def Agent.closeHeld (e : BitVec 24) (a : Agent) : Agent := if a.held then a.answer (.err e) else a

/-- The next element of a burst on reader `r`, with the end marker after the last (R196). -/
def Agent.deliver (r : Nat) (v : Elem) (last : Bool) (a : Agent) : Agent :=
  match a.work with
  | .burst q k vs =>
    if q = r then
      if last then a.finish (.burst k (vs ++ [v])) else { a with work := .burst q k (vs ++ [v]) }
    else a
  | .idle => a
  | .draw _ => a

/-- Reset restarts the agent's script and delivers nothing more (R383). -/
def Agent.restart (a : Agent) : Agent := { script := a.script, pos := 0, work := .idle, held := false, inbox := [] }

/-- Change every agent. -/
def State.onAgents (f : Agent → Agent) (s : State) : State :=
  { s with env := { s.env with agents := s.env.agents.map f } }

/-- Change agent `t`. -/
def State.onAgent (t : Nat) (f : Agent → Agent) (s : State) : State :=
  { s with env := { s.env with agents := s.env.agents.modify t f } }

/-- `respond r` (R24): the issuing agent has its response. -/
def State.respond (r : Response) (s : State) : State := s.onAgent s.env.issuer (Agent.answer r)

/-- The issuing agent's command is accepted and stays in progress. -/
def State.beginWork (w : Work) (s : State) : State := s.onAgent s.env.issuer (Agent.begin w)

/-- `hold` (R24): the issuing agent waits. -/
def State.hold (s : State) : State := s.onAgent s.env.issuer Agent.wait

/-! ## Faults (R341, R344) -/

/-- The fault codes of R341. -/
inductive FaultCode where
  | illegalCommand | badReader | notAttached | readEmpty | computeNotArmed | seUnderrun | copySize | palettePinned
deriving DecidableEq, Repr

/-- The 8-bit code (R341). -/
def FaultCode.bits : FaultCode → BitVec 8
  | .illegalCommand => 0x01#8
  | .badReader => 0x02#8
  | .notAttached => 0x03#8
  | .readEmpty => 0x04#8
  | .computeNotArmed => 0x05#8
  | .seUnderrun => 0x06#8
  | .copySize => 0x07#8
  | .palettePinned => 0x08#8

/-- Fault entry (R344): the record is written with the code and the command word `w`, the issuing agent is answered `ERR`,
and everything unfinished is closed with `ERR` (R346). Nothing else of the block changes. There is no return from it but
`State.hardReset` (R348). -/
def State.raiseFault (w : CmdWord) (code : FaultCode) (s : State) : State :=
  let e := errWord w code.bits
  (({ s with blk := { faulted := true, fcode := code.bits, fcmd := w } }.respond (.err e)).onAgents
    (Agent.closeWork e)).onAgents (Agent.closeHeld e)

/-- The answer of a faulted block (R345). -/
def State.respondErr (s : State) : State := s.respond (.err (errWord s.blk.fcmd s.blk.fcode))

/-- `raise Fault(code)` by the command `i` (R24). -/
def raise (i : Instr) (code : FaultCode) (s : State) : Result := .next (s.raiseFault i.word code)

/-- Whether reader r's port is busy and the port exists (R48, R112). -/
def State.portBusy (s : State) (r : Nat) : Bool := decide (r < s.cfg.rbR ∧ 0 < (s.rb.reader r).br)

/-- The hold of R112, step 3 of R344. -/
def heldIn (i : Instr) (s : State) : Bool :=
  match i.reader? with
  | some r => s.portBusy r
  | none => false

/-- Command entry (R344) for the legal command `i`, and for one the configuration does not have: the faulted check, the
presence check, the hold, then the command's own rule. -/
def accept (i : Instr) (s : State) (rule : Result) : Result :=
  if s.blk.faulted then .next s.respondErr
  else if !i.present s.cfg then raise i .illegalCommand s
  else if heldIn i s then .next s.hold
  else rule

/-! ## Reset (R380 to R383) -/

/-- Reset as an event: the block as R381 says, every activity abandoned, the agents' scripts restarted, the panel's
transmissions forgotten. The counters of the free values go on, so that each reset draws anew (assumption 15). -/
def State.hardReset (s : State) : State :=
  { State.resetWith s.cfg with
    env := { agents := s.env.agents.map Agent.restart, agenda := s.env.agenda, issuer := 0, pick := 0, sent := [],
             moveDraws := s.env.moveDraws, nanDraws := s.env.nanDraws, resets := s.env.resets + 1 } }

end Sys2Proof.Machine
end

