-- ==== Sys2Proof/Machine/Agents.lean ====
section
/-! DEFINITION. How the agents drive the block: which moves next (R113), which command an agent issues (R41, R111, R112),
who owns which unit (R123), and how a program is loaded. -/

namespace Sys2Proof.Machine

/-! ## Ownership (R123, R124) -/

/-- The roles the commands of a script belong to. -/
def Agent.roles (c : Config) (a : Agent) : List Role := a.script.filterMap fun p => roleOfWord c p.word

/-- No role is in both lists. -/
def rolesDisjoint (as bs : List Role) : Bool := as.all fun a => !bs.contains a

/-- Every role has at most one agent (R123). -/
def ownedAgents (c : Config) : List Agent → Bool
  | [] => true
  | a :: rest => (rest.all fun b => rolesDisjoint (a.roles c) (b.roles c)) && ownedAgents c rest

/-- The program keeps the ownership discipline (R123). -/
def State.owned (s : State) : Bool := ownedAgents s.cfg s.env.agents

/-! ## The next move (R113) -/

/-- Who moves next: the head of the agenda, or a free choice when it is empty (assumption 5). -/
def State.nextMove (s : State) : Move :=
  match s.env.agenda with
  | m :: _ => m
  | [] => Config.freeMove s.env.moveDraws

/-- The state with that choice used up. -/
def State.afterChoice (s : State) : State :=
  match s.env.agenda with
  | _ :: rest => { s with env := { s.env with agenda := rest } }
  | [] => { s with env := { s.env with moveDraws := s.env.moveDraws + 1 } }

/-! ## Issuing a command -/

/-- Whether the command word names a reader whose port is busy: the one kind of command an agent may present, and be held
for, while its own CONSUME is in progress (R112, R394, assumption 19). -/
def State.wordHeld (w : CmdWord) (s : State) : Bool :=
  match roleOfWord s.cfg w with
  | some (.consumer r) => s.portBusy r
  | some .producer => false
  | some .spectral => false
  | some .display => false
  | none => false

/-- The packet that agent `t` may issue now: the one at its place in its script, once it has the complete response of the
command before it (R111). -/
def State.fetch (t : Nat) (s : State) : Option Packet :=
  match s.env.agents[t]? with
  | none => none
  | some a =>
    match a.script[a.pos]? with
    | none => none
    | some p => if a.work = .idle ∨ s.wordHeld p.word = true then some p else none

/-- Agent `t` is the issuer of this step, and `pick` its choice of a pixel. -/
def State.select (t pick : Nat) (s : State) : State := { s with env := { s.env with issuer := t, pick := pick } }

/-- Agent `t` goes to another place of its script; it must have its last response and no command held (R41, R111). -/
def State.jump (t pos : Nat) (s : State) : State :=
  match s.env.agents[t]? with
  | none => s
  | some a => if a.work = .idle ∧ a.held = false then s.onAgent t fun b => { b with pos := pos } else s

/-- An illegal command word (R151, step 2 of R344). -/
def State.rejectWord (w : CmdWord) (s : State) : State := s.raiseFault w .illegalCommand

/-! ## Loading a program -/

/-- An agent about to issue the one packet of its script. -/
def Agent.ofPacket (p : Packet) : Agent := { script := [p], pos := 0, work := .idle, held := false, inbox := [] }

/-- The state with one agent, which issues the packet `p` in the very next step (assumption 20). -/
def State.load (p : Packet) (s : State) : State :=
  { s with env := { s.env with agents := [Agent.ofPacket p], agenda := .issue 0 0 :: s.env.agenda } }

end Sys2Proof.Machine
end

