-- ==== Sys2Proof/Machine/Flags.lean ====
section
/-! DEFINITION. The derived flags (R66, R68) and the packed status views of R69. The views are for documentation: no
command reads or writes one. R69 gives some bits of a view no field, and X9 of 93_implementation_defined.md no value;
that a view shows 0 there is the model's choice (DESIGN CHOICE, unsafe, assumption 30). -/

namespace Sys2Proof.Machine

/-- The in-flight flag, `FB.ST != IDLE` (R66). -/
def State.inFlight (s : State) : Bool := decide (s.fb.st ≠ .idle)

/-- The requested signal, `FB.ST = TREQ or FB.PEND = 1` (R66). -/
def State.requested (s : State) : Bool := decide (s.fb.st = .treq) || s.fb.pend

/-- The encoding of `FB.ST` in a status view (R61). -/
def FbStatus.code : FbStatus → BitVec 2
  | .idle => 0
  | .treq => 1
  | .tx => 2

/-- The encoding of `FB.LS` in a status view (R65). -/
def LinePhase.code : LinePhase → BitVec 2
  | .convert => 0
  | .send => 1
  | .wait => 2

/-- A flag as a bit. -/
def flagBit (b : Bool) : BitVec 1 := BitVec.ofBool b

/-- `RB.WR`: cursor in bits 14:0 (R69). -/
def State.wrView (s : State) : BitVec 15 := BitVec.ofNat 15 s.rb.wr

/-- `RB.RSTAT[r]`: `ATT` bit 31, `BUSY` bit 30, `CNT` bits 15:0 (R69). Bits 29:16 name no field: 0 is the model's choice
(assumption 30). -/
def State.rstatView (s : State) (r : Nat) : BitVec 32 :=
  flagBit (s.rb.reader r).att ++ flagBit (decide (0 < (s.rb.reader r).br)) ++ 0#14
    ++ BitVec.ofNat 16 (s.rb.reader r).cnt

/-- `RB.DROPS[r]`: count in bits RB_DROPW-1:0 (R69). The register exists only where `RB_HAS_DROPS` is true (R47). -/
def State.dropsView (s : State) (r : Nat) : BitVec s.cfg.rbDropW := BitVec.ofNat s.cfg.rbDropW (s.rb.reader r).drops

/-- `SE.CTRL`: `ARMED` bit 31, `PHASE` bits 14:0 (R69). Bits 30:15 name no field: 0 is the model's choice
(assumption 30). -/
def State.seCtrlView (s : State) : BitVec 32 := flagBit s.se.armed ++ 0#16 ++ BitVec.ofNat 15 s.se.phase

/-- `FB.CTRL`: `CUR` bits 30:16, `LS` bits 5:4, `PEND` bit 2, `ST` bits 1:0 (R69). Bits 31, 15:6 and 3 name no field: 0
is the model's choice (assumption 30). -/
def State.fbCtrlView (s : State) : BitVec 32 :=
  0#1 ++ BitVec.ofNat 15 s.fb.cur ++ 0#10 ++ s.fb.ls.code ++ 0#1 ++ flagBit s.fb.pend ++ s.fb.st.code

/-- `FB.XPOS`: `XP` bits 14:0 (R69). -/
def State.fbXposView (s : State) : BitVec 15 := BitVec.ofNat 15 s.fb.xp

/-- `FB.PAL[i]`: color in bits 15:0, entries 0 and 1 hardwired (R69). -/
def State.palView (s : State) (i : Nat) : BitVec 16 := s.palEntry i

/-- `BLK.FSTAT`: `FAULTED` bit 31, `FCMD` bits 23:8, `FCODE` bits 7:0 (R69). Bits 30:24 name no field: 0 is the model's
choice (assumption 30). -/
def State.fstatView (s : State) : BitVec 32 := flagBit s.blk.faulted ++ 0#7 ++ s.blk.fcmd ++ s.blk.fcode

/-- The bits a response carries on the command interface, with their number. R150 gives each part's width and the order
of the parts; that `BURST`, its interrupted form and `WORDS` lay them out as one number, the first part lowest, and that
the end marker, for which R150 states no width and no pattern, takes no bits, is the model's choice (DESIGN CHOICE,
unsafe, assumption 31). `elemW` is the width of an element. -/
def Response.bits (elemW : Nat) : Response → Nat × Nat
  | .ack => (0, 0)
  | .val v => (elemW, v.toNat)
  | .num width n => (width, n % 2 ^ width)
  | .bool b => (1, b.toNat)
  | .burst k vs => (16 + elemW * vs.length, packFields ((16, k) :: vs.map fun v => (elemW, v.toNat)))
  | .burstErr k vs e =>
    (16 + elemW * vs.length + 24, packFields (((16, k) :: vs.map fun v => (elemW, v.toNat)) ++ [(24, e.toNat)]))
  | .words ws => (32 * ws.length, packFields (ws.map fun w => (32, w.toNat)))
  | .err e => (24, e.toNat)

end Sys2Proof.Machine
end

