-- ==== Sys2Proof/Machine/Display.lean ====
section
/-! DEFINITION. The commands of unit FB (42_display.md, sections 2 to 4). A drawing command is its list of `plot` calls
(R283) and is performed pixel by pixel (R282). -/

namespace Sys2Proof.Machine

/-! ## Drawing -/

/-- `plot(x, y, c)` on a final framebuffer `F` (R283). -/
def plotInto (c : Config) (f : Cells Byte) (p : Plot) : Cells Byte :=
  if p.inside c then Cells.set (zeroFill 8) f (pixIndex c p.x.toNat p.y.toNat) p.c else f

/-- The final framebuffer of a drawing command, from `FB.PIX` as it is (R282). -/
def finalFrame (c : Config) (plots : List Plot) (pix : Cells Byte) : Cells Byte := plots.foldl (plotInto c) pix

/-- The pixels where `F` differs from `FB.PIX`, with their final values (R282). -/
def changedPixels (c : Config) (pix f : Cells Byte) : List PixelWrite :=
  (List.range c.fbH).flatMap fun y => (List.range c.fbW).filterMap fun x =>
    if readPix f (pixIndex c x y) = readPix pix (pixIndex c x y) then none
    else some { x := x, y := y, c := readPix f (pixIndex c x y) }

/-- The pixel writes a command with these `plot` calls has to do. -/
def State.pixelWrites (s : State) (plots : List Plot) : List PixelWrite :=
  changedPixels s.cfg s.mem.pix (finalFrame s.cfg plots s.mem.pix)

/-- One pixel step: write the `pick`-th of the writes left, counted round, and give the state and the rest (R282; the
order is open, assumption 9). -/
def takePixel (pick : Nat) (todo : List PixelWrite) (s : State) : State × List PixelWrite :=
  match todo[pick % todo.length]? with
  | some p => (s.setPixel p, todo.eraseIdx (pick % todo.length))
  | none => (s, [])

/-- Acceptance of a drawing command: `ACK` at once when nothing changes, else the first pixel step, with `ACK` if it is
the last (R282, R398 (c)). -/
def State.perform (plots : List Plot) (s : State) : State :=
  let r := takePixel s.env.pick (s.pixelWrites plots) s
  if r.2 = [] then r.1.respond .ack else r.1.beginWork (.draw r.2)

/-! ### The `plot` calls of each command -/

/-- CLEAR (R284). -/
def clearPlots (c : Config) : List Plot :=
  (List.range c.fbH).flatMap fun (y : Nat) => (List.range c.fbW).map fun (x : Nat) => { x := x, y := y, c := 0#8 }

/-- HLINE (R286). -/
def hlinePlots (x y : Int) (len : Nat) (c : Byte) : List Plot :=
  (List.range len).map fun (i : Nat) => { x := x + i, y := y, c := c }

/-- VLINE (R287). -/
def vlinePlots (x y : Int) (len : Nat) (c : Byte) : List Plot :=
  (List.range len).map fun (i : Nat) => { x := x, y := y + i, c := c }

/-- The eight points of one pass of the circle's loop (R288). -/
def octants (xc yc x y : Int) (c : Byte) : List Plot :=
  [{ x := xc + x, y := yc + y, c := c }, { x := xc + y, y := yc + x, c := c },
   { x := xc - y, y := yc + x, c := c }, { x := xc - x, y := yc + y, c := c },
   { x := xc - x, y := yc - y, c := c }, { x := xc - y, y := yc - x, c := c },
   { x := xc + y, y := yc - x, c := c }, { x := xc + x, y := yc - y, c := c }]

/-- The loop `while x >= y` of R288. `y` rises by one in each pass and `x` never rises, so `RAD + 1` passes are enough. -/
def circleLoop (xc yc : Int) (c : Byte) : Nat → Int → Int → Int → List Plot
  | 0, _, _, _ => []
  | fuel + 1, x, y, d =>
    if y ≤ x then
      octants xc yc x y c ++
        if d < 0 then circleLoop xc yc c fuel x (y + 1) (d + 2 * (y + 1) + 1)
        else circleLoop xc yc c fuel (x - 1) (y + 1) (d + 2 * ((y + 1) - (x - 1)) + 1)
    else []

/-- CIRCLE (R288). -/
def circlePlots (xc yc : Int) (rad : Nat) (c : Byte) : List Plot :=
  circleLoop xc yc c (rad + 1) rad 0 (1 - (rad : Int))

/-- BLIT, row-major (R290). -/
def blitPlots (x y : Int) (bw bh : Nat) (data : List Byte) : List Plot :=
  (List.range bh).flatMap fun (j : Nat) => (List.range bw).map fun (i : Nat) =>
    { x := x + i, y := y + j, c := data.getD (j * bw + i) 0#8 }

/-- VSCROLL: every row but the last takes the row below it (R292). -/
def State.vscrollPlots (s : State) : List Plot :=
  (List.range (s.cfg.fbH - 1)).flatMap fun (y : Nat) => (List.range s.cfg.fbW).map fun (x : Nat) =>
    { x := x, y := y, c := s.pixel x (y + 1) }

/-! ### The drawing commands -/

/-- The rule of R284. -/
def execClear (s : State) : Result := accept .clear s (.next (s.perform (clearPlots s.cfg)))

/-- The rule of R285: one atomic step. -/
def execPixel (x y : BitVec 16) (c : Byte) (s : State) : Result :=
  let p : Plot := { x := s16 x, y := s16 y, c := c }
  accept (.pixel x y c) s <|
    .next (State.respond .ack <|
      if p.inside s.cfg then s.setPixel { x := p.x.toNat, y := p.y.toNat, c := c } else s)

/-- The rule of R286. -/
def execHline (x y len : BitVec 16) (c : Byte) (s : State) : Result :=
  accept (.hline x y len c) s (.next (s.perform (hlinePlots (s16 x) (s16 y) (u16 len) c)))

/-- The rule of R287. -/
def execVline (x y len : BitVec 16) (c : Byte) (s : State) : Result :=
  accept (.vline x y len c) s (.next (s.perform (vlinePlots (s16 x) (s16 y) (u16 len) c)))

/-- The rule of R288. -/
def execCircle (xc yc rad : BitVec 16) (c : Byte) (s : State) : Result :=
  accept (.circle xc yc rad c) s (.next (s.perform (circlePlots (s16 xc) (s16 yc) (u16 rad) c)))

/-- The rule of R290. -/
def execBlit (x y bw bh : BitVec 16) (data : List Byte) (s : State) : Result :=
  accept (.blit x y bw bh data) s (.next (s.perform (blitPlots (s16 x) (s16 y) (u16 bw) (u16 bh) data)))

/-- The rule of R292. -/
def execVscroll (s : State) : Result := accept .vscroll s (.next (s.perform s.vscrollPlots))

/-! ## Palette (R297, R298) -/

/-- The rule of R297. -/
def execSetpal (i : BitVec 8) (col : Color) (s : State) : Result :=
  accept (.setpal i col) s <|
    if selIndex i < 2 then raise (.setpal i col) .palettePinned s
    else .next ((s.setPal (selIndex i) col).respond .ack)

/-! ## UPDATE and READY (R299, R301) -/

/-- The registers of unit FB after an UPDATE (R299, R300). -/
def DisplayRegs.update (f : DisplayRegs) : DisplayRegs :=
  match f.st with
  | .idle => { f with st := .treq }
  | .treq => f
  | .tx => { f with pend := true }

/-- The rule of R299. -/
def execUpdate (s : State) : Result := accept .update s (.next ({ s with fb := s.fb.update }.respond .ack))

/-- The rule of R301. -/
def execReady (s : State) : Result := accept .ready s (.next (s.respond (.bool (!s.inFlight))))

end Sys2Proof.Machine
end

