-- ==== Sys2Proof/Machine/RingBuffer.lean ====
section
/-! DEFINITION. The commands of unit RB (40_ring_buffer.md). -/

namespace Sys2Proof.Machine

/-- `check_reader(r)` (R181), for the command `i`. -/
def checkReader (i : Instr) (r : Nat) (s : State) (rule : Result) : Result :=
  if s.cfg.rbR ≤ r then raise i .badReader s
  else if !(s.rb.reader r).att then raise i .notAttached s
  else rule

/-- APPEND (R185, R186): write at the cursor, advance it, count for every attached reader. -/
def State.appendElem (v : Elem) (s : State) : State :=
  { s.setRbElem s.rb.wr v with rb := s.rb.append (rbParams s.cfg) }

/-- The oldest unread element of reader r (R49, R203). -/
def State.oldest (s : State) (r : Nat) : Elem := s.rbElem (s.rb.readAddr s.cfg.rbN r)

/-- The rule of R185. -/
def execAppend (v : Elem) (s : State) : Result :=
  accept (.append v) s (.next ((s.appendElem v).respond .ack))

/-- The port as ATTACH leaves it (R189). `BR` is not written. -/
def Reader.attached (p : RingParams) (q : Reader) : Reader :=
  { q with att := true, cnt := 0, drops := if p.hasDrops then 0 else q.drops }

/-- The rule of R189. -/
def execAttach (r : BitVec 8) (s : State) : Result :=
  accept (.attach r) s <|
    if s.cfg.rbR ≤ selIndex r then raise (.attach r) .badReader s
    else .next ({ s with rb := s.rb.onReader (selIndex r) (Reader.attached (rbParams s.cfg)) }.respond .ack)

/-- The rule of R191. -/
def execCount (r : BitVec 8) (s : State) : Result :=
  accept (.count r) s <| checkReader (.count r) (selIndex r) s <|
    .next (s.respond (.num 16 (s.rb.reader (selIndex r)).cnt))

/-- The rule of R193. -/
def execRead (r : BitVec 8) (s : State) : Result :=
  accept (.read r) s <| checkReader (.read r) (selIndex r) s <|
    if (s.rb.reader (selIndex r)).cnt = 0 then raise (.read r) .readEmpty s
    else .next ({ s with rb := s.rb.dropOldest (selIndex r) }.respond (.val (s.oldest (selIndex r))))

/-- The issue step of R195: `k` is recorded, and the response ends at once when it is 0. -/
def execConsume (r : BitVec 8) (s : State) : Result :=
  accept (.consume r) s <| checkReader (.consume r) (selIndex r) s <|
    let k := (s.rb.reader (selIndex r)).cnt
    let s' := { s with rb := s.rb.onReader (selIndex r) fun q => { q with br := k } }
    if k = 0 then .next (s'.respond (.burst 0 []))
    else .next (s'.beginWork (.burst (selIndex r) k []))

/-- The rule of R199. -/
def execDrops (r : BitVec 8) (s : State) : Result :=
  accept (.drops r) s <| checkReader (.drops r) (selIndex r) s <|
    .next (s.respond (.num s.cfg.rbDropW (s.rb.reader (selIndex r)).drops))

end Sys2Proof.Machine
end

