-- ==== Sys2Proof/Machine/Spectral.lean ====
section
/-! DEFINITION. The commands of unit SE (41_spectral_engine.md). Each loop of the spec's pseudocode is a fold in the same
order. -/

namespace Sys2Proof.Machine

/-- Perform `body i` for `i = 0, 1, ..., n - 1`, in that order. -/
def forUpTo (n : Nat) (body : Nat → State → State) (s : State) : State :=
  (List.range n).foldl (fun t i => body i t) s

/-! ## FEED (R232) -/

/-- APPEND to `SE.STG`: R185 for the staging ring (R55). -/
def State.stage (e : Elem) (s : State) : State :=
  { s.setStgElem s.se.stg.wr e with se := { s.se with stg := s.se.stg.append (stgParams s.cfg) } }

/-- `SE.PHASE` after a FEED (R56). -/
def State.nextPhase (s : State) : Nat := (s.se.phase + 1) % s.cfg.seOv

/-- The rule of R232. -/
def execFeed (re im : F32) (s : State) : Result :=
  let b := decide (s.nextPhase = 0)
  let t := s.stage (packSample re im)
  accept (.feed re im) s <|
    .next ({ t with se := { t.se with phase := s.nextPhase, armed := s.se.armed || b } }.respond (.bool b))

/-! ## COMPUTE (R236, R240 to R244) -/

/-- Phase (a): shift the window left by `SE_OV` samples, in ascending order (R240). -/
def State.shiftWindow (s : State) : State :=
  forUpTo (2 * s.cfg.seN - 2 * s.cfg.seOv) (fun i t => t.setX i (t.xElem (i + 2 * s.cfg.seOv))) s

/-- The oldest staged sample (R241). -/
def State.oldestSample (s : State) : Elem := s.stgElem (s.se.stg.readAddr s.cfg.seS 0)

/-- One read of phase (b): the oldest staged sample becomes sample `SE_N - SE_OV + j` of the window (R241). -/
def State.refillOne (j : Nat) (s : State) : State :=
  let e := s.oldestSample
  let n := s.cfg.seN - s.cfg.seOv + j
  (({ s with se := { s.se with stg := s.se.stg.dropOldest 0 } }).setX (2 * n) (sampleRe e)).setX (2 * n + 1) (sampleIm e)

/-- Phase (b): refill the tail with `SE_OV` staged samples, oldest first (R241). -/
def State.refill (s : State) : State := forUpTo s.cfg.seOv State.refillOne s

/-- One sample of phase (c); the operation on element `i` draws NaN number `nanDraws + i` (R242, assumption 3). -/
def State.windowOne (n : Nat) (s : State) : State :=
  (s.setWork (2 * n) (f32Mul (freeNaN (s.env.nanDraws + 2 * n)) (s.xElem (2 * n)) (s.winElem n))).setWork (2 * n + 1)
    (f32Mul (freeNaN (s.env.nanDraws + (2 * n + 1))) (s.xElem (2 * n + 1)) (s.winElem n))

/-- `n` draws of NaN payloads are used up. -/
def State.useNaNs (n : Nat) (s : State) : State := { s with env := { s.env with nanDraws := s.env.nanDraws + n } }

/-- Phase (c): window the samples into `SE.WORK` (R242). -/
def State.window (s : State) : State := (forUpTo s.cfg.seN State.windowOne s).useNaNs (2 * s.cfg.seN)

/-- The complex samples `z_0 .. z_(SE_N-1)` that `SE.WORK` holds interleaved (R243). -/
def State.workSamples (s : State) : List Cplx :=
  (List.range s.cfg.seN).map fun n => (s.workElem (2 * n), s.workElem (2 * n + 1))

/-- Phases (d) to (f): `SE_FFT`, stored interleaved in natural order (R243). -/
def State.transform (s : State) : State :=
  forUpTo s.cfg.seN (fun k t => (t.setWork (2 * k) (s.cfg.seFft s.workSamples k).1).setWork (2 * k + 1)
    (s.cfg.seFft s.workSamples k).2) s

/-- The five phases of R236 but for the response. -/
def State.compute (s : State) : State :=
  let t := s.shiftWindow.refill.window.transform
  { t with se := { t.se with armed := false } }

/-- The rule of R236, with the checks of R235 in their order. -/
def execCompute (s : State) : Result :=
  accept .compute s <|
    if !s.se.armed then raise .compute .computeNotArmed s
    else if (s.se.stg.reader 0).cnt < s.cfg.seOv then raise .compute .seUnderrun s
    else .next (s.compute.respond .ack)

/-! ## POSTPROCESS (R247 to R250) -/

/-- NORM: every element divided by `SE_N`, a power of two (R248). The division of element `i` draws NaN number `nanDraws + i`. -/
def State.normalise (s : State) : State :=
  (forUpTo (2 * s.cfg.seN) (fun i t => t.setWork i
    (f32DivPow2 (freeNaN (s.env.nanDraws + i)) (t.workElem i) s.cfg.seN.log2)) s).useNaNs (2 * s.cfg.seN)

/-- `fl32(fl32(re * re) + fl32(im * im))` (R249), with the NaNs drawn from number `k` on. -/
def powerOf (k : Nat) (re im : F32) : F32 :=
  f32Add (freeNaN (k + 2)) (f32Mul (freeNaN k) re re) (f32Mul (freeNaN (k + 1)) im im)

/-- POWER: bin k's power at `SE.WORK[k]`, in ascending order (R249). Bin k draws three NaNs. -/
def State.power (s : State) : State :=
  (forUpTo s.cfg.seN (fun k t => t.setWork k
    (powerOf (s.env.nanDraws + 3 * k) (t.workElem (2 * k)) (t.workElem (2 * k + 1)))) s).useNaNs (3 * s.cfg.seN)

/-- The variant's post-processing (R247). -/
def State.postprocess (s : State) : State :=
  match s.cfg.seVariant with
  | .none => s
  | .norm => s.normalise
  | .power => s.power
  | .normPower => s.normalise.power

/-- The rule of R247. -/
def execPostprocess (s : State) : Result :=
  accept .postprocess s <| .next (s.postprocess.respond .ack)

/-! ## COPYFFT (R252, R253) -/

/-- The words COPYFFT exports. -/
def State.exportWork (s : State) : List F32 := (List.range (2 * s.cfg.seN)).map s.workElem

/-- The rule of R253. -/
def execCopyfft (l : BitVec 32) (s : State) : Result :=
  accept (.copyfft l) s <|
    if u32 l ≠ 2 * s.cfg.seN then raise (.copyfft l) .copySize s
    else .next (s.respond (.words s.exportWork))

end Sys2Proof.Machine
end

