-- ==== Sys2Proof/Machine/Internal.lean ====
section
/-! DEFINITION. The steps of the block that no command is: the CONSUME beat (R196), the pixel step of a drawing command in
progress (R282), the transmit scheduler (R302 to R307) and the panel's completion (R306). A step that is not enabled
changes nothing (assumption 12). -/

namespace Sys2Proof.Machine

/-! ## `BURST_r` (R196) -/

/-- The beat is enabled. -/
def State.beatEnabled (r : Nat) (s : State) : Bool := !s.blk.faulted && decide (0 < (s.rb.reader r).br)

/-- The port after a beat: one element fewer pending, one beat fewer to deliver. -/
def Reader.afterBeat (q : Reader) : Reader := { q with cnt := q.cnt - 1, br := q.br - 1 }

/-- BEAT(r). -/
def State.beat (r : Nat) (s : State) : State :=
  if s.beatEnabled r then
    { s with rb := s.rb.onReader r Reader.afterBeat }.onAgents
      (Agent.deliver r (s.oldest r) (decide ((s.rb.reader r).br = 1)))
  else s

/-! ## Pixel steps (R282) -/

/-- The pixel writes that agent `t` has still to do. -/
def State.drawing? (t : Nat) (s : State) : Option (List PixelWrite) :=
  match s.env.agents[t]? with
  | some a =>
    match a.work with
    | .draw todo => some todo
    | .idle => none
    | .burst _ _ _ => none
  | none => none

/-- One pixel step of agent `t`'s drawing command; `ACK` follows the last. -/
def State.pixelStep (t pick : Nat) (s : State) : State :=
  if s.blk.faulted then s
  else
    match s.drawing? t with
    | none => s
    | some todo =>
      let r := takePixel pick todo s
      if r.2 = [] then r.1.onAgent t (Agent.finish .ack)
      else r.1.onAgent t fun a => { a with work := .draw r.2 }

/-! ## `SCHED` (R302 to R307) -/

/-- START (R303). -/
def State.startFrame (s : State) : State := { s with fb := { s.fb with st := .tx, cur := 0, xp := 0, ls := .convert } }

/-- The framebuffer coordinates of pixel `FB.XP` of line `FB.CUR` (R304). -/
def State.scanPoint (s : State) : Nat × Nat :=
  match s.cfg.fbScan with
  | .rowMajor => (s.fb.xp, s.fb.cur)
  | .columnMajor => (s.fb.cur, s.fb.xp)

/-- The colour of the pixel being converted (R304). -/
def State.scanColor (s : State) : Color := s.palEntry (s.pixel s.scanPoint.1 s.scanPoint.2).toNat

/-- CONVERT (R304): colour bits 15:8 first (R103). -/
def State.convertPixel (s : State) : State :=
  let t := (s.setLine (2 * s.fb.xp) (s.scanColor.extractLsb' 8 8)).setLine (2 * s.fb.xp + 1) (s.scanColor.extractLsb' 0 8)
  { t with fb := { s.fb with xp := s.fb.xp + 1, ls := if s.fb.xp + 1 = s.cfg.lineLen then .send else s.fb.ls } }

/-- The bytes of the line buffer. -/
def State.lineBytes (s : State) : List Byte := (List.range (2 * s.cfg.lineLen)).map s.lineByte

/-- SEND (R305): the TRANSMIT event, then the wait for the panel. -/
def State.sendLine (s : State) : State :=
  { s with fb := { s.fb with ls := .wait }, env := { s.env with sent := s.env.sent ++ [s.lineBytes] } }

/-- END (R307). -/
def State.endFrame (s : State) : State :=
  { s with fb := { s.fb with cur := 0, pend := false, st := if s.fb.pend then .treq else .idle } }

/-- The steps of the scheduler. -/
inductive SchedStep where
  | start | convert | send | finish
deriving DecidableEq, Repr

/-- The step of `SCHED` that is enabled (R302). At most one is in every state a run reaches; the order of the tests
matters in no other (assumption 13). -/
def State.schedEnabled (s : State) : Option SchedStep :=
  if s.blk.faulted then none
  else
    match s.fb.st with
    | .idle => none
    | .treq => some .start
    | .tx =>
      if s.fb.cur = s.cfg.lineCount then some .finish
      else
        match s.fb.ls with
        | .convert => if s.fb.cur < s.cfg.lineCount then some .convert else none
        | .send => some .send
        | .wait => none

/-- A step of `SCHED`. -/
def State.sched (s : State) : State :=
  match s.schedEnabled with
  | none => s
  | some .start => s.startFrame
  | some .convert => s.convertPixel
  | some .send => s.sendLine
  | some .finish => s.endFrame

/-! ## `PANEL` (R306, R308) -/

/-- The completion of a line is enabled. -/
def State.panelEnabled (s : State) : Bool := !s.blk.faulted && decide (s.fb.st = .tx ∧ s.fb.ls = .wait)

/-- COMPLETE(status): success and failure have the same effect. -/
def State.complete (_ok : Bool) (s : State) : State :=
  if s.panelEnabled then { s with fb := { s.fb with cur := s.fb.cur + 1, xp := 0, ls := .convert } } else s

end Sys2Proof.Machine
end

