-- ==== Sys2Proof/Machine/Dispatch.lean ====
section
/-! DEFINITION. The meaning of each command: one arm per row of the opcode map. -/

namespace Sys2Proof.Machine

def exec (i : Instr) (s : State) : Host.Outcome State Fault Refusal :=
  match i with
  | .append v => Sys2Proof.Machine.execAppend v s
  | .attach r => Sys2Proof.Machine.execAttach r s
  | .count r => Sys2Proof.Machine.execCount r s
  | .read r => Sys2Proof.Machine.execRead r s
  | .consume r => Sys2Proof.Machine.execConsume r s
  | .drops r => Sys2Proof.Machine.execDrops r s
  | .feed re im => Sys2Proof.Machine.execFeed re im s
  | .compute => Sys2Proof.Machine.execCompute s
  | .postprocess => Sys2Proof.Machine.execPostprocess s
  | .copyfft l => Sys2Proof.Machine.execCopyfft l s
  | .clear => Sys2Proof.Machine.execClear s
  | .pixel x y c => Sys2Proof.Machine.execPixel x y c s
  | .hline x y len c => Sys2Proof.Machine.execHline x y len c s
  | .vline x y len c => Sys2Proof.Machine.execVline x y len c s
  | .circle xc yc rad c => Sys2Proof.Machine.execCircle xc yc rad c s
  | .blit x y bw bh data => Sys2Proof.Machine.execBlit x y bw bh data s
  | .vscroll => Sys2Proof.Machine.execVscroll s
  | .setpal k col => Sys2Proof.Machine.execSetpal k col s
  | .update => Sys2Proof.Machine.execUpdate s
  | .ready => Sys2Proof.Machine.execReady s

end Sys2Proof.Machine
end

