-- ==== Sys2Proof/Machine/Moves.lean ====
section
/-! DEFINITION. The moves (R113): an agent's command on its way through command entry (R344), and every other move. -/

namespace Sys2Proof.Machine

/-- A command of an agent: the faulted check, the decoder, then the command (R344). -/
def issue (p : Packet) (s : State) : Result :=
  if s.blk.faulted then .next s.respondErr
  else
    match decode s.cfg p with
    | .illegal _ => .next (s.rejectWord p.word)
    | .instr i => exec i s

/-- Perform one move; one that is not enabled changes nothing (assumption 12). -/
def runMove (m : Move) (s : State) : Result :=
  match m with
  | .issue t pick =>
    match s.fetch t with
    | none => .next s
    | some p => issue p (s.select t pick)
  | .beat r => .next (s.beat r)
  | .pixel t pick => .next (s.pixelStep t pick)
  | .sched => .next s.sched
  | .panel ok => .next (s.complete ok)
  | .jump t pos => .next (s.jump t pos)
  | .reset => .next s.hardReset

end Sys2Proof.Machine
end

