-- ==== Sys2Proof/Machine/Step.lean ====
section
/-! DEFINITION. One step of the machine: the refusals of R355, then the move that comes next (R113). -/

namespace Sys2Proof.Machine

/-- One step (R113, R355). -/
def step (s : State) : Host.Outcome State Fault Refusal :=
  if !s.cfg.valid then .refused .badConfiguration
  else if !s.owned then .refused .ownershipBroken
  else runMove s.nextMove s.afterChoice

/-- `s` with the packet whose bits are `w` about to be issued: the next step fetches and runs exactly it. -/
def State.withFetchWord (s : State) (nbits w : Nat) : State := s.load (Packet.ofBits nbits w)

end Sys2Proof.Machine
end

