-- ==== Sys2Proof/Safety.lean ====
section
/-! DEFINITION. The terms the statements use: what a state of the block must satisfy (R50, R51, R61 to R69), the queue a
reader sees (R51), quiescence (R399), runs and their fairness (R118), and the accuracy property of `SE_FFT` (R239). -/

namespace Sys2Proof.Machine

/-! ## The block's state -/

/-- The block's own state is the same (R40): everything but the environment. -/
def SameBlock (s t : State) : Prop :=
  t.cfg = s.cfg ∧ t.mem = s.mem ∧ t.rb = s.rb ∧ t.se = s.se ∧ t.fb = s.fb ∧ t.blk = s.blk

/-- The block's state but for the fault record is the same (R347). -/
def SameButFault (s t : State) : Prop :=
  t.cfg = s.cfg ∧ t.mem = s.mem ∧ t.rb = s.rb ∧ t.se = s.se ∧ t.fb = s.fb

/-- The command passes the entry of R344: the block is not faulted, has the command, and does not hold it. -/
def Accepted (i : Instr) (s : State) : Prop :=
  s.blk.faulted = false ∧ i.present s.cfg = true ∧ heldIn i s = false

/-- The issuing agent was answered `r`, and nothing else of the environment changed (R26). -/
def Answered (r : Response) (s t : State) : Prop := t.env = (s.respond r).env

/-- `t` is what a reset makes of `s` (R383): the block as at power-on; every agent at the start of its script, with nothing
in progress, nothing held and nothing delivered for what was abandoned; a panel that was handed nothing and has nothing to
complete. -/
structure ResetFrom (s t : State) : Prop where
  block : SameBlock (State.resetWith s.cfg) t
  agents : t.env.agents.length = s.env.agents.length
  restarted : ∀ (j : Nat) (a b : Agent), s.env.agents[j]? = some a → t.env.agents[j]? = some b →
    b.script = a.script ∧ b.pos = 0 ∧ b.work = .idle ∧ b.held = false ∧ b.inbox <+: a.inbox
  unsent : t.env.sent = []
  panel : t.panelEnabled = false

/-- Only unit RB's registers and `RB.DATA` changed. -/
def OnlyRb (s t : State) : Prop :=
  t.cfg = s.cfg ∧ t.se = s.se ∧ t.fb = s.fb ∧ t.blk = s.blk ∧ t.mem = { s.mem with rbData := t.mem.rbData }

/-- Only unit SE's registers and arrays changed. -/
def OnlySe (s t : State) : Prop :=
  t.cfg = s.cfg ∧ t.rb = s.rb ∧ t.fb = s.fb ∧ t.blk = s.blk ∧
    t.mem = { s.mem with stgData := t.mem.stgData, x := t.mem.x, work := t.mem.work }

/-- Only the framebuffer changed. -/
def OnlyPix (s t : State) : Prop :=
  t.cfg = s.cfg ∧ t.rb = s.rb ∧ t.se = s.se ∧ t.fb = s.fb ∧ t.blk = s.blk ∧
    t.mem = { s.mem with pix := t.mem.pix }

/-- Only unit FB's registers changed. -/
def OnlyFbRegs (s t : State) : Prop :=
  t.cfg = s.cfg ∧ t.mem = s.mem ∧ t.rb = s.rb ∧ t.se = s.se ∧ t.blk = s.blk

/-- Every reader port but `r`, the cursor and the number of ports are the same. -/
def OnlyReader (r : Nat) (s t : State) : Prop :=
  t.rb.wr = s.rb.wr ∧ t.rb.readers.length = s.rb.readers.length ∧ ∀ q, q ≠ r → t.rb.reader q = s.rb.reader q

/-- What a step can read or write of unit RB, with the fault record and the environment. -/
def AgreeRb (s t : State) : Prop :=
  t.cfg = s.cfg ∧ t.rb = s.rb ∧ t.mem.rbData = s.mem.rbData ∧ t.blk = s.blk ∧ t.env = s.env

/-- The same for unit SE. -/
def AgreeSe (s t : State) : Prop :=
  t.cfg = s.cfg ∧ t.se = s.se ∧ t.mem.stgData = s.mem.stgData ∧ t.mem.x = s.mem.x ∧ t.mem.work = s.mem.work ∧
    t.blk = s.blk ∧ t.env = s.env

/-- The same for unit FB. -/
def AgreeFb (s t : State) : Prop :=
  t.cfg = s.cfg ∧ t.fb = s.fb ∧ t.mem.pix = s.mem.pix ∧ t.mem.pal = s.mem.pal ∧ t.mem.line = s.mem.line ∧
    t.blk = s.blk ∧ t.env = s.env

/-! ## Kinds of command -/

/-- The units of R143. -/
inductive BlockUnit where
  | rb | se | fb
deriving DecidableEq, Repr

/-- The unit of a command (R144 to R146). -/
def blockUnit : Instr → BlockUnit
  | .append _ | .attach _ | .count _ | .read _ | .consume _ | .drops _ => .rb
  | .feed _ _ | .compute | .postprocess | .copyfft _ => .se
  | .clear | .pixel _ _ _ | .hline _ _ _ _ | .vline _ _ _ _ | .circle _ _ _ _ | .blit _ _ _ _ _ | .vscroll
  | .setpal _ _ | .update | .ready => .fb

/-- The drawing commands that can write more than one pixel (R282). -/
def multiPixel : Instr → Bool
  | .clear | .hline _ _ _ _ | .vline _ _ _ _ | .circle _ _ _ _ | .blit _ _ _ _ _ | .vscroll => true
  | .append _ | .attach _ | .count _ | .read _ | .consume _ | .drops _ | .feed _ _ | .compute | .postprocess
  | .copyfft _ | .pixel _ _ _ | .setpal _ _ | .update | .ready => false

/-- The commands that raise no fault of their own (R342). -/
def neverFaults : Instr → Bool
  | .append _ | .feed _ _ | .postprocess | .clear | .pixel _ _ _ | .hline _ _ _ _ | .vline _ _ _ _ | .circle _ _ _ _
  | .blit _ _ _ _ _ | .vscroll | .update | .ready => true
  | .attach _ | .count _ | .read _ | .consume _ | .drops _ | .compute | .copyfft _ | .setpal _ _ => false

/-! ## Faults (R341, R352) -/

/-- The table of R352 for a legal command: each condition with its code, highest priority first. -/
def faultConditions (i : Instr) (s : State) : List (Bool × FaultCode) :=
  match i with
  | .attach r => [(decide (s.cfg.rbR ≤ r.toNat), .badReader)]
  | .count r | .consume r | .drops r =>
    [(decide (s.cfg.rbR ≤ r.toNat), .badReader), (!(s.rb.reader r.toNat).att, .notAttached)]
  | .read r =>
    [(decide (s.cfg.rbR ≤ r.toNat), .badReader), (!(s.rb.reader r.toNat).att, .notAttached),
      (decide ((s.rb.reader r.toNat).cnt = 0), .readEmpty)]
  | .compute =>
    [(!s.se.armed, .computeNotArmed), (decide ((s.se.stg.reader 0).cnt < s.cfg.seOv), .seUnderrun)]
  | .copyfft l => [(decide (l.toNat ≠ 2 * s.cfg.seN), .copySize)]
  | .setpal k _ => [(decide (k.toNat = 0 ∨ k.toNat = 1), .palettePinned)]
  | .append _ | .feed _ _ | .postprocess | .clear | .pixel _ _ _ | .hline _ _ _ _ | .vline _ _ _ _ | .circle _ _ _ _
  | .blit _ _ _ _ _ | .vscroll | .update | .ready => []

/-- The fault that a command issued to a block that is not faulted raises: the first condition that holds (R352). The
hold of R112 comes after the decoding and before the command's own checks. -/
def firstFault (p : Packet) (s : State) : Option FaultCode :=
  match decode s.cfg p with
  | .illegal _ => some .illegalCommand
  | .instr i => if heldIn i s then none else ((faultConditions i s).find? fun e => e.1).map fun e => e.2

/-! ## Drawing (R284 to R292) -/

/-- What pixel (x, y) of the framebuffer holds once the command `i`, accepted in `s`, has been acknowledged. -/
def drawnPixel (i : Instr) (s : State) (x y : Nat) : Byte :=
  match i with
  | .clear => 0#8
  | .pixel px py c => if px.toInt = x ∧ py.toInt = y then c else s.pixel x y
  | .hline px py len c =>
    if py.toInt = y ∧ px.toInt ≤ x ∧ (x : Int) < px.toInt + len.toNat then c else s.pixel x y
  | .vline px py len c =>
    if px.toInt = x ∧ py.toInt ≤ y ∧ (y : Int) < py.toInt + len.toNat then c else s.pixel x y
  | .circle xc yc rad c =>
    if (circlePlots xc.toInt yc.toInt rad.toNat c).any (fun p => decide (p.x = x ∧ p.y = y)) then c else s.pixel x y
  | .blit px py bw bh data =>
    if px.toInt ≤ x ∧ (x : Int) < px.toInt + bw.toNat ∧ py.toInt ≤ y ∧ (y : Int) < py.toInt + bh.toNat then
      data.getD (((y : Int) - py.toInt).toNat * bw.toNat + ((x : Int) - px.toInt).toNat) 0#8
    else s.pixel x y
  | .vscroll => if y + 1 < s.cfg.fbH then s.pixel x (y + 1) else s.pixel x y
  | .append _ | .attach _ | .count _ | .read _ | .consume _ | .drops _ | .feed _ _ | .compute | .postprocess
  | .copyfft _ | .setpal _ _ | .update | .ready => s.pixel x y

/-- Pixel (x, y) lies in the framebuffer and the command changes it (R282). -/
def Changes (i : Instr) (s : State) (x y : Nat) : Prop :=
  x < s.cfg.fbW ∧ y < s.cfg.fbH ∧ drawnPixel i s x y ≠ s.pixel x y

/-! ## Invariants -/

/-- A reader port of a ring (R50), with its drop counter in range (R47). -/
structure ReaderInv (p : RingParams) (q : Reader) : Prop where
  cnt_le : q.cnt ≤ p.cap
  br_le : q.br ≤ q.cnt
  unattached : q.att = false → q.cnt = 0 ∧ q.br = 0 ∧ q.drops = 0
  no_counter : p.hasDrops = false → q.drops = 0
  drops_lt : q.drops < 2 ^ p.dropW

/-- A ring with `n` reader ports (R44 to R50). -/
structure RingInv (p : RingParams) (n : Nat) (g : Ring) : Prop where
  wr_lt : g.wr < p.cap
  ports : g.readers.length = n
  readers : ∀ q ∈ g.readers, ReaderInv p q

/-- The registers of unit FB (R61 to R65): the line phase agrees with the cursors, and nothing is pending outside a
frame. -/
structure DisplayInv (c : Config) (f : DisplayRegs) : Prop where
  cur_le : f.cur ≤ c.lineCount
  xp_le : f.xp ≤ c.lineLen
  outside : f.st ≠ .tx → f.pend = false ∧ f.cur = 0 ∧ f.ls = .convert
  converting : f.ls = .convert → f.xp < c.lineLen
  sending : f.ls = .send → f.xp = c.lineLen ∧ f.cur < c.lineCount
  waiting : f.ls = .wait → f.xp = c.lineLen ∧ f.cur < c.lineCount

/-- The fault record: zero until a fault, then one of the codes of R341. -/
structure FaultInv (b : FaultRecord) : Prop where
  clear : b.faulted = false → b.fcode = 0#8 ∧ b.fcmd = 0#16
  code : b.faulted = true → ∃ k : FaultCode, b.fcode = k.bits

/-- The invariant of the block's state. -/
structure BlockInv (s : State) : Prop where
  cfg_valid : s.cfg.valid = true
  mem_wf : s.mem.wf = true
  mem_range : s.mem.inRange s.cfg = true
  elems : ∀ e ∈ s.mem.rbData, e.2.toNat < 2 ^ s.cfg.rbTw
  rb : RingInv (rbParams s.cfg) s.cfg.rbR s.rb
  stg : RingInv (stgParams s.cfg) 1 s.se.stg
  stg_port : ∀ q ∈ s.se.stg.readers, q.att = true ∧ q.br = 0
  phase_lt : s.se.phase < s.cfg.seOv
  display : DisplayInv s.cfg s.fb
  fault : FaultInv s.blk
  draws : ∀ a ∈ s.env.agents, ∀ todo, a.work = .draw todo → ∀ p ∈ todo, p.x < s.cfg.fbW ∧ p.y < s.cfg.fbH

/-- Every CONSUME in progress and its port agree (R48, R196, R346): while the block is not faulted, a burst has delivered
`k` less the beats left, a busy port has exactly one burst, and a faulted block has nothing in progress. -/
structure BurstInv (s : State) : Prop where
  counted : s.blk.faulted = false → ∀ a ∈ s.env.agents, ∀ r k vs, a.work = .burst r k vs →
    0 < (s.rb.reader r).br ∧ k = vs.length + (s.rb.reader r).br
  owned : s.blk.faulted = false → ∀ r, 0 < (s.rb.reader r).br →
    ∃ a ∈ s.env.agents, ∃ k vs, a.work = .burst r k vs
  single : ∀ (t u : Nat) (a b : Agent) (r k l : Nat) (vs ws : List Elem), s.env.agents[t]? = some a →
    s.env.agents[u]? = some b → a.work = .burst r k vs → b.work = .burst r l ws → t = u
  stopped : s.blk.faulted = true → ∀ a ∈ s.env.agents, a.work = .idle ∧ a.held = false

/-- The slot of a ring's array holds a written element. -/
def Written (m : Cells Elem) (i : Nat) : Prop := Cells.find? m i ≠ none

/-- No unspecified reset value can be observed (R51, R60, R381): every slot that is still to be read has been written, in
unit RB, in `SE.STG` and in the line buffer. -/
structure WrittenInv (s : State) : Prop where
  rb : ∀ r j, j < (s.rb.reader r).cnt → Written s.mem.rbData ((s.rb.readAddr s.cfg.rbN r + j) % s.cfg.rbN)
  stg : ∀ j, j < (s.se.stg.reader 0).cnt → Written s.mem.stgData ((s.se.stg.readAddr s.cfg.seS 0 + j) % s.cfg.seS)
  line : s.fb.st = .tx → ∀ j, j < 2 * s.fb.xp → Cells.find? s.mem.line j ≠ none

/-- The same state, `n` resets after power-on. The contents that a reset leaves unspecified are free values, one family for
each number of resets (assumption 4): in the two states they are unrelated, and everything else is the same. -/
def State.withResets (n : Nat) (s : State) : State := { s with env := { s.env with resets := n } }

/-! ## The queue of a reader (R51) -/

/-- Reader r's unread elements, oldest first: the slots `RD(r), RD(r)+1, ...` mod `RB_N` (R51). -/
def State.pending (s : State) (r : Nat) : List Elem :=
  (List.range (s.rb.reader r).cnt).map fun j => s.rbElem ((s.rb.readAddr s.cfg.rbN r + j) % s.cfg.rbN)

/-- The `j`-th oldest staged sample (R241). -/
def State.staged (s : State) (j : Nat) : Elem := s.stgElem ((s.se.stg.readAddr s.cfg.seS 0 + j) % s.cfg.seS)

/-! ## Events: runs without a reset, in any interleaving (R113) -/

/-- One step of the block, whichever agent takes it: a command at its acceptance, or an internal step. -/
inductive Event where
  | command (issuer pick : Nat) (i : Instr)
  | beat (r : Nat)
  | pixel (t pick : Nat)
  | sched
  | panel (ok : Bool)
deriving DecidableEq, Repr

/-- The state after an event. -/
def Event.run (e : Event) (s : State) : State :=
  match e with
  | .command t pick i =>
    match exec i (s.select t pick) with
    | .next u => u
    | .fault _ => s
    | .refused _ => s
  | .beat r => s.beat r
  | .pixel t pick => s.pixelStep t pick
  | .sched => s.sched
  | .panel ok => s.complete ok

/-- The state after a sequence of events. -/
def runEvents : List Event → State → State
  | [], s => s
  | e :: rest, s => runEvents rest (e.run s)

/-- The command of an event. -/
def Event.instr? : Event → Option Instr
  | .command _ _ i => some i
  | .beat _ => none
  | .pixel _ _ => none
  | .sched => none
  | .panel _ => none

/-- The value a command appends to unit RB (R185). -/
def appendedBy : Instr → Option Elem
  | .append v => some v
  | _ => none

/-- The sample a command feeds to unit SE (R232). -/
def fedBy : Instr → Option Cplx
  | .feed re im => some (re, im)
  | _ => none

/-- What the events appended, in order. -/
def appendedValues (events : List Event) : List Elem := events.filterMap fun e => e.instr?.bind appendedBy

/-- The samples the events fed, in order: `s_1, s_2, ...` of R246. -/
def fedSamples (events : List Event) : List Cplx := events.filterMap fun e => e.instr?.bind fedBy

/-- How many COMPUTEs there are among the events. -/
def computeCount (events : List Event) : Nat := events.countP fun e => decide (e.instr? = some .compute)

/-- Whether the event gives reader r its oldest unread element (R193, R196): a READ that the block performs, a beat that is
enabled. -/
def Event.takes (r : BitVec 8) (e : Event) (s : State) : Bool :=
  match e with
  | .command _ _ i =>
    decide (i = .read r) && !s.blk.faulted && !s.portBusy r.toNat && (s.rb.reader r.toNat).att
      && decide (0 < (s.rb.reader r.toNat).cnt)
  | .beat q => decide (q = r.toNat) && s.beatEnabled q
  | .pixel _ _ => false
  | .sched => false
  | .panel _ => false

/-- The elements reader r receives, in order. -/
def receivedValues (r : BitVec 8) : List Event → State → List Elem
  | [], _ => []
  | e :: rest, s =>
    (if e.takes r s then [s.oldest r.toNat] else []) ++ receivedValues r rest (e.run s)

/-- `SE.STG` never drops a sample (R246): every FEED of the events finds room. -/
def neverDropsASample : List Event → State → Bool
  | [], _ => true
  | e :: rest, s =>
    ((e.instr?.bind fedBy).isNone || decide ((s.se.stg.reader 0).cnt < s.cfg.seS)) && neverDropsASample rest (e.run s)

/-! ## Runs -/

/-- Perform commands one after another, each by its own meaning; none where one of them stops. -/
def execAll : List Instr → State → Option State
  | [], s => some s
  | i :: rest, s =>
    match exec i s with
    | .next t => execAll rest t
    | .fault _ => none
    | .refused _ => none

/-- The pixel steps of agent `t`'s drawing command, one for each choice. -/
def pixelSteps (t : Nat) : List Nat → State → State
  | [], s => s
  | k :: rest, s => pixelSteps t rest (s.pixelStep t k)

/-- `n` beats of reader r. -/
def beats (r : Nat) : Nat → State → State
  | 0, s => s
  | n + 1, s => beats r n (s.beat r)

/-- `n` steps of the transmit pipeline with no other agent between them: the panel's completion when it is awaited, else
the scheduler's step. -/
def pipeline : Nat → State → State
  | 0, s => s
  | n + 1, s => pipeline n (if s.panelEnabled then s.complete true else s.sched)

/-- `m` rounds of the loop of R257: `SE_OV` FEEDs of a sample stream, then COMPUTE. -/
def slidingProgram (c : Config) (sample : Nat → Cplx) (m : Nat) : List Instr :=
  (List.range m).flatMap fun b =>
    ((List.range c.seOv).map fun j => Instr.feed (sample (b * c.seOv + j)).1 (sample (b * c.seOv + j)).2) ++ [.compute]

/-- The steps of one frame (R398 (d)). -/
def frameSteps (c : Config) : Nat := 1 + c.lineCount * (c.lineLen + 2) + 1

/-- The bytes of line `l` of a frame, from the framebuffer and palette of `s` (R304, R311). -/
def State.frameLine (s : State) (l : Nat) : List Byte :=
  (List.range s.cfg.lineLen).flatMap fun p =>
    let q : Nat × Nat := match s.cfg.fbScan with
      | .rowMajor => (p, l)
      | .columnMajor => (l, p)
    let col := s.palEntry (s.pixel q.1 q.2).toNat
    [col.extractLsb' 8 8, col.extractLsb' 0 8]

/-- The quiescent state of R399. -/
def State.quiescent (s : State) : Prop :=
  (∀ a ∈ s.env.agents, a.script.length ≤ a.pos ∧ a.work = .idle ∧ a.held = false) ∧
    (s.blk.faulted = true ∨ ((∀ r, (s.rb.reader r).br = 0) ∧ s.fb.st = .idle))

/-- An infinite run of the machine. -/
def IsRun (run : Nat → State) : Prop := ∀ n, step (run n) = .next (run (n + 1))

/-- Weak fairness (R118): an internal step, and the panel's completion, that stays enabled is taken. -/
def WeaklyFair (run : Nat → State) : Prop :=
  (∀ n r, (∀ m, n ≤ m → (run m).beatEnabled r = true) → ∃ m, n ≤ m ∧ (run m).nextMove = .beat r) ∧
  (∀ n, (∀ m, n ≤ m → (run m).schedEnabled ≠ none) → ∃ m, n ≤ m ∧ (run m).nextMove = .sched) ∧
  (∀ n, (∀ m, n ≤ m → (run m).panelEnabled = true) → ∃ m ok, n ≤ m ∧ (run m).nextMove = .panel ok)

/-! ## Numbers -/

/-- The real number a finite binary32 pattern stands for. -/
def f32Value (a : F32) : ℚ := (f32Signed a : ℚ) * (2 : ℚ) ^ f32Pow a

/-- `re` and `im` are the parts of bin k of the reference transform of `z` (R239): the sum of `z_n * exp(-2 pi i k n / N)`
for the `N` samples of `z`. -/
def IsDft (z : List Cplx) (k : Nat) (re im : ℝ) : Prop :=
  re = ∑ n : Fin z.length, (((f32Value z[n].1 : ℚ) : ℝ) * Real.cos (2 * Real.pi * k * n / z.length)
      + ((f32Value z[n].2 : ℚ) : ℝ) * Real.sin (2 * Real.pi * k * n / z.length)) ∧
  im = ∑ n : Fin z.length, (((f32Value z[n].2 : ℚ) : ℝ) * Real.cos (2 * Real.pi * k * n / z.length)
      - ((f32Value z[n].1 : ℚ) : ℝ) * Real.sin (2 * Real.pi * k * n / z.length))

/-- `S`, the sum of the magnitudes of the parts of `z` (R239). -/
def magnitudeSum (z : List Cplx) : ℚ := (z.map fun p => |f32Value p.1| + |f32Value p.2|).sum

/-- Every part of every sample is finite. -/
def finiteSamples (z : List Cplx) : Bool := z.all fun p => f32IsFinite p.1 && f32IsFinite p.2

/-- The property `DFT_APPROX(eps)` of `SE_FFT` (R239). -/
def DftApprox (c : Config) (eps : ℝ) : Prop :=
  ∀ z : List Cplx, z.length = c.seN → finiteSamples z = true → ∀ k, k < c.seN → ∀ re im : ℝ, IsDft z k re im →
    f32IsFinite (c.seFft z k).1 = true ∧ f32IsFinite (c.seFft z k).2 = true ∧
    |((f32Value (c.seFft z k).1 : ℚ) : ℝ) - re| ≤ eps * (magnitudeSum z : ℚ) ∧
    |((f32Value (c.seFft z k).2 : ℚ) : ℝ) - im| ≤ eps * (magnitudeSum z : ℚ)

end Sys2Proof.Machine
end

