-- ==== Sys2Proof/Certificates/Slice0/Obligations.lean ====
section
/-! DEFINITION. What is to be proved of the model: one proposition per statement, each naming the rule it formalises. -/

open Sys2Proof Sys2Proof.Machine

/-! ## The encoding (30_encoding.md) -/

/-- R141, R148, R153, R157: the decoder reads back every well-formed command, with every operand at every value of its
field. The packing of the operand tuple is the model's (assumption 7). -/
def Obligations.DecodeOfEncodeIsInstruction : Prop :=
  ∀ (c : Config) (i : Instr), i.wellFormed c = true → decode c (encode i) = .instr i

/-- R153, R157: a packet that decodes has the command word of the command it decodes to, and that command is well formed:
each legal word stands for one command. -/
def Obligations.DecodedCommandHasThePacketsWord : Prop :=
  ∀ (c : Config) (p : Packet) (i : Instr), decode c p = .instr i → i.word = p.word ∧ i.wellFormed c = true

/-- R151: exactly which words are illegal, and that issuing one raises ILLEGAL_COMMAND and has no other effect. -/
def Obligations.IllegalWordsFault : Prop :=
  (∀ (c : Config) (p : Packet),
    (∃ why, decode c p = .illegal why) ↔
      let unit := (p.word.extractLsb' 12 4).toNat
      let op := (p.word.extractLsb' 8 4).toNat
      let sel := (p.word.extractLsb' 0 8).toNat
      3 ≤ unit ∨
      (unit = 0 ∧ (6 ≤ op ∨ (op = 5 ∧ c.rbHasDrops = false) ∨ (op = 0 ∧ sel ≠ 0))) ∨
      (unit = 1 ∧ (4 ≤ op ∨ (op = 2 ∧ c.seVariant = .none) ∨ sel ≠ 0)) ∨
      (unit = 2 ∧ (10 ≤ op ∨ (op ≠ 7 ∧ sel ≠ 0)))) ∧
  ∀ (p : Packet) (s : State) (why : IllegalWord), s.blk.faulted = false → decode s.cfg p = .illegal why →
    ∃ t, issue p s = .next t ∧ t.blk = { faulted := true, fcode := 0x01#8, fcmd := p.word } ∧ SameButFault s t

/-- R157: words written out from the opcode map decode to the commands they stand for. The operand bits of the APPEND,
FEED, COPYFFT, PIXEL and SETPAL packets follow the model's packing of an operand tuple (assumption 7). -/
def Obligations.WordsOfTheOpcodeMapDecode : Prop :=
  decode Config.initial ⟨0b0000000000000000#16, 0x40A00000⟩ = .instr (.append 0x40A00000#64) ∧
  decode Config.initial ⟨0b0000001100000001#16, 0⟩ = .instr (.read 1#8) ∧
  decode Config.initial ⟨0b0001000000000000#16, 0x3F8000003F000000⟩ = .instr (.feed 0x3F000000#32 0x3F800000#32) ∧
  decode Config.initial ⟨0b0001001100000000#16, 8⟩ = .instr (.copyfft 8#32) ∧
  decode Config.initial ⟨0b0010000100000000#16, 0x020000FFFF⟩ = .instr (.pixel 0xFFFF#16 0#16 2#8) ∧
  decode Config.initial ⟨0b0010011111111110#16, 0xF800⟩ = .instr (.setpal 254#8 0xF800#16) ∧
  decode Config.initial ⟨0b0010100000000000#16, 0⟩ = .instr .update ∧
  decode Config.initial ⟨0b0011000000000000#16, 0⟩ = .illegal .reservedUnit

/-! ## Command entry, responses and steps -/

/-- R26, R111: a response reaches the issuing agent only, which then is past that command; the block is untouched. -/
def Obligations.ResponseReachesTheIssuerOnly : Prop :=
  ∀ (r : Response) (s : State),
    SameBlock s (s.respond r) ∧
    (∀ a, s.env.agents[s.env.issuer]? = some a →
      (s.respond r).env.agents[s.env.issuer]? =
        some { a with pos := a.pos + 1, held := false, inbox := a.inbox ++ [r] }) ∧
    (∀ j, j ≠ s.env.issuer → (s.respond r).env.agents[j]? = s.env.agents[j]?) ∧
    (s.respond r).env = { s.env with agents := (s.respond r).env.agents }

/-- R113: when agent `t` moves next and its next packet decodes to `i`, the step is `exec` of `i`, on the state in which
that choice is used up and `t` is the issuer. -/
def Obligations.StepRunsTheDecodedCommand : Prop :=
  ∀ (s : State) (t pick : Nat) (p : Packet) (i : Instr),
    s.cfg.valid = true → s.owned = true → s.blk.faulted = false → s.nextMove = .issue t pick → s.fetch t = some p →
    decode s.cfg p = .instr i →
    step s = exec i (s.afterChoice.select t pick)

/-- R344: command entry in its order, and what fault entry writes and answers. -/
def Obligations.CommandEntryInOrder : Prop :=
  (∀ (p : Packet) (s : State),
    (s.blk.faulted = true → issue p s = .next (s.respond (.err (errWord s.blk.fcmd s.blk.fcode)))) ∧
    (s.blk.faulted = false →
      (∀ why, decode s.cfg p = .illegal why → issue p s = .next (s.raiseFault p.word .illegalCommand)) ∧
      (∀ i r, decode s.cfg p = .instr i → i.reader? = some r → r < s.cfg.rbR → 0 < (s.rb.reader r).br →
        issue p s = .next s.hold ∧ SameBlock s s.hold ∧ ∀ t, s.hold.fetch t = s.fetch t) ∧
      (∀ i, decode s.cfg p = .instr i → (∀ r, i.reader? = some r → r < s.cfg.rbR → (s.rb.reader r).br = 0) →
        issue p s = exec i s ∧ ∀ rule, accept i s rule = rule))) ∧
  ∀ (w : CmdWord) (code : FaultCode) (s : State),
    (s.raiseFault w code).blk = { faulted := true, fcode := code.bits, fcmd := w } ∧
    SameButFault s (s.raiseFault w code) ∧
    ∀ a, s.env.agents[s.env.issuer]? = some a → a.work = .idle →
      (s.raiseFault w code).env.agents[s.env.issuer]? =
        some { a with pos := a.pos + 1, held := false, inbox := a.inbox ++ [.err (errWord w code.bits)] }

/-- R355: the two refusals, nothing else stops the machine; that every step checks them is the model's choice
(assumptions 10 and 11). And no step changes a parameter (R10, R70). -/
def Obligations.OnlyTheTwoRefusals : Prop :=
  ∀ s : State,
    (s.cfg.valid = false → step s = .refused .badConfiguration) ∧
    (s.cfg.valid = true → s.owned = false → step s = .refused .ownershipBroken) ∧
    (s.cfg.valid = true → s.owned = true → ∃ t, step s = .next t ∧ t.cfg = s.cfg)

/-- R123: the program is refused exactly when two agents issue APPEND, or commands naming one reader, or commands of
unit SE, or commands of unit FB; that every step checks the scripts is the model's reading (assumption 10). -/
def Obligations.OwnershipIsOneAgentPerRole : Prop :=
  ∀ s : State, s.cfg.valid = true →
    (step s = .refused .ownershipBroken ↔
      ∃ (t u : Nat) (a b : Agent) (p q : Packet) (i j : Instr), t ≠ u ∧ s.env.agents[t]? = some a ∧
        s.env.agents[u]? = some b ∧ p ∈ a.script ∧ q ∈ b.script ∧ decode s.cfg ⟨p.word, 0⟩ = .instr i ∧
        decode s.cfg ⟨q.word, 0⟩ = .instr j ∧
        (((∃ v, i = .append v) ∧ ∃ v, j = .append v) ∨
          (∃ r, i.reader? = some r ∧ j.reader? = some r) ∨
          (blockUnit i = .se ∧ blockUnit j = .se) ∨
          (blockUnit i = .fb ∧ blockUnit j = .fb)))

/-! ## Faults (60_exceptions.md) -/

/-- R352: the record after a command holds the first condition of the table that holds, and a command that faults writes
nothing else; with the eight codes of R341. -/
def Obligations.FirstConditionInTheTableFaults : Prop :=
  (FaultCode.illegalCommand.bits = 0x01#8 ∧ FaultCode.badReader.bits = 0x02#8 ∧
    FaultCode.notAttached.bits = 0x03#8 ∧ FaultCode.readEmpty.bits = 0x04#8 ∧
    FaultCode.computeNotArmed.bits = 0x05#8 ∧ FaultCode.seUnderrun.bits = 0x06#8 ∧
    FaultCode.copySize.bits = 0x07#8 ∧ FaultCode.palettePinned.bits = 0x08#8) ∧
  ∀ (p : Packet) (s t : State), issue p s = .next t →
    (s.blk.faulted = true → t.blk = s.blk) ∧
    (s.blk.faulted = false → ∀ code, firstFault p s = some code →
      t.blk = { faulted := true, fcode := code.bits, fcmd := p.word } ∧ SameButFault s t) ∧
    (s.blk.faulted = false → firstFault p s = none → t.blk = s.blk)

/-- R345: a faulted block answers every command at once with the recorded fault, holds none, and changes nothing. -/
def Obligations.FaultedBlockAnswersErr : Prop :=
  (∀ (p : Packet) (s : State), s.blk.faulted = true →
    ∃ t, issue p s = .next t ∧ SameBlock s t ∧ Answered (.err (errWord s.blk.fcmd s.blk.fcode)) s t) ∧
  (∀ (i : Instr) (s : State), s.blk.faulted = true →
    ∃ t, exec i s = .next t ∧ SameBlock s t ∧ Answered (.err (errWord s.blk.fcmd s.blk.fcode)) s t) ∧
  ∀ (w : CmdWord) (code : FaultCode) (s : State) (a : Agent), s.env.agents[s.env.issuer]? = some a → a.work = .idle →
    ∃ b, (s.raiseFault w code).env.agents[s.env.issuer]? = some b ∧
      b.inbox = a.inbox ++ [.err (errWord (s.raiseFault w code).blk.fcmd (s.raiseFault w code).blk.fcode)]

/-- R349: the record of the first fault stays until reset, whatever step comes; and with it the whole block. -/
def Obligations.FaultRecordIsNeverOverwritten : Prop :=
  ∀ s t : State, s.blk.faulted = true → step s = .next t →
    (s.nextMove ≠ .reset → SameBlock s t) ∧ (s.nextMove = .reset → t.blk = FaultRecord.reset)

/-- R346: what the fault does to every other agent's command in progress or held, and that no internal step of a faulted
block has an effect. That the activities are closed in the faulting step itself, and how an agent's record holds them, is
the model's reading (assumption 8). -/
def Obligations.FaultStopsEveryActivity : Prop :=
  (∀ (w : CmdWord) (code : FaultCode) (s : State) (j : Nat) (a : Agent), j ≠ s.env.issuer →
    s.env.agents[j]? = some a →
    (s.raiseFault w code).env.agents[j]? = some
      { script := a.script
        pos := if a.held then a.pos + 1 else a.pos
        work := .idle
        held := false
        inbox := a.inbox ++
          (match a.work with
          | .idle => []
          | .burst _ k vs => [.burstErr k vs (errWord w code.bits)]
          | .draw _ => [.err (errWord w code.bits)]) ++
          (if a.held then [.err (errWord w code.bits)] else []) }) ∧
  (∀ (w : CmdWord) (code : FaultCode) (s : State), SameButFault s (s.raiseFault w code)) ∧
  ∀ s : State, s.blk.faulted = true →
    (∀ r, s.beat r = s) ∧ (∀ t pick, s.pixelStep t pick = s) ∧ s.sched = s ∧ ∀ ok, s.complete ok = s

/-- R342: the commands that never fault, and the internal steps, leave the fault record alone. -/
def Obligations.NoFaultOfTheirOwn : Prop :=
  (∀ (i : Instr) (s t : State), neverFaults i = true → i.present s.cfg = true → exec i s = .next t → t.blk = s.blk) ∧
  ∀ s : State, (∀ r, (s.beat r).blk = s.blk) ∧ (∀ t pick, (s.pixelStep t pick).blk = s.blk) ∧ s.sched.blk = s.blk ∧
    ∀ ok, (s.complete ok).blk = s.blk

/-! ## Reset (70_reset_and_hazards.md) -/

/-- R381: every specified reset value, for every configuration, at power-on and after a reset. -/
def Obligations.ResetValues : Prop :=
  ∀ (c : Config) (s : State), s = State.resetWith c ∨ (∃ u : State, u.cfg = c ∧ s = u.hardReset) →
    s.cfg = c ∧
    s.rb.wr = 0 ∧ s.rb.readers.length = c.rbR ∧
    (∀ r, s.rb.reader r = { att := false, cnt := 0, drops := 0, br := 0 }) ∧
    (∀ n, s.winElem n = c.seWin.getD n 0#32) ∧
    (∀ i, s.xElem i = 0x00000000#32) ∧ (∀ i, s.workElem i = 0x00000000#32) ∧
    s.se.stg.wr = 0 ∧ s.se.stg.readers = [{ att := true, cnt := 0, drops := 0, br := 0 }] ∧
    s.se.phase = 0 ∧ s.se.armed = false ∧
    (∀ x y, s.pixel x y = 0#8) ∧
    s.palEntry 0 = 0x0000#16 ∧ s.palEntry 1 = 0xFFFF#16 ∧ (∀ i, 2 ≤ i → s.palEntry i = 0x0000#16) ∧
    s.fb.st = .idle ∧ s.fb.pend = false ∧ s.fb.cur = 0 ∧ s.fb.xp = 0 ∧ s.fb.ls = .convert ∧
    s.blk.faulted = false ∧ s.blk.fcode = 0x00#8 ∧ s.blk.fcmd = 0x0000#16

/-- R383: reset abandons everything in progress, delivers nothing for it, restarts the scripts, and the panel forgets
what it was handed; and the step whose move is reset, chosen by the agenda or freely, is that reset. -/
def Obligations.ResetAbandonsEverything : Prop :=
  ∀ s : State, ResetFrom s s.hardReset ∧
    (s.cfg.valid = true → s.owned = true → s.nextMove = .reset →
      step s = .next s.afterChoice.hardReset ∧ ResetFrom s s.afterChoice.hardReset)

/-- R50, R61 to R69, R381: the block as reset leaves it meets the three invariants, for every configuration. -/
def Obligations.ResetMeetsTheInvariants : Prop :=
  ∀ c : Config, c.valid = true →
    BlockInv (State.resetWith c) ∧ BurstInv (State.resetWith c) ∧ WrittenInv (State.resetWith c)

/-! ## Invariants of every step -/

/-- R50, R101, R44 to R65: every step keeps the invariant of the block's state. -/
def Obligations.StepKeepsBlockInv : Prop :=
  ∀ s t : State, BlockInv s → step s = .next t → BlockInv t

/-- R48, R111, R112, R196: every step keeps the agreement between the CONSUME commands in progress and the busy ports.
That a faulted block has nothing in progress and nothing held, closed in the faulting step itself, is the model's reading
of R346 (assumption 8). -/
def Obligations.StepKeepsBurstInv : Prop :=
  ∀ s t : State, BlockInv s → BurstInv s → step s = .next t → BurstInv t

/-- R51, R60: every step keeps every slot that is still to be read written, and no step but a reset reads anything else:
whatever the contents that reset left unspecified are, the step does the same. These contents are free values, one family
for each number of resets (assumption 4). -/
def Obligations.StepKeepsWrittenInv : Prop :=
  ∀ s t : State, BlockInv s → WrittenInv s → step s = .next t →
    WrittenInv t ∧ (s.nextMove ≠ .reset → ∀ n, step (s.withResets n) = .next (t.withResets n))

/-! ## Unit RB (40_ring_buffer.md) -/

/-- R185: APPEND, never held, with its frame. -/
def Obligations.AppendWritesCountsAndAdvances : Prop :=
  ∀ (v : Elem) (s : State), s.blk.faulted = false →
    ∃ t, exec (.append v) s = .next t ∧ Answered .ack s t ∧ OnlyRb s t ∧
      (∀ i, t.rbElem i = if i = s.rb.wr then v else s.rbElem i) ∧
      t.rb.wr = (s.rb.wr + 1) % s.cfg.rbN ∧
      t.rb.readers.length = s.rb.readers.length ∧
      ∀ r, t.rb.reader r =
        let q := s.rb.reader r
        if q.att = true then
          if q.cnt < s.cfg.rbN then { q with cnt := q.cnt + 1 }
          else if s.cfg.rbHasDrops = true then
            { q with drops := if q.drops < 2 ^ s.cfg.rbDropW - 1 then q.drops + 1 else q.drops }
          else q
        else q

/-- R189: ATTACH, with its frame, and its one fault. -/
def Obligations.AttachClearsTheReader : Prop :=
  ∀ (r : BitVec 8) (s : State), s.blk.faulted = false →
    (s.cfg.rbR ≤ r.toNat → exec (.attach r) s = .next (s.raiseFault (0x01#8 ++ r) .badReader)) ∧
    (r.toNat < s.cfg.rbR → 0 < (s.rb.reader r.toNat).br → exec (.attach r) s = .next s.hold) ∧
    (r.toNat < s.cfg.rbR → s.rb.readers.length = s.cfg.rbR → (s.rb.reader r.toNat).br = 0 →
      ∃ t, exec (.attach r) s = .next t ∧ Answered .ack s t ∧ OnlyRb s t ∧ t.mem = s.mem ∧ OnlyReader r.toNat s t ∧
        t.rb.reader r.toNat =
          { att := true, cnt := 0,
            drops := if s.cfg.rbHasDrops = true then 0 else (s.rb.reader r.toNat).drops, br := 0 })

/-- R191: COUNT answers the pending count in 16 bits and changes nothing; its two faults and its hold. -/
def Obligations.CountAnswersThePendingCount : Prop :=
  ∀ (r : BitVec 8) (s : State), s.blk.faulted = false →
    (s.cfg.rbR ≤ r.toNat → exec (.count r) s = .next (s.raiseFault (0x02#8 ++ r) .badReader)) ∧
    (r.toNat < s.cfg.rbR → 0 < (s.rb.reader r.toNat).br → exec (.count r) s = .next s.hold) ∧
    (r.toNat < s.cfg.rbR → (s.rb.reader r.toNat).br = 0 → (s.rb.reader r.toNat).att = false →
      exec (.count r) s = .next (s.raiseFault (0x02#8 ++ r) .notAttached)) ∧
    (r.toNat < s.cfg.rbR → (s.rb.reader r.toNat).br = 0 → (s.rb.reader r.toNat).att = true →
      ∃ t, exec (.count r) s = .next t ∧ SameBlock s t ∧ Answered (.num 16 (s.rb.reader r.toNat).cnt) s t)

/-- R193: READ of a reader with something pending, with its frame; its three faults and its hold. -/
def Obligations.ReadRemovesTheOldest : Prop :=
  ∀ (r : BitVec 8) (s : State), s.blk.faulted = false → s.rb.readers.length = s.cfg.rbR →
    (s.cfg.rbR ≤ r.toNat → exec (.read r) s = .next (s.raiseFault (0x03#8 ++ r) .badReader)) ∧
    (r.toNat < s.cfg.rbR → 0 < (s.rb.reader r.toNat).br → exec (.read r) s = .next s.hold) ∧
    (r.toNat < s.cfg.rbR → (s.rb.reader r.toNat).br = 0 → (s.rb.reader r.toNat).att = false →
      exec (.read r) s = .next (s.raiseFault (0x03#8 ++ r) .notAttached)) ∧
    (r.toNat < s.cfg.rbR → (s.rb.reader r.toNat).br = 0 → (s.rb.reader r.toNat).att = true →
      (s.rb.reader r.toNat).cnt = 0 → exec (.read r) s = .next (s.raiseFault (0x03#8 ++ r) .readEmpty)) ∧
    (r.toNat < s.cfg.rbR → (s.rb.reader r.toNat).br = 0 → (s.rb.reader r.toNat).att = true →
      0 < (s.rb.reader r.toNat).cnt →
      ∃ t, exec (.read r) s = .next t ∧
        Answered (.val (s.rbElem (((s.rb.wr : Int) - (s.rb.reader r.toNat).cnt) % (s.cfg.rbN : Int)).toNat)) s t ∧
        OnlyRb s t ∧ t.mem = s.mem ∧ OnlyReader r.toNat s t ∧
        t.rb.reader r.toNat = { s.rb.reader r.toNat with cnt := (s.rb.reader r.toNat).cnt - 1 })

/-- R195: the issue step of CONSUME, with its frame; its two faults and its hold. -/
def Obligations.ConsumeStartsABurst : Prop :=
  ∀ (r : BitVec 8) (s : State), s.blk.faulted = false → s.rb.readers.length = s.cfg.rbR →
    (s.cfg.rbR ≤ r.toNat → exec (.consume r) s = .next (s.raiseFault (0x04#8 ++ r) .badReader)) ∧
    (r.toNat < s.cfg.rbR → 0 < (s.rb.reader r.toNat).br → exec (.consume r) s = .next s.hold) ∧
    (r.toNat < s.cfg.rbR → (s.rb.reader r.toNat).br = 0 → (s.rb.reader r.toNat).att = false →
      exec (.consume r) s = .next (s.raiseFault (0x04#8 ++ r) .notAttached)) ∧
    (r.toNat < s.cfg.rbR → (s.rb.reader r.toNat).br = 0 → (s.rb.reader r.toNat).att = true →
      ∃ t, exec (.consume r) s = .next t ∧ OnlyRb s t ∧ t.mem = s.mem ∧ OnlyReader r.toNat s t ∧
        t.rb.reader r.toNat = { s.rb.reader r.toNat with br := (s.rb.reader r.toNat).cnt } ∧
        ((s.rb.reader r.toNat).cnt = 0 → Answered (.burst 0 []) s t) ∧
        (0 < (s.rb.reader r.toNat).cnt →
          t.env = (s.beginWork (.burst r.toNat (s.rb.reader r.toNat).cnt [])).env))

/-- R196: the beat, with its frame. That a beat which is not enabled changes nothing is the model's choice
(assumption 12). -/
def Obligations.BeatDeliversTheOldest : Prop :=
  ∀ (r : Nat) (s : State),
    ((s.blk.faulted = true ∨ (s.rb.reader r).br = 0) → s.beat r = s) ∧
    (s.blk.faulted = false → 0 < (s.rb.reader r).br →
      let v := s.rbElem (((s.rb.wr : Int) - (s.rb.reader r).cnt) % (s.cfg.rbN : Int)).toNat
      OnlyRb s (s.beat r) ∧ (s.beat r).mem = s.mem ∧ OnlyReader r s (s.beat r) ∧
      (s.beat r).rb.reader r =
        { s.rb.reader r with cnt := (s.rb.reader r).cnt - 1, br := (s.rb.reader r).br - 1 } ∧
      (s.beat r).env = { s.env with agents := (s.beat r).env.agents } ∧
      ∀ (j : Nat) (a : Agent), s.env.agents[j]? = some a →
        (∀ k vs, a.work = .burst r k vs → (s.beat r).env.agents[j]? = some
          (if (s.rb.reader r).br = 1 then { a with work := .idle, inbox := a.inbox ++ [.burst k (vs ++ [v])] }
            else { a with work := .burst r k (vs ++ [v]) })) ∧
        ((∀ k vs, a.work ≠ .burst r k vs) → (s.beat r).env.agents[j]? = some a))

/-- R199: DROPS, where the counters exist, with its two faults and its hold; where they do not, its word is illegal. -/
def Obligations.DropsAnswersTheCounter : Prop :=
  ∀ (r : BitVec 8) (s : State), s.blk.faulted = false →
    (s.cfg.rbHasDrops = false → exec (.drops r) s = .next (s.raiseFault (0x05#8 ++ r) .illegalCommand)) ∧
    (s.cfg.rbHasDrops = true →
    (s.cfg.rbR ≤ r.toNat → exec (.drops r) s = .next (s.raiseFault (0x05#8 ++ r) .badReader)) ∧
    (r.toNat < s.cfg.rbR → 0 < (s.rb.reader r.toNat).br → exec (.drops r) s = .next s.hold) ∧
    (r.toNat < s.cfg.rbR → (s.rb.reader r.toNat).br = 0 → (s.rb.reader r.toNat).att = false →
      exec (.drops r) s = .next (s.raiseFault (0x05#8 ++ r) .notAttached)) ∧
    (r.toNat < s.cfg.rbR → (s.rb.reader r.toNat).br = 0 → (s.rb.reader r.toNat).att = true →
      ∃ t, exec (.drops r) s = .next t ∧ SameBlock s t ∧
        Answered (.num s.cfg.rbDropW (s.rb.reader r.toNat).drops) s t))

/-- R181: the reader checks and their order; ATTACH has the range check only. -/
def Obligations.ReaderChecksInOrder : Prop :=
  ∀ (i : Instr) (r : Nat) (s : State), s.blk.faulted = false → i.present s.cfg = true → i.reader? = some r →
    (s.cfg.rbR ≤ r → exec i s = .next (s.raiseFault i.word .badReader)) ∧
    (r < s.cfg.rbR → (s.rb.reader r).br = 0 → (s.rb.reader r).att = false →
      ((∀ n, i ≠ .attach n) → exec i s = .next (s.raiseFault i.word .notAttached)) ∧
      (∀ n t, i = .attach n → exec i s = .next t → t.blk = s.blk))

/-- R112: which commands are held, and that every other one is dealt with at once, APPEND among them. -/
def Obligations.OnlyBusyReadersHold : Prop :=
  (∀ (i : Instr) (r : Nat) (s : State), s.blk.faulted = false → i.present s.cfg = true → i.reader? = some r →
    r < s.cfg.rbR → 0 < (s.rb.reader r).br →
    exec i s = .next s.hold ∧ SameBlock s s.hold ∧
      ∀ a, s.env.agents[s.env.issuer]? = some a → s.hold.env.agents[s.env.issuer]? = some { a with held := true }) ∧
  ∀ (i : Instr) (s t : State) (a : Agent),
    (∀ r, i.reader? = some r → r < s.cfg.rbR → (s.rb.reader r).br = 0) → exec i s = .next t →
    s.env.agents[s.env.issuer]? = some a →
    ∃ b, t.env.agents[s.env.issuer]? = some b ∧ b.pos = a.pos + 1 ∧ b.held = false

/-- R51: seen through its unread elements a reader is a queue of capacity `RB_N`: APPEND adds at the end and drops from
the front what no longer fits, READ and the beat take from the front, ATTACH empties it, nothing else touches it. -/
def Obligations.ReaderIsABoundedQueue : Prop :=
  ∀ s : State, BlockInv s → s.blk.faulted = false →
    (∀ v t q, exec (.append v) s = .next t →
      t.pending q =
        if (s.rb.reader q).att = true then (s.pending q ++ [v]).drop ((s.pending q).length + 1 - s.cfg.rbN) else []) ∧
    (∀ (r : BitVec 8) t, (s.rb.reader r.toNat).br = 0 → exec (.read r) s = .next t → t.blk.faulted = false →
      s.pending r.toNat = s.oldest r.toNat :: t.pending r.toNat ∧
        ∀ q, q ≠ r.toNat → t.pending q = s.pending q) ∧
    (∀ r, 0 < (s.rb.reader r).br →
      s.pending r = s.oldest r :: (s.beat r).pending r ∧ ∀ q, q ≠ r → (s.beat r).pending q = s.pending q) ∧
    (∀ (r : BitVec 8) t, (s.rb.reader r.toNat).br = 0 → exec (.attach r) s = .next t → t.blk.faulted = false →
      t.pending r.toNat = [] ∧ ∀ q, q ≠ r.toNat → t.pending q = s.pending q) ∧
    (∀ i t q, (∀ v, i ≠ .append v) → (∀ r, i ≠ .read r) → (∀ r, i ≠ .attach r) → exec i s = .next t →
      t.pending q = s.pending q)

/-- R186: an APPEND that finds a reader full drops that reader's oldest element and counts it, and does to every other
reader what it would have done anyway. -/
def Obligations.OverwriteOnFullDropsTheOldest : Prop :=
  ∀ (v : Elem) (s t : State) (r : Nat), BlockInv s → s.blk.faulted = false → (s.rb.reader r).att = true →
    (s.rb.reader r).cnt = s.cfg.rbN → exec (.append v) s = .next t →
    Answered .ack s t ∧
    (t.rb.reader r).cnt = s.cfg.rbN ∧
    t.rb.readAddr s.cfg.rbN r = (s.rb.readAddr s.cfg.rbN r + 1) % s.cfg.rbN ∧
    t.pending r = (s.pending r).tail ++ [v] ∧
    (s.cfg.rbHasDrops = true → (t.rb.reader r).drops =
      if (s.rb.reader r).drops < 2 ^ s.cfg.rbDropW - 1 then (s.rb.reader r).drops + 1 else (s.rb.reader r).drops) ∧
    ∀ q, q ≠ r → (s.rb.reader q).att = true → (s.rb.reader q).cnt < s.cfg.rbN →
      t.pending q = s.pending q ++ [v] ∧ (t.rb.reader q).drops = (s.rb.reader q).drops

/-- R51, R116: whatever the order of the APPENDs, READs, CONSUMEs, beats and all other steps, with no further ATTACH of
reader r: what r receives and what it has still to read are, in order and without repetition, among what it had to read at
first and what was appended; and what it has still to read are the last of these. The first state may be inside a burst. -/
def Obligations.FifoUnderEveryInterleaving : Prop :=
  ∀ (r : BitVec 8) (events : List Event) (s : State), BlockInv s → (s.rb.reader r.toNat).att = true →
    (∀ e ∈ events, e.instr? ≠ some (.attach r)) → (runEvents events s).blk.faulted = false →
    let t := runEvents events s
    let all := s.pending r.toNat ++ appendedValues events
    (receivedValues r events s ++ t.pending r.toNat).Sublist all ∧
      t.pending r.toNat = all.drop (all.length - (t.rb.reader r.toNat).cnt)

/-- R197: with no APPEND in between, a CONSUME and its beats deliver what as many READs would, in the same order, and both
leave nothing pending. -/
def Obligations.ConsumeDeliversWhatReadsWould : Prop :=
  ∀ (r : BitVec 8) (s t : State) (a : Agent), BlockInv s → s.blk.faulted = false → r.toNat < s.cfg.rbR →
    (s.rb.reader r.toNat).att = true → (s.rb.reader r.toNat).br = 0 → s.env.agents[s.env.issuer]? = some a →
    a.work = .idle → exec (.consume r) s = .next t →
    let k := (s.rb.reader r.toNat).cnt
    (((beats r.toNat k t).rb.reader r.toNat).cnt = 0 ∧ ((beats r.toNat k t).rb.reader r.toNat).br = 0 ∧
      ∃ b, (beats r.toNat k t).env.agents[s.env.issuer]? = some b ∧ b.work = .idle ∧
        b.inbox = a.inbox ++ [.burst k (s.pending r.toNat)]) ∧
    ∃ u, execAll (List.replicate k (.read r)) s = some u ∧ (u.rb.reader r.toNat).cnt = 0 ∧
      ∃ b, u.env.agents[s.env.issuer]? = some b ∧ b.inbox = a.inbox ++ (s.pending r.toNat).map .val

/-- R200: each APPEND that finds the reader full counts once, and the counter stays at its maximum. -/
def Obligations.DropCounterSaturates : Prop :=
  ∀ (vs : List Elem) (r : Nat) (s : State), BlockInv s → s.blk.faulted = false → s.cfg.rbHasDrops = true →
    (s.rb.reader r).att = true → (s.rb.reader r).cnt = s.cfg.rbN →
    ∃ t, execAll (vs.map .append) s = some t ∧ (t.rb.reader r).cnt = s.cfg.rbN ∧
      (t.rb.reader r).drops = min ((s.rb.reader r).drops + vs.length) (2 ^ s.cfg.rbDropW - 1)

/-! ## Unit SE (41_spectral_engine.md) -/

/-- R232: FEED, with its frame. -/
def Obligations.FeedStagesOneSample : Prop :=
  ∀ (re im : F32) (s : State), s.blk.faulted = false →
    let b := decide ((s.se.phase + 1) % s.cfg.seOv = 0)
    ∃ t, exec (.feed re im) s = .next t ∧ Answered (.bool b) s t ∧ OnlySe s t ∧
      t.mem.x = s.mem.x ∧ t.mem.work = s.mem.work ∧
      (∀ i, t.stgElem i = if i = s.se.stg.wr then re ++ im else s.stgElem i) ∧
      t.se.stg.wr = (s.se.stg.wr + 1) % s.cfg.seS ∧
      t.se.stg.readers.length = s.se.stg.readers.length ∧
      (∀ r, t.se.stg.reader r =
        let q := s.se.stg.reader r
        if q.att = true ∧ q.cnt < s.cfg.seS then { q with cnt := q.cnt + 1 } else q) ∧
      t.se.phase = (s.se.phase + 1) % s.cfg.seOv ∧ t.se.armed = (s.se.armed || b)

/-- R234: the answer that the agent issuing the i-th FEED since reset receives, whatever steps came between. -/
def Obligations.FeedAnswersTrueEveryOverlap : Prop :=
  ∀ (c : Config) (events : List Event) (start : State) (j pick : Nat) (a : Agent) (re im : F32), c.valid = true →
    SameBlock (State.resetWith c) start →
    let s := runEvents events start
    s.blk.faulted = false → s.env.agents[j]? = some a →
    ∃ t, exec (.feed re im) (s.select j pick) = .next t ∧
      t.env.agents[j]? = some { a with
        pos := a.pos + 1
        held := false
        inbox := a.inbox ++ [.bool (decide (((fedSamples events).length + 1) % c.seOv = 0))] }

/-- R235: the two preconditions of COMPUTE, in their order, before any write. -/
def Obligations.ComputePreconditions : Prop :=
  ∀ s : State, s.blk.faulted = false →
    (s.se.armed = false → exec .compute s = .next (s.raiseFault 0x1100#16 .computeNotArmed)) ∧
    (s.se.armed = true → (s.se.stg.reader 0).cnt < s.cfg.seOv →
      exec .compute s = .next (s.raiseFault 0x1100#16 .seUnderrun)) ∧
    ∀ code, SameButFault s (s.raiseFault 0x1100#16 code)

/-- R240 to R244: COMPUTE shifts the window, refills its tail from the staging ring oldest first, windows the samples
into `SE.WORK`, transforms them there and disarms; with its frame. That a NaN product takes the free value drawn for its
element, and that `SE_FFT` is an opaque constant, are the model's choices (assumptions 2 and 3). -/
def Obligations.ComputeSlidesWindowsAndTransforms : Prop :=
  ∀ s : State, BlockInv s → s.blk.faulted = false → s.se.armed = true → s.cfg.seOv ≤ (s.se.stg.reader 0).cnt →
    ∃ t, exec .compute s = .next t ∧ OnlySe s t ∧ t.mem.stgData = s.mem.stgData ∧
      t.env = ((s.useNaNs (2 * s.cfg.seN)).respond .ack).env ∧
      (∀ i, i < 2 * s.cfg.seN - 2 * s.cfg.seOv → t.xElem i = s.xElem (i + 2 * s.cfg.seOv)) ∧
      (∀ j, j < s.cfg.seOv →
        t.xElem (2 * (s.cfg.seN - s.cfg.seOv + j)) = (s.staged j).extractLsb' 32 32 ∧
        t.xElem (2 * (s.cfg.seN - s.cfg.seOv + j) + 1) = (s.staged j).extractLsb' 0 32) ∧
      (let z := (List.range s.cfg.seN).map fun n =>
          (f32Mul (freeNaN (s.env.nanDraws + 2 * n)) (t.xElem (2 * n)) (s.winElem n),
            f32Mul (freeNaN (s.env.nanDraws + (2 * n + 1))) (t.xElem (2 * n + 1)) (s.winElem n))
        ∀ k, k < s.cfg.seN → t.workElem (2 * k) = (s.cfg.seFft z k).1 ∧ t.workElem (2 * k + 1) = (s.cfg.seFft z k).2) ∧
      (∀ i, 2 * s.cfg.seN ≤ i → t.xElem i = s.xElem i ∧ t.workElem i = s.workElem i) ∧
      t.se.stg.wr = s.se.stg.wr ∧ t.se.stg.readers.length = s.se.stg.readers.length ∧
      t.se.stg.reader 0 =
        { s.se.stg.reader 0 with cnt := (s.se.stg.reader 0).cnt - s.cfg.seOv } ∧
      t.se.phase = s.se.phase ∧ t.se.armed = false

/-- R246: the sliding-window law, for every run from reset in which `SE.STG` never dropped a sample: after `m` COMPUTEs
the samples still staged are those after number `m * SE_OV`, so the m-th consumed the `SE_OV` before, and the window holds
the `SE_N` up to it, zeros before the first. Any number of rounds of `SE_OV` FEEDs and a COMPUTE is such a run. -/
def Obligations.WindowHoldsTheLastSamples : Prop :=
  ∀ (c : Config) (start : State), c.valid = true → SameBlock (State.resetWith c) start →
    (∀ events : List Event, (runEvents events start).blk.faulted = false → neverDropsASample events start = true →
      let t := runEvents events start
      let fed := fedSamples events
      let m := computeCount events
      m * c.seOv + (t.se.stg.reader 0).cnt = fed.length ∧
      (∀ j, j < (t.se.stg.reader 0).cnt →
        ((t.staged j).extractLsb' 32 32, (t.staged j).extractLsb' 0 32) = fed.getD (m * c.seOv + j) (0#32, 0#32)) ∧
      ∀ n, n < c.seN →
        (t.xElem (2 * n), t.xElem (2 * n + 1)) =
          if c.seN ≤ m * c.seOv + n then fed.getD (m * c.seOv + n - c.seN) (0#32, 0#32) else (0#32, 0#32)) ∧
    ∀ (sample : Nat → Cplx) (m j pick : Nat),
      let events := (slidingProgram c sample m).map (Event.command j pick)
      (runEvents events start).blk.faulted = false ∧ neverDropsASample events start = true ∧
        computeCount events = m ∧ fedSamples events = (List.range (m * c.seOv)).map sample

/-- R247 to R250: POSTPROCESS for each variant, with its frame; without one its word is illegal. -/
def Obligations.PostprocessPerVariant : Prop :=
  ∀ s : State, s.blk.faulted = false →
    (s.cfg.seVariant = .none → exec .postprocess s = .next (s.raiseFault 0x1200#16 .illegalCommand)) ∧
    (s.cfg.seVariant ≠ .none →
      ∃ t, exec .postprocess s = .next t ∧ OnlySe s t ∧ t.se = s.se ∧ t.mem.stgData = s.mem.stgData ∧
        t.mem.x = s.mem.x ∧
        (∀ i, 2 * s.cfg.seN ≤ i → t.workElem i = s.workElem i) ∧
        let normed := fun i => f32DivPow2 (freeNaN (s.env.nanDraws + i)) (s.workElem i) s.cfg.seN.log2
        (s.cfg.seVariant = .norm →
          t.env = ((s.useNaNs (2 * s.cfg.seN)).respond .ack).env ∧
          ∀ i, i < 2 * s.cfg.seN → t.workElem i = normed i) ∧
        (s.cfg.seVariant = .power →
          t.env = ((s.useNaNs (3 * s.cfg.seN)).respond .ack).env ∧
          (∀ k, k < s.cfg.seN →
            t.workElem k = powerOf (s.env.nanDraws + 3 * k) (s.workElem (2 * k)) (s.workElem (2 * k + 1))) ∧
          ∀ i, s.cfg.seN ≤ i → t.workElem i = s.workElem i) ∧
        (s.cfg.seVariant = .normPower →
          t.env = ((s.useNaNs (5 * s.cfg.seN)).respond .ack).env ∧
          (∀ k, k < s.cfg.seN →
            t.workElem k =
              powerOf (s.env.nanDraws + 2 * s.cfg.seN + 3 * k) (normed (2 * k)) (normed (2 * k + 1))) ∧
          ∀ i, s.cfg.seN ≤ i → i < 2 * s.cfg.seN → t.workElem i = normed i))

/-- R252, R253: COPYFFT exports `SE.WORK` for the one right length, changes nothing, and faults for any other. -/
def Obligations.CopyfftExportsTheTransform : Prop :=
  ∀ (l : BitVec 32) (s : State), s.blk.faulted = false →
    (l.toNat ≠ 2 * s.cfg.seN → exec (.copyfft l) s = .next (s.raiseFault 0x1300#16 .copySize)) ∧
    (l.toNat = 2 * s.cfg.seN →
      ∃ t, exec (.copyfft l) s = .next t ∧ SameBlock s t ∧
        ∃ ws : List F32, Answered (.words ws) s t ∧ ws.length = 2 * s.cfg.seN ∧
          ∀ i, i < 2 * s.cfg.seN → ws[i]? = some (s.workElem i))

/-- R25: `fl32` of a nonzero dyadic number: the nearest binary32 value, ties to even, overflow to infinity, gradual
underflow; the sign only sets the sign bit. -/
def Obligations.RoundsToNearestTiesToEven : Prop :=
  ∀ (neg : Bool) (m : Nat) (e : Int), 0 < m →
    let v : ℚ := (m : ℚ) * (2 : ℚ) ^ e
    let a := fl32 false m e
    fl32 neg m e = (if neg = true then a ||| 0x80000000#32 else a) ∧
    (((2 : ℚ) ^ 24 - 1 / 2) * 2 ^ 104 ≤ v → a = 0x7F800000#32) ∧
    (v < ((2 : ℚ) ^ 24 - 1 / 2) * 2 ^ 104 →
      f32IsFinite a = true ∧
      ∀ b : F32, f32IsFinite b = true →
        |f32Value a - v| ≤ |f32Value b - v| ∧
        (|f32Value b - v| = |f32Value a - v| → f32Value b ≠ f32Value a → a.toNat % 2 = 0))

/-- R237: each arithmetic operation rounds the exact result once, and gives a NaN exactly for a NaN operand or an invalid
operation; every NaN drawn is one. -/
def Obligations.ArithmeticRoundsOnce : Prop :=
  (∀ k, f32IsNaN (freeNaN k) = true) ∧
  (∀ nan a b : F32, f32IsNaN nan = true →
    (f32IsNaN (f32Mul nan a b) = true ↔
      f32IsNaN a = true ∨ f32IsNaN b = true ∨ (f32IsInf a = true ∧ f32IsZero b = true) ∨
        (f32IsZero a = true ∧ f32IsInf b = true)) ∧
    (f32IsNaN (f32Add nan a b) = true ↔
      f32IsNaN a = true ∨ f32IsNaN b = true ∨ (f32IsInf a = true ∧ f32IsInf b = true ∧ a.msb ≠ b.msb)) ∧
    ∀ k, f32IsNaN (f32DivPow2 nan a k) = true ↔ f32IsNaN a = true) ∧
  ∀ nan a b : F32, f32IsFinite a = true → f32IsFinite b = true →
    (∃ neg m e, f32Mul nan a b = fl32 neg m e ∧
      (if neg = true then -1 else 1) * ((m : ℚ) * (2 : ℚ) ^ (e : Int)) = f32Value a * f32Value b) ∧
    (∃ neg m e, f32Add nan a b = fl32 neg m e ∧
      (if neg = true then -1 else 1) * ((m : ℚ) * (2 : ℚ) ^ (e : Int)) = f32Value a + f32Value b) ∧
    ∀ k : Nat, ∃ neg m e, f32DivPow2 nan a k = fl32 neg m e ∧
      (if neg = true then -1 else 1) * ((m : ℚ) * (2 : ℚ) ^ (e : Int)) = f32Value a / 2 ^ k

/-! ## Unit FB: drawing and palette (42_display.md) -/

/-- R282: the acceptance of CLEAR, HLINE, VLINE, CIRCLE, BLIT and VSCROLL. Where the command changes no pixel it is
acknowledged at once; else it writes one of the pixels it changes, and is acknowledged if that was the only one, or stays
in progress with the others, each once, at their final values. -/
def Obligations.DrawingStartsWithOnePixel : Prop :=
  ∀ (i : Instr) (s : State), multiPixel i = true → s.blk.faulted = false →
    ∃ t, exec i s = .next t ∧ OnlyPix s t ∧
      (((∀ x y, ¬ Changes i s x y) ∧ t.mem = s.mem ∧ Answered .ack s t) ∨
        ∃ x y, Changes i s x y ∧
          (∀ x' y', x' < s.cfg.fbW → y' < s.cfg.fbH →
            t.pixel x' y' = if x' = x ∧ y' = y then drawnPixel i s x y else s.pixel x' y') ∧
          (((∀ x' y', Changes i s x' y' → x' = x ∧ y' = y) ∧ Answered .ack s t) ∨
            ∃ todo : List PixelWrite, todo ≠ [] ∧ todo.Nodup ∧ t.env = (s.beginWork (.draw todo)).env ∧
              ∀ p, p ∈ todo ↔
                Changes i s p.x p.y ∧ ¬ (p.x = x ∧ p.y = y) ∧ p.c = drawnPixel i s p.x p.y))

/-- R282: whatever the order in which its pixels are written, a drawing command ends with the framebuffer its rule
defines (R284 to R292, clipped as R283 says) and one ACK. -/
def Obligations.DrawingEndsTheSameInEveryOrder : Prop :=
  ∀ (i : Instr) (s t : State) (a : Agent) (picks : List Nat), multiPixel i = true → s.blk.faulted = false →
    s.env.agents[s.env.issuer]? = some a → a.work = .idle → exec i s = .next t →
    s.cfg.fbW * s.cfg.fbH ≤ picks.length →
    let u := pixelSteps s.env.issuer picks t
    OnlyPix s u ∧ Answered .ack s u ∧
      ∀ x y, x < s.cfg.fbW → y < s.cfg.fbH → u.pixel x y = drawnPixel i s x y

/-- R285: PIXEL, with its frame; outside the framebuffer nothing is written. -/
def Obligations.PixelWritesOnePixel : Prop :=
  ∀ (x y : BitVec 16) (c : Byte) (s : State), s.blk.faulted = false →
    ∃ t, exec (.pixel x y c) s = .next t ∧ OnlyPix s t ∧ Answered .ack s t ∧
      (∀ px py, px < s.cfg.fbW → py < s.cfg.fbH → t.pixel px py = drawnPixel (.pixel x y c) s px py) ∧
      (¬ (0 ≤ x.toInt ∧ x.toInt < s.cfg.fbW ∧ 0 ≤ y.toInt ∧ y.toInt < s.cfg.fbH) → t.mem = s.mem)

/-- R288: the loop of CIRCLE runs to its end: more passes than the model allows it would plot nothing more. -/
def Obligations.CircleLoopRunsToItsEnd : Prop :=
  ∀ (xc yc : Int) (rad extra : Nat) (c : Byte),
    circleLoop xc yc c (rad + 1 + extra) rad 0 (1 - (rad : Int)) = circlePlots xc yc rad c

/-- R289: the points of the circles of radius 0, 1 and 2. -/
def Obligations.SmallCircles : Prop :=
  ∀ (xc yc x y : Int) (c d : Byte),
    ((⟨xc + x, yc + y, d⟩ : Plot) ∈ circlePlots xc yc 0 c ↔ d = c ∧ x = 0 ∧ y = 0) ∧
    ((⟨xc + x, yc + y, d⟩ : Plot) ∈ circlePlots xc yc 1 c ↔ d = c ∧ |x| + |y| = 1) ∧
    ((⟨xc + x, yc + y, d⟩ : Plot) ∈ circlePlots xc yc 2 c ↔
      d = c ∧ ((|x| = 2 ∧ y = 0) ∨ (x = 0 ∧ |y| = 2) ∨ (|x| = 2 ∧ |y| = 1) ∨ (|x| = 1 ∧ |y| = 2)))

/-- R294: no drawing command, however it ends, changes the palette, the line buffer or the scheduler's state, and none
sends anything. -/
def Obligations.DrawingTouchesNoSchedulerState : Prop :=
  (∀ (i : Instr) (s t : State), multiPixel i = true ∨ (∃ x y c, i = .pixel x y c) → exec i s = .next t →
    t.mem.pal = s.mem.pal ∧ t.mem.line = s.mem.line ∧ t.fb = s.fb ∧ t.env.sent = s.env.sent) ∧
  ∀ (s : State) (t pick : Nat), (s.pixelStep t pick).mem.pal = s.mem.pal ∧
    (s.pixelStep t pick).mem.line = s.mem.line ∧ (s.pixelStep t pick).fb = s.fb ∧
    (s.pixelStep t pick).env.sent = s.env.sent

/-- R297, R298: SETPAL of entries 2 to 255, with its frame; of entries 0 and 1 it faults whatever the colour. -/
def Obligations.SetpalWritesOneEntry : Prop :=
  ∀ (k : BitVec 8) (col : Color) (s : State), s.blk.faulted = false →
    (k.toNat = 0 ∨ k.toNat = 1 → exec (.setpal k col) s = .next (s.raiseFault (0x27#8 ++ k) .palettePinned)) ∧
    (2 ≤ k.toNat →
      ∃ t, exec (.setpal k col) s = .next t ∧ Answered .ack s t ∧ t.cfg = s.cfg ∧ t.rb = s.rb ∧ t.se = s.se ∧
        t.fb = s.fb ∧ t.blk = s.blk ∧ t.mem = { s.mem with pal := t.mem.pal } ∧
        ∀ i, t.palEntry i = if i = k.toNat then col else s.palEntry i)

/-! ## Unit FB: the update pipeline (42_display.md) -/

/-- R299: UPDATE in each state of the pipeline, with its frame. -/
def Obligations.UpdateRequestsAFrame : Prop :=
  ∀ s : State, s.blk.faulted = false →
    ∃ t, exec .update s = .next t ∧ Answered .ack s t ∧ OnlyFbRegs s t ∧
      (s.fb.st = .idle → t.fb = { s.fb with st := .treq }) ∧
      (s.fb.st = .tx → t.fb = { s.fb with pend := true }) ∧
      (s.fb.st = .treq → t.fb = s.fb)

/-- R301: READY answers whether the pipeline is idle and changes nothing. -/
def Obligations.ReadyAnswersIdle : Prop :=
  ∀ s : State, s.blk.faulted = false →
    ∃ t, exec .ready s = .next t ∧ SameBlock s t ∧ Answered (.bool (decide (s.fb.st = .idle))) s t

/-- R302 to R305, R307: when each step of the scheduler is enabled and what it does; in a state that meets the display's
invariant at most one is enabled. That with none enabled the scheduler changes nothing is the model's choice
(assumption 12). -/
def Obligations.SchedulerSteps : Prop :=
  ∀ s : State, DisplayInv s.cfg s.fb →
    let start := s.blk.faulted = false ∧ s.fb.st = .treq
    let convert := s.blk.faulted = false ∧ s.fb.st = .tx ∧ s.fb.ls = .convert ∧ s.fb.cur < s.cfg.lineCount
    let send := s.blk.faulted = false ∧ s.fb.st = .tx ∧ s.fb.ls = .send
    let finish := s.blk.faulted = false ∧ s.fb.st = .tx ∧ s.fb.cur = s.cfg.lineCount
    (¬ (start ∧ convert) ∧ ¬ (start ∧ send) ∧ ¬ (start ∧ finish) ∧ ¬ (convert ∧ send) ∧ ¬ (convert ∧ finish) ∧
      ¬ (send ∧ finish)) ∧
    (start → s.sched = { s with fb := { s.fb with st := .tx, cur := 0, xp := 0, ls := .convert } }) ∧
    (convert →
      let q : Nat × Nat := match s.cfg.fbScan with
        | .rowMajor => (s.fb.xp, s.fb.cur)
        | .columnMajor => (s.fb.cur, s.fb.xp)
      let col := s.palEntry (s.pixel q.1 q.2).toNat
      s.sched.cfg = s.cfg ∧ s.sched.rb = s.rb ∧ s.sched.se = s.se ∧ s.sched.blk = s.blk ∧ s.sched.env = s.env ∧
        s.sched.mem = { s.mem with line := s.sched.mem.line } ∧
        (∀ j, s.sched.lineByte j = if j = 2 * s.fb.xp then col.extractLsb' 8 8
          else if j = 2 * s.fb.xp + 1 then col.extractLsb' 0 8 else s.lineByte j) ∧
        s.sched.fb = { s.fb with xp := s.fb.xp + 1
                                 ls := if s.fb.xp + 1 = s.cfg.lineLen then .send else .convert }) ∧
    (send → s.sched = { s with
      fb := { s.fb with ls := .wait }
      env := { s.env with sent := s.env.sent ++ [(List.range (2 * s.cfg.lineLen)).map s.lineByte] } }) ∧
    (finish → s.sched = { s with
      fb := { s.fb with cur := 0, pend := false, st := if s.fb.pend = true then .treq else .idle } }) ∧
    (¬ start → ¬ convert → ¬ send → ¬ finish → s.sched = s)

/-- R306, R308: the panel's completion goes on to the next line, whatever its status, and nothing records a failure. That
it has no effect while no line is waited for is the model's choice (assumption 12); R315 says so of a faulted block. -/
def Obligations.CompletionGoesOnToTheNextLine : Prop :=
  ∀ (s : State) (ok : Bool),
    (s.blk.faulted = false → s.fb.st = .tx → s.fb.ls = .wait →
      s.complete ok = { s with fb := { s.fb with cur := s.fb.cur + 1, xp := 0, ls := .convert } }) ∧
    (¬ (s.blk.faulted = false ∧ s.fb.st = .tx ∧ s.fb.ls = .wait) → s.complete ok = s)

/-- R398 (d), R309, R311: with no other agent between, a requested frame takes exactly its number of steps and sends
exactly its lines, in order, with the colours of the framebuffer and palette; then the pipeline is idle. -/
def Obligations.FrameTakesItsStepsAndSendsItsLines : Prop :=
  ∀ s : State, BlockInv s → s.blk.faulted = false → s.fb.st = .treq →
    let u := pipeline (frameSteps s.cfg) s
    u.env = { s.env with sent := s.env.sent ++ (List.range s.cfg.lineCount).map s.frameLine } ∧
      u.fb.st = .idle ∧ u.fb.cur = 0 ∧ u.mem = { s.mem with line := u.mem.line } ∧
      u.rb = s.rb ∧ u.se = s.se ∧ u.blk = s.blk ∧
      ∀ n, n < frameSteps s.cfg → (pipeline n s).fb.st ≠ .idle

/-- R310: the frame that follows a PIXEL and an UPDATE, with no other command between, carries the pixel's colour at its
place. -/
def Obligations.UpdateCarriesThePixel : Prop :=
  ∀ (x y : BitVec 16) (c : Byte) (s t u : State), BlockInv s → s.blk.faulted = false → s.fb.st = .idle →
    x.toNat < s.cfg.fbW → y.toNat < s.cfg.fbH → exec (.pixel x y c) s = .next t → exec .update t = .next u →
    ∃ lines : List (List Byte), (pipeline (frameSteps s.cfg) u).env.sent = s.env.sent ++ lines ∧
      lines.length = s.cfg.lineCount ∧ (∀ l ∈ lines, l.length = 2 * s.cfg.lineLen) ∧
      (s.cfg.fbScan = .rowMajor → ∃ l, lines[y.toNat]? = some l ∧
        l[2 * x.toNat]? = some ((s.palEntry c.toNat).extractLsb' 8 8) ∧
        l[2 * x.toNat + 1]? = some ((s.palEntry c.toNat).extractLsb' 0 8)) ∧
      (s.cfg.fbScan = .columnMajor → ∃ l, lines[x.toNat]? = some l ∧
        l[2 * y.toNat]? = some ((s.palEntry c.toNat).extractLsb' 8 8) ∧
        l[2 * y.toNat + 1]? = some ((s.palEntry c.toNat).extractLsb' 0 8))

/-! ## Whole-machine rules -/

/-- R115: no command and no internal step writes or reads the state of another unit: two states that agree on the step's
own unit, the fault record and the environment still agree after it, whatever the other units hold. -/
def Obligations.UnitsShareNoState : Prop :=
  (∀ (i : Instr) (s s' t t' : State), exec i s = .next t → exec i s' = .next t' →
    (blockUnit i = .rb → AgreeRb s s' →
      AgreeRb t t' ∧ t.se = s.se ∧ t.fb = s.fb ∧ t.mem = { s.mem with rbData := t.mem.rbData }) ∧
    (blockUnit i = .se → AgreeSe s s' →
      AgreeSe t t' ∧ t.rb = s.rb ∧ t.fb = s.fb ∧
        t.mem = { s.mem with stgData := t.mem.stgData, x := t.mem.x, work := t.mem.work }) ∧
    (blockUnit i = .fb → AgreeFb s s' →
      AgreeFb t t' ∧ t.rb = s.rb ∧ t.se = s.se ∧
        t.mem = { s.mem with pix := t.mem.pix, pal := t.mem.pal, line := t.mem.line })) ∧
  (∀ (s s' : State) (r : Nat), AgreeRb s s' →
    AgreeRb (s.beat r) (s'.beat r) ∧ (s.beat r).se = s.se ∧ (s.beat r).fb = s.fb ∧ (s.beat r).mem = s.mem) ∧
  ∀ (s s' : State) (f : State → State), AgreeFb s s' →
    (f = State.sched ∨ (∃ ok, f = State.complete ok) ∨ ∃ t pick, f = State.pixelStep t pick) →
    AgreeFb (f s) (f s') ∧ (f s).rb = s.rb ∧ (f s).se = s.se ∧
      (f s).mem = { s.mem with pix := (f s).mem.pix, line := (f s).mem.line }

/-- R107: COUNT, DROPS, READY and COPYFFT, where they do not fault, change nothing and give the same response again. -/
def Obligations.ReadsAreIdempotent : Prop :=
  ∀ (i : Instr) (s t : State), ((∃ r, i = .count r) ∨ (∃ r, i = .drops r) ∨ i = .ready ∨ ∃ l, i = .copyfft l) →
    Accepted i s → exec i s = .next t → t.blk = s.blk →
    SameBlock s t ∧ ∃ r u, Answered r s t ∧ exec i t = .next u ∧ SameBlock s u ∧ Answered r t u

/-- R399: in the quiescent state no step but reset changes the block, and without an agent's own choice to go on the state
stays quiescent. -/
def Obligations.QuiescentStateStays : Prop :=
  ∀ s t : State, s.quiescent → step s = .next t →
    (s.nextMove ≠ .reset → SameBlock s t) ∧
    ((s.nextMove ≠ .reset ∧ ∀ j pos, s.nextMove ≠ .jump j pos) → t.quiescent)

/-- R69: where each field of the packed status views stands, with the encodings of R61 and R65. -/
def Obligations.StatusViewFields : Prop :=
  ∀ s : State, BlockInv s →
    s.wrView.toNat = s.rb.wr ∧ s.fbXposView.toNat = s.fb.xp ∧
    (∀ r, (s.rstatView r).extractLsb' 31 1 = BitVec.ofBool (s.rb.reader r).att ∧
      (s.rstatView r).extractLsb' 30 1 = BitVec.ofBool (decide (0 < (s.rb.reader r).br)) ∧
      ((s.rstatView r).extractLsb' 0 16).toNat = (s.rb.reader r).cnt) ∧
    (s.cfg.rbHasDrops = true → ∀ r, (s.dropsView r).toNat = (s.rb.reader r).drops) ∧
    s.seCtrlView.extractLsb' 31 1 = BitVec.ofBool s.se.armed ∧ (s.seCtrlView.extractLsb' 0 15).toNat = s.se.phase ∧
    s.fbCtrlView.extractLsb' 0 2 = (match s.fb.st with
      | .idle => 0#2
      | .treq => 1#2
      | .tx => 2#2) ∧
    s.fbCtrlView.extractLsb' 2 1 = BitVec.ofBool s.fb.pend ∧
    s.fbCtrlView.extractLsb' 4 2 = (match s.fb.ls with
      | .convert => 0#2
      | .send => 1#2
      | .wait => 2#2) ∧
    (s.fbCtrlView.extractLsb' 16 15).toNat = s.fb.cur ∧
    s.palView 0 = 0x0000#16 ∧ s.palView 1 = 0xFFFF#16 ∧ (∀ i, s.palView i = s.palEntry i) ∧
    s.fstatView.extractLsb' 31 1 = BitVec.ofBool s.blk.faulted ∧ s.fstatView.extractLsb' 8 16 = s.blk.fcmd ∧
    s.fstatView.extractLsb' 0 8 = s.blk.fcode
end

