-- ==== Sys2Proof/Laws/State.lean ====
section
/-! SUPPORT. One lemma per field per update of the state, true by definition, so that no later proof unfolds a record
update. -/

namespace Sys2Proof.Machine.State

/-! ### `setRbElem` -/

@[simp] theorem setRbElem_cfg (i : Nat) (v : Elem) (s : State) : (s.setRbElem i v).cfg = s.cfg := rfl
@[simp] theorem setRbElem_mem (i : Nat) (v : Elem) (s : State) : (s.setRbElem i v).mem = { s.mem with rbData := Cells.set (unspecified 64) s.mem.rbData i v } := rfl
@[simp] theorem setRbElem_rb (i : Nat) (v : Elem) (s : State) : (s.setRbElem i v).rb = s.rb := rfl
@[simp] theorem setRbElem_se (i : Nat) (v : Elem) (s : State) : (s.setRbElem i v).se = s.se := rfl
@[simp] theorem setRbElem_fb (i : Nat) (v : Elem) (s : State) : (s.setRbElem i v).fb = s.fb := rfl
@[simp] theorem setRbElem_blk (i : Nat) (v : Elem) (s : State) : (s.setRbElem i v).blk = s.blk := rfl
@[simp] theorem setRbElem_env (i : Nat) (v : Elem) (s : State) : (s.setRbElem i v).env = s.env := rfl

/-! ### `setStgElem` -/

@[simp] theorem setStgElem_cfg (i : Nat) (v : Elem) (s : State) : (s.setStgElem i v).cfg = s.cfg := rfl
@[simp] theorem setStgElem_mem (i : Nat) (v : Elem) (s : State) : (s.setStgElem i v).mem = { s.mem with stgData := Cells.set (unspecified 64) s.mem.stgData i v } := rfl
@[simp] theorem setStgElem_rb (i : Nat) (v : Elem) (s : State) : (s.setStgElem i v).rb = s.rb := rfl
@[simp] theorem setStgElem_se (i : Nat) (v : Elem) (s : State) : (s.setStgElem i v).se = s.se := rfl
@[simp] theorem setStgElem_fb (i : Nat) (v : Elem) (s : State) : (s.setStgElem i v).fb = s.fb := rfl
@[simp] theorem setStgElem_blk (i : Nat) (v : Elem) (s : State) : (s.setStgElem i v).blk = s.blk := rfl
@[simp] theorem setStgElem_env (i : Nat) (v : Elem) (s : State) : (s.setStgElem i v).env = s.env := rfl

/-! ### `setX` -/

@[simp] theorem setX_cfg (i : Nat) (v : F32) (s : State) : (s.setX i v).cfg = s.cfg := rfl
@[simp] theorem setX_mem (i : Nat) (v : F32) (s : State) : (s.setX i v).mem = { s.mem with x := Cells.set (zeroFill 32) s.mem.x i v } := rfl
@[simp] theorem setX_rb (i : Nat) (v : F32) (s : State) : (s.setX i v).rb = s.rb := rfl
@[simp] theorem setX_se (i : Nat) (v : F32) (s : State) : (s.setX i v).se = s.se := rfl
@[simp] theorem setX_fb (i : Nat) (v : F32) (s : State) : (s.setX i v).fb = s.fb := rfl
@[simp] theorem setX_blk (i : Nat) (v : F32) (s : State) : (s.setX i v).blk = s.blk := rfl
@[simp] theorem setX_env (i : Nat) (v : F32) (s : State) : (s.setX i v).env = s.env := rfl

/-! ### `setWork` -/

@[simp] theorem setWork_cfg (i : Nat) (v : F32) (s : State) : (s.setWork i v).cfg = s.cfg := rfl
@[simp] theorem setWork_mem (i : Nat) (v : F32) (s : State) : (s.setWork i v).mem = { s.mem with work := Cells.set (zeroFill 32) s.mem.work i v } := rfl
@[simp] theorem setWork_rb (i : Nat) (v : F32) (s : State) : (s.setWork i v).rb = s.rb := rfl
@[simp] theorem setWork_se (i : Nat) (v : F32) (s : State) : (s.setWork i v).se = s.se := rfl
@[simp] theorem setWork_fb (i : Nat) (v : F32) (s : State) : (s.setWork i v).fb = s.fb := rfl
@[simp] theorem setWork_blk (i : Nat) (v : F32) (s : State) : (s.setWork i v).blk = s.blk := rfl
@[simp] theorem setWork_env (i : Nat) (v : F32) (s : State) : (s.setWork i v).env = s.env := rfl

/-! ### `setPixel` -/

@[simp] theorem setPixel_cfg (p : PixelWrite) (s : State) : (s.setPixel p).cfg = s.cfg := rfl
@[simp] theorem setPixel_mem (p : PixelWrite) (s : State) : (s.setPixel p).mem = { s.mem with pix := Cells.set (zeroFill 8) s.mem.pix (pixIndex s.cfg p.x p.y) p.c } := rfl
@[simp] theorem setPixel_rb (p : PixelWrite) (s : State) : (s.setPixel p).rb = s.rb := rfl
@[simp] theorem setPixel_se (p : PixelWrite) (s : State) : (s.setPixel p).se = s.se := rfl
@[simp] theorem setPixel_fb (p : PixelWrite) (s : State) : (s.setPixel p).fb = s.fb := rfl
@[simp] theorem setPixel_blk (p : PixelWrite) (s : State) : (s.setPixel p).blk = s.blk := rfl
@[simp] theorem setPixel_env (p : PixelWrite) (s : State) : (s.setPixel p).env = s.env := rfl

/-! ### `setLine` -/

@[simp] theorem setLine_cfg (j : Nat) (b : Byte) (s : State) : (s.setLine j b).cfg = s.cfg := rfl
@[simp] theorem setLine_mem (j : Nat) (b : Byte) (s : State) : (s.setLine j b).mem = { s.mem with line := Cells.set (unspecified 8) s.mem.line j b } := rfl
@[simp] theorem setLine_rb (j : Nat) (b : Byte) (s : State) : (s.setLine j b).rb = s.rb := rfl
@[simp] theorem setLine_se (j : Nat) (b : Byte) (s : State) : (s.setLine j b).se = s.se := rfl
@[simp] theorem setLine_fb (j : Nat) (b : Byte) (s : State) : (s.setLine j b).fb = s.fb := rfl
@[simp] theorem setLine_blk (j : Nat) (b : Byte) (s : State) : (s.setLine j b).blk = s.blk := rfl
@[simp] theorem setLine_env (j : Nat) (b : Byte) (s : State) : (s.setLine j b).env = s.env := rfl

/-! ### `onAgents` -/

@[simp] theorem onAgents_cfg (f : Agent → Agent) (s : State) : (s.onAgents f).cfg = s.cfg := rfl
@[simp] theorem onAgents_mem (f : Agent → Agent) (s : State) : (s.onAgents f).mem = s.mem := rfl
@[simp] theorem onAgents_rb (f : Agent → Agent) (s : State) : (s.onAgents f).rb = s.rb := rfl
@[simp] theorem onAgents_se (f : Agent → Agent) (s : State) : (s.onAgents f).se = s.se := rfl
@[simp] theorem onAgents_fb (f : Agent → Agent) (s : State) : (s.onAgents f).fb = s.fb := rfl
@[simp] theorem onAgents_blk (f : Agent → Agent) (s : State) : (s.onAgents f).blk = s.blk := rfl
@[simp] theorem onAgents_env (f : Agent → Agent) (s : State) : (s.onAgents f).env = { s.env with agents := s.env.agents.map f } := rfl

/-! ### `onAgent` -/

@[simp] theorem onAgent_cfg (t : Nat) (f : Agent → Agent) (s : State) : (s.onAgent t f).cfg = s.cfg := rfl
@[simp] theorem onAgent_mem (t : Nat) (f : Agent → Agent) (s : State) : (s.onAgent t f).mem = s.mem := rfl
@[simp] theorem onAgent_rb (t : Nat) (f : Agent → Agent) (s : State) : (s.onAgent t f).rb = s.rb := rfl
@[simp] theorem onAgent_se (t : Nat) (f : Agent → Agent) (s : State) : (s.onAgent t f).se = s.se := rfl
@[simp] theorem onAgent_fb (t : Nat) (f : Agent → Agent) (s : State) : (s.onAgent t f).fb = s.fb := rfl
@[simp] theorem onAgent_blk (t : Nat) (f : Agent → Agent) (s : State) : (s.onAgent t f).blk = s.blk := rfl
@[simp] theorem onAgent_env (t : Nat) (f : Agent → Agent) (s : State) : (s.onAgent t f).env = { s.env with agents := s.env.agents.modify t f } := rfl

/-! ### `respond` -/

@[simp] theorem respond_cfg (r : Response) (s : State) : (s.respond r).cfg = s.cfg := rfl
@[simp] theorem respond_mem (r : Response) (s : State) : (s.respond r).mem = s.mem := rfl
@[simp] theorem respond_rb (r : Response) (s : State) : (s.respond r).rb = s.rb := rfl
@[simp] theorem respond_se (r : Response) (s : State) : (s.respond r).se = s.se := rfl
@[simp] theorem respond_fb (r : Response) (s : State) : (s.respond r).fb = s.fb := rfl
@[simp] theorem respond_blk (r : Response) (s : State) : (s.respond r).blk = s.blk := rfl
@[simp] theorem respond_env (r : Response) (s : State) : (s.respond r).env = { s.env with agents := s.env.agents.modify s.env.issuer (Agent.answer r) } := rfl

/-! ### `beginWork` -/

@[simp] theorem beginWork_cfg (w : Work) (s : State) : (s.beginWork w).cfg = s.cfg := rfl
@[simp] theorem beginWork_mem (w : Work) (s : State) : (s.beginWork w).mem = s.mem := rfl
@[simp] theorem beginWork_rb (w : Work) (s : State) : (s.beginWork w).rb = s.rb := rfl
@[simp] theorem beginWork_se (w : Work) (s : State) : (s.beginWork w).se = s.se := rfl
@[simp] theorem beginWork_fb (w : Work) (s : State) : (s.beginWork w).fb = s.fb := rfl
@[simp] theorem beginWork_blk (w : Work) (s : State) : (s.beginWork w).blk = s.blk := rfl
@[simp] theorem beginWork_env (w : Work) (s : State) : (s.beginWork w).env = { s.env with agents := s.env.agents.modify s.env.issuer (Agent.begin w) } := rfl

/-! ### `hold` -/

@[simp] theorem hold_cfg (s : State) : (s.hold).cfg = s.cfg := rfl
@[simp] theorem hold_mem (s : State) : (s.hold).mem = s.mem := rfl
@[simp] theorem hold_rb (s : State) : (s.hold).rb = s.rb := rfl
@[simp] theorem hold_se (s : State) : (s.hold).se = s.se := rfl
@[simp] theorem hold_fb (s : State) : (s.hold).fb = s.fb := rfl
@[simp] theorem hold_blk (s : State) : (s.hold).blk = s.blk := rfl
@[simp] theorem hold_env (s : State) : (s.hold).env = { s.env with agents := s.env.agents.modify s.env.issuer Agent.wait } := rfl

/-! ### `respondErr` -/

@[simp] theorem respondErr_cfg (s : State) : (s.respondErr).cfg = s.cfg := rfl
@[simp] theorem respondErr_mem (s : State) : (s.respondErr).mem = s.mem := rfl
@[simp] theorem respondErr_rb (s : State) : (s.respondErr).rb = s.rb := rfl
@[simp] theorem respondErr_se (s : State) : (s.respondErr).se = s.se := rfl
@[simp] theorem respondErr_fb (s : State) : (s.respondErr).fb = s.fb := rfl
@[simp] theorem respondErr_blk (s : State) : (s.respondErr).blk = s.blk := rfl
@[simp] theorem respondErr_env (s : State) : (s.respondErr).env = { s.env with agents := s.env.agents.modify s.env.issuer (Agent.answer (.err (errWord s.blk.fcmd s.blk.fcode))) } := rfl

/-! ### `raiseFault` -/

@[simp] theorem raiseFault_cfg (w : CmdWord) (code : FaultCode) (s : State) : (s.raiseFault w code).cfg = s.cfg := rfl
@[simp] theorem raiseFault_mem (w : CmdWord) (code : FaultCode) (s : State) : (s.raiseFault w code).mem = s.mem := rfl
@[simp] theorem raiseFault_rb (w : CmdWord) (code : FaultCode) (s : State) : (s.raiseFault w code).rb = s.rb := rfl
@[simp] theorem raiseFault_se (w : CmdWord) (code : FaultCode) (s : State) : (s.raiseFault w code).se = s.se := rfl
@[simp] theorem raiseFault_fb (w : CmdWord) (code : FaultCode) (s : State) : (s.raiseFault w code).fb = s.fb := rfl
@[simp] theorem raiseFault_blk (w : CmdWord) (code : FaultCode) (s : State) : (s.raiseFault w code).blk = { faulted := true, fcode := code.bits, fcmd := w } := rfl
@[simp] theorem raiseFault_env (w : CmdWord) (code : FaultCode) (s : State) : (s.raiseFault w code).env = { s.env with agents := ((s.env.agents.modify s.env.issuer (Agent.answer (.err (errWord w code.bits)))).map (Agent.closeWork (errWord w code.bits))).map (Agent.closeHeld (errWord w code.bits)) } := rfl

/-! ### `appendElem` -/

@[simp] theorem appendElem_cfg (v : Elem) (s : State) : (s.appendElem v).cfg = s.cfg := rfl
@[simp] theorem appendElem_mem (v : Elem) (s : State) : (s.appendElem v).mem = { s.mem with rbData := Cells.set (unspecified 64) s.mem.rbData s.rb.wr v } := rfl
@[simp] theorem appendElem_rb (v : Elem) (s : State) : (s.appendElem v).rb = s.rb.append (rbParams s.cfg) := rfl
@[simp] theorem appendElem_se (v : Elem) (s : State) : (s.appendElem v).se = s.se := rfl
@[simp] theorem appendElem_fb (v : Elem) (s : State) : (s.appendElem v).fb = s.fb := rfl
@[simp] theorem appendElem_blk (v : Elem) (s : State) : (s.appendElem v).blk = s.blk := rfl
@[simp] theorem appendElem_env (v : Elem) (s : State) : (s.appendElem v).env = s.env := rfl

/-! ### `stage` -/

@[simp] theorem stage_cfg (e : Elem) (s : State) : (s.stage e).cfg = s.cfg := rfl
@[simp] theorem stage_mem (e : Elem) (s : State) : (s.stage e).mem = { s.mem with stgData := Cells.set (unspecified 64) s.mem.stgData s.se.stg.wr e } := rfl
@[simp] theorem stage_rb (e : Elem) (s : State) : (s.stage e).rb = s.rb := rfl
@[simp] theorem stage_se (e : Elem) (s : State) : (s.stage e).se = { s.se with stg := s.se.stg.append (stgParams s.cfg) } := rfl
@[simp] theorem stage_fb (e : Elem) (s : State) : (s.stage e).fb = s.fb := rfl
@[simp] theorem stage_blk (e : Elem) (s : State) : (s.stage e).blk = s.blk := rfl
@[simp] theorem stage_env (e : Elem) (s : State) : (s.stage e).env = s.env := rfl

/-! ### `useNaNs` -/

@[simp] theorem useNaNs_cfg (n : Nat) (s : State) : (s.useNaNs n).cfg = s.cfg := rfl
@[simp] theorem useNaNs_mem (n : Nat) (s : State) : (s.useNaNs n).mem = s.mem := rfl
@[simp] theorem useNaNs_rb (n : Nat) (s : State) : (s.useNaNs n).rb = s.rb := rfl
@[simp] theorem useNaNs_se (n : Nat) (s : State) : (s.useNaNs n).se = s.se := rfl
@[simp] theorem useNaNs_fb (n : Nat) (s : State) : (s.useNaNs n).fb = s.fb := rfl
@[simp] theorem useNaNs_blk (n : Nat) (s : State) : (s.useNaNs n).blk = s.blk := rfl
@[simp] theorem useNaNs_env (n : Nat) (s : State) : (s.useNaNs n).env = { s.env with nanDraws := s.env.nanDraws + n } := rfl

/-! ### `startFrame` -/

@[simp] theorem startFrame_cfg (s : State) : (s.startFrame).cfg = s.cfg := rfl
@[simp] theorem startFrame_mem (s : State) : (s.startFrame).mem = s.mem := rfl
@[simp] theorem startFrame_rb (s : State) : (s.startFrame).rb = s.rb := rfl
@[simp] theorem startFrame_se (s : State) : (s.startFrame).se = s.se := rfl
@[simp] theorem startFrame_fb (s : State) : (s.startFrame).fb = { s.fb with st := .tx, cur := 0, xp := 0, ls := .convert } := rfl
@[simp] theorem startFrame_blk (s : State) : (s.startFrame).blk = s.blk := rfl
@[simp] theorem startFrame_env (s : State) : (s.startFrame).env = s.env := rfl

/-! ### `sendLine` -/

@[simp] theorem sendLine_cfg (s : State) : (s.sendLine).cfg = s.cfg := rfl
@[simp] theorem sendLine_mem (s : State) : (s.sendLine).mem = s.mem := rfl
@[simp] theorem sendLine_rb (s : State) : (s.sendLine).rb = s.rb := rfl
@[simp] theorem sendLine_se (s : State) : (s.sendLine).se = s.se := rfl
@[simp] theorem sendLine_fb (s : State) : (s.sendLine).fb = { s.fb with ls := .wait } := rfl
@[simp] theorem sendLine_blk (s : State) : (s.sendLine).blk = s.blk := rfl
@[simp] theorem sendLine_env (s : State) : (s.sendLine).env = { s.env with sent := s.env.sent ++ [s.lineBytes] } := rfl

/-! ### `endFrame` -/

@[simp] theorem endFrame_cfg (s : State) : (s.endFrame).cfg = s.cfg := rfl
@[simp] theorem endFrame_mem (s : State) : (s.endFrame).mem = s.mem := rfl
@[simp] theorem endFrame_rb (s : State) : (s.endFrame).rb = s.rb := rfl
@[simp] theorem endFrame_se (s : State) : (s.endFrame).se = s.se := rfl
@[simp] theorem endFrame_fb (s : State) : (s.endFrame).fb = { s.fb with cur := 0, pend := false, st := if s.fb.pend then .treq else .idle } := rfl
@[simp] theorem endFrame_blk (s : State) : (s.endFrame).blk = s.blk := rfl
@[simp] theorem endFrame_env (s : State) : (s.endFrame).env = s.env := rfl

/-! ### `select` -/

@[simp] theorem select_cfg (t pick : Nat) (s : State) : (s.select t pick).cfg = s.cfg := rfl
@[simp] theorem select_mem (t pick : Nat) (s : State) : (s.select t pick).mem = s.mem := rfl
@[simp] theorem select_rb (t pick : Nat) (s : State) : (s.select t pick).rb = s.rb := rfl
@[simp] theorem select_se (t pick : Nat) (s : State) : (s.select t pick).se = s.se := rfl
@[simp] theorem select_fb (t pick : Nat) (s : State) : (s.select t pick).fb = s.fb := rfl
@[simp] theorem select_blk (t pick : Nat) (s : State) : (s.select t pick).blk = s.blk := rfl
@[simp] theorem select_env (t pick : Nat) (s : State) : (s.select t pick).env = { s.env with issuer := t, pick := pick } := rfl

/-! ### `load` -/

@[simp] theorem load_cfg (p : Packet) (s : State) : (s.load p).cfg = s.cfg := rfl
@[simp] theorem load_mem (p : Packet) (s : State) : (s.load p).mem = s.mem := rfl
@[simp] theorem load_rb (p : Packet) (s : State) : (s.load p).rb = s.rb := rfl
@[simp] theorem load_se (p : Packet) (s : State) : (s.load p).se = s.se := rfl
@[simp] theorem load_fb (p : Packet) (s : State) : (s.load p).fb = s.fb := rfl
@[simp] theorem load_blk (p : Packet) (s : State) : (s.load p).blk = s.blk := rfl
@[simp] theorem load_env (p : Packet) (s : State) : (s.load p).env = { s.env with agents := [Agent.ofPacket p], agenda := .issue 0 0 :: s.env.agenda } := rfl

/-! ### `setPal` -/

@[simp] theorem setPal_cfg (i : Nat) (col : Color) (s : State) : (s.setPal i col).cfg = s.cfg := by
  unfold State.setPal; split <;> rfl
@[simp] theorem setPal_rb (i : Nat) (col : Color) (s : State) : (s.setPal i col).rb = s.rb := by
  unfold State.setPal; split <;> rfl
@[simp] theorem setPal_se (i : Nat) (col : Color) (s : State) : (s.setPal i col).se = s.se := by
  unfold State.setPal; split <;> rfl
@[simp] theorem setPal_fb (i : Nat) (col : Color) (s : State) : (s.setPal i col).fb = s.fb := by
  unfold State.setPal; split <;> rfl
@[simp] theorem setPal_blk (i : Nat) (col : Color) (s : State) : (s.setPal i col).blk = s.blk := by
  unfold State.setPal; split <;> rfl
@[simp] theorem setPal_env (i : Nat) (col : Color) (s : State) : (s.setPal i col).env = s.env := by
  unfold State.setPal; split <;> rfl
theorem setPal_mem (i : Nat) (col : Color) (s : State) (h : 2 ≤ i) :
    (s.setPal i col).mem = { s.mem with pal := Cells.set (zeroFill 16) s.mem.pal i col } := by
  unfold State.setPal; rw [if_neg (by omega)]

/-! ### `afterChoice` -/

@[simp] theorem afterChoice_cfg (s : State) : s.afterChoice.cfg = s.cfg := by
  unfold State.afterChoice; split <;> rfl
@[simp] theorem afterChoice_mem (s : State) : s.afterChoice.mem = s.mem := by
  unfold State.afterChoice; split <;> rfl
@[simp] theorem afterChoice_rb (s : State) : s.afterChoice.rb = s.rb := by
  unfold State.afterChoice; split <;> rfl
@[simp] theorem afterChoice_se (s : State) : s.afterChoice.se = s.se := by
  unfold State.afterChoice; split <;> rfl
@[simp] theorem afterChoice_fb (s : State) : s.afterChoice.fb = s.fb := by
  unfold State.afterChoice; split <;> rfl
@[simp] theorem afterChoice_blk (s : State) : s.afterChoice.blk = s.blk := by
  unfold State.afterChoice; split <;> rfl
@[simp] theorem afterChoice_env_agents (s : State) : s.afterChoice.env.agents = s.env.agents := by
  unfold State.afterChoice; split <;> rfl
@[simp] theorem afterChoice_env_issuer (s : State) : s.afterChoice.env.issuer = s.env.issuer := by
  unfold State.afterChoice; split <;> rfl
@[simp] theorem afterChoice_env_pick (s : State) : s.afterChoice.env.pick = s.env.pick := by
  unfold State.afterChoice; split <;> rfl
@[simp] theorem afterChoice_env_sent (s : State) : s.afterChoice.env.sent = s.env.sent := by
  unfold State.afterChoice; split <;> rfl
@[simp] theorem afterChoice_env_nanDraws (s : State) : s.afterChoice.env.nanDraws = s.env.nanDraws := by
  unfold State.afterChoice; split <;> rfl
@[simp] theorem afterChoice_env_resets (s : State) : s.afterChoice.env.resets = s.env.resets := by
  unfold State.afterChoice; split <;> rfl

/-! ### `withResets` -/

@[simp] theorem withResets_cfg (n : Nat) (s : State) : (s.withResets n).cfg = s.cfg := rfl
@[simp] theorem withResets_mem (n : Nat) (s : State) : (s.withResets n).mem = s.mem := rfl
@[simp] theorem withResets_rb (n : Nat) (s : State) : (s.withResets n).rb = s.rb := rfl
@[simp] theorem withResets_se (n : Nat) (s : State) : (s.withResets n).se = s.se := rfl
@[simp] theorem withResets_fb (n : Nat) (s : State) : (s.withResets n).fb = s.fb := rfl
@[simp] theorem withResets_blk (n : Nat) (s : State) : (s.withResets n).blk = s.blk := rfl
@[simp] theorem withResets_env (n : Nat) (s : State) : (s.withResets n).env = { s.env with resets := n } := rfl

/-! ### `hardReset` -/

@[simp] theorem hardReset_cfg (s : State) : s.hardReset.cfg = s.cfg := rfl
@[simp] theorem hardReset_mem (s : State) : s.hardReset.mem = Memory.reset := rfl
@[simp] theorem hardReset_rb (s : State) : s.hardReset.rb = Ring.reset s.cfg.rbR := rfl
@[simp] theorem hardReset_se (s : State) : s.hardReset.se = SpectralRegs.reset := rfl
@[simp] theorem hardReset_fb (s : State) : s.hardReset.fb = DisplayRegs.reset := rfl
@[simp] theorem hardReset_blk (s : State) : s.hardReset.blk = FaultRecord.reset := rfl

end Sys2Proof.Machine.State
end

