-- ==== Sys2Proof/Laws/Cells.lean ====
section
/-! SUPPORT. The laws of the storage arrays: a read after a write, the other elements left alone, the canonical form and
the index range kept by every write (R22, R100, R101). -/

namespace Sys2Proof.Machine

section
variable {α : Type}

@[simp] theorem Cells.find?_nil (i : Nat) : Cells.find? ([] : Cells α) i = none := rfl

@[simp] theorem Cells.find?_cons (j : Nat) (v : α) (m : Cells α) (i : Nat) :
    Cells.find? ((j, v) :: m) i = if j = i then some v else Cells.find? m i := rfl

@[simp] theorem Cells.find?_put_same (m : Cells α) (i : Nat) (v : α) : Cells.find? (Cells.put m i v) i = some v := by
  induction m with
  | nil => simp [Cells.put]
  | cons e m ih =>
    obtain ⟨j, u⟩ := e
    unfold Cells.put
    split
    · simp
    · split
      · simp
      · rw [Cells.find?_cons, if_neg (by omega), ih]

theorem Cells.find?_put_other (m : Cells α) {i k : Nat} (v : α) (h : k ≠ i) :
    Cells.find? (Cells.put m i v) k = Cells.find? m k := by
  induction m with
  | nil => simp [Cells.put, h.symm]
  | cons e m ih =>
    obtain ⟨j, u⟩ := e
    unfold Cells.put
    split
    · rw [Cells.find?_cons, if_neg h.symm]
    · split
      · subst i; rw [Cells.find?_cons, if_neg h.symm, Cells.find?_cons, if_neg h.symm]
      · simp [ih]

@[simp] theorem Cells.find?_remove_same (m : Cells α) (i : Nat) : Cells.find? (Cells.remove m i) i = none := by
  induction m with
  | nil => rfl
  | cons e m ih =>
    obtain ⟨j, u⟩ := e
    unfold Cells.remove at ih ⊢
    by_cases h : j = i
    · rw [List.filter_cons_of_neg (by simp [h])]; exact ih
    · rw [List.filter_cons_of_pos (by simp [h]), Cells.find?_cons, if_neg h]; exact ih

theorem Cells.find?_remove_other (m : Cells α) {i k : Nat} (h : k ≠ i) :
    Cells.find? (Cells.remove m i) k = Cells.find? m k := by
  induction m with
  | nil => rfl
  | cons e m ih =>
    obtain ⟨j, u⟩ := e
    unfold Cells.remove at ih ⊢
    by_cases hj : j = i
    · rw [List.filter_cons_of_neg (by simp [hj]), Cells.find?_cons, if_neg (by omega)]; exact ih
    · rw [List.filter_cons_of_pos (by simp [hj]), Cells.find?_cons, Cells.find?_cons, ih]

/-! ## Read after write -/

@[simp] theorem Cells.get_set_same [DecidableEq α] (d : Option α) (m : Cells α) (i : Nat) (v : α) :
    Cells.get d (Cells.set d m i v) i = some v := by
  unfold Cells.set
  split <;> simp [Cells.get, *]

theorem Cells.get_set_other [DecidableEq α] (d : Option α) (m : Cells α) {i k : Nat} (v : α) (h : k ≠ i) :
    Cells.get d (Cells.set d m i v) k = Cells.get d m k := by
  unfold Cells.set
  split <;> simp only [Cells.get, Cells.find?_remove_other _ h, Cells.find?_put_other _ _ h]

theorem Cells.get_set [DecidableEq α] (d : Option α) (m : Cells α) (i k : Nat) (v : α) :
    Cells.get d (Cells.set d m i v) k = if k = i then some v else Cells.get d m k := by
  split
  · subst k; simp
  · exact Cells.get_set_other d m v ‹_›

@[simp] theorem Cells.get_nil (d : Option α) (i : Nat) : Cells.get d ([] : Cells α) i = d := rfl

theorem Cells.find?_set_none [DecidableEq α] (m : Cells α) (i k : Nat) (v : α) :
    Cells.find? (Cells.set none m i v) k = if k = i then some v else Cells.find? m k := by
  unfold Cells.set
  rw [if_neg (by simp)]
  split
  · subst k; simp
  · exact Cells.find?_put_other m v ‹_›

/-! ## Canonical form -/

theorem Cells.risingFrom_mono {lo lo' : Nat} (h : lo' ≤ lo) (m : Cells α) (hm : Cells.risingFrom lo m = true) :
    Cells.risingFrom lo' m = true := by
  cases m with
  | nil => rfl
  | cons e m =>
    obtain ⟨j, u⟩ := e
    simp only [Cells.risingFrom, Bool.and_eq_true, decide_eq_true_eq] at hm ⊢
    exact ⟨by omega, hm.2⟩

theorem Cells.risingFrom_put {lo : Nat} (m : Cells α) (i : Nat) (v : α) (hi : lo ≤ i)
    (hm : Cells.risingFrom lo m = true) : Cells.risingFrom lo (Cells.put m i v) = true := by
  induction m generalizing lo with
  | nil => simp [Cells.put, Cells.risingFrom, hi]
  | cons e m ih =>
    obtain ⟨j, u⟩ := e
    simp only [Cells.risingFrom, Bool.and_eq_true, decide_eq_true_eq] at hm
    unfold Cells.put
    split
    · simp only [Cells.risingFrom, Bool.and_eq_true, decide_eq_true_eq]
      exact ⟨hi, by omega, hm.2⟩
    · split
      · subst i
        simp only [Cells.risingFrom, Bool.and_eq_true, decide_eq_true_eq]
        exact hm
      · simp only [Cells.risingFrom, Bool.and_eq_true, decide_eq_true_eq]
        exact ⟨hm.1, ih (by omega) hm.2⟩

theorem Cells.risingFrom_filter {lo : Nat} (m : Cells α) (p : Nat × α → Bool) (hm : Cells.risingFrom lo m = true) :
    Cells.risingFrom lo (m.filter p) = true := by
  induction m generalizing lo with
  | nil => rfl
  | cons e m ih =>
    obtain ⟨j, u⟩ := e
    simp only [Cells.risingFrom, Bool.and_eq_true, decide_eq_true_eq] at hm
    by_cases h : p (j, u) = true
    · rw [List.filter_cons_of_pos h]
      simp only [Cells.risingFrom, Bool.and_eq_true, decide_eq_true_eq]
      exact ⟨hm.1, ih hm.2⟩
    · rw [List.filter_cons_of_neg h]
      exact ih (Cells.risingFrom_mono (by omega) _ hm.2)

/-- Every element of `put` is the new one or an old one. -/
theorem Cells.mem_put {m : Cells α} {i : Nat} {v : α} {e : Nat × α} (h : e ∈ Cells.put m i v) : e = (i, v) ∨ e ∈ m := by
  induction m with
  | nil => simpa [Cells.put] using h
  | cons a m ih =>
    obtain ⟨j, u⟩ := a
    unfold Cells.put at h
    split at h
    · simpa using h
    · split at h
      · rcases List.mem_cons.1 h with h | h
        · exact .inl h
        · exact .inr (List.mem_cons_of_mem _ h)
      · rcases List.mem_cons.1 h with h | h
        · exact .inr (by simp [h])
        · rcases ih h with h | h
          · exact .inl h
          · exact .inr (List.mem_cons_of_mem _ h)

/-- Every element of a written array is the new one or an old one. -/
theorem Cells.mem_set [DecidableEq α] {d : Option α} {m : Cells α} {i : Nat} {v : α} {e : Nat × α}
    (h : e ∈ Cells.set d m i v) : e = (i, v) ∨ e ∈ m := by
  unfold Cells.set at h
  split at h
  · exact .inr (List.mem_of_mem_filter h)
  · exact Cells.mem_put h

theorem Cells.wf_set [DecidableEq α] {d : Option α} {m : Cells α} (i : Nat) (v : α) (hm : Cells.wf d m = true) :
    Cells.wf d (Cells.set d m i v) = true := by
  simp only [Cells.wf, Bool.and_eq_true, List.all_eq_true, decide_eq_true_eq] at hm ⊢
  refine ⟨?_, ?_⟩
  · unfold Cells.set
    split
    · exact Cells.risingFrom_filter _ _ hm.1
    · exact Cells.risingFrom_put _ _ _ (Nat.zero_le _) hm.1
  · intro e he
    unfold Cells.set at he
    split at he
    · exact hm.2 e (List.mem_of_mem_filter he)
    · rcases Cells.mem_put he with rfl | he
      · assumption
      · exact hm.2 e he

theorem Cells.below_set [DecidableEq α] {d : Option α} {m : Cells α} {n i : Nat} (v : α) (hi : i < n)
    (hm : Cells.below n m = true) : Cells.below n (Cells.set d m i v) = true := by
  simp only [Cells.below, List.all_eq_true, decide_eq_true_eq] at hm ⊢
  intro e he
  rcases Cells.mem_set he with rfl | he
  · exact hi
  · exact hm e he

end

/-! ## Every write of the machine keeps the canonical form -/

section
variable (s : State)

theorem State.setRbElem_wf (i : Nat) (v : Elem) (h : s.mem.wf = true) : (s.setRbElem i v).mem.wf = true := by
  simp only [Memory.wf, Bool.and_eq_true, State.setRbElem_mem] at h ⊢
  simp only [h, Cells.wf_set i v, and_self]

theorem State.setStgElem_wf (i : Nat) (v : Elem) (h : s.mem.wf = true) : (s.setStgElem i v).mem.wf = true := by
  simp only [Memory.wf, Bool.and_eq_true, State.setStgElem_mem] at h ⊢
  simp only [h, Cells.wf_set i v, and_self]

theorem State.setX_wf (i : Nat) (v : F32) (h : s.mem.wf = true) : (s.setX i v).mem.wf = true := by
  simp only [Memory.wf, Bool.and_eq_true, State.setX_mem] at h ⊢
  simp only [h, Cells.wf_set i v, and_self]

theorem State.setWork_wf (i : Nat) (v : F32) (h : s.mem.wf = true) : (s.setWork i v).mem.wf = true := by
  simp only [Memory.wf, Bool.and_eq_true, State.setWork_mem] at h ⊢
  simp only [h, Cells.wf_set i v, and_self]

theorem State.setPixel_wf (p : PixelWrite) (h : s.mem.wf = true) : (s.setPixel p).mem.wf = true := by
  simp only [Memory.wf, Bool.and_eq_true, State.setPixel_mem] at h ⊢
  simp only [h, Cells.wf_set _ p.c, and_self]

theorem State.setPal_wf (i : Nat) (col : Color) (h : s.mem.wf = true) : (s.setPal i col).mem.wf = true := by
  unfold State.setPal
  split
  · exact h
  · simp only [Memory.wf, Bool.and_eq_true] at h ⊢
    simp only [h, Cells.wf_set i col, and_self]

theorem State.setLine_wf (j : Nat) (b : Byte) (h : s.mem.wf = true) : (s.setLine j b).mem.wf = true := by
  simp only [Memory.wf, Bool.and_eq_true, State.setLine_mem] at h ⊢
  simp only [h, Cells.wf_set j b, and_self]

/-- The memory of reset has the canonical form, and no listed index. -/
theorem Memory.reset_wf : Memory.reset.wf = true := by decide

theorem Memory.reset_inRange (c : Config) : Memory.reset.inRange c = true := by
  simp [Memory.inRange, Memory.reset, Cells.below]

end

end Sys2Proof.Machine
end

