-- ==== Sys2Proof/Laws/Ops.lean ====
section
/-! SUPPORT. What each shared operation can do, said once: element reads after each write, command entry (R344), the rings
(R184 to R186), the counted loops, the pixel steps (R282) and the moves. -/

namespace Sys2Proof.Machine

/-! ## Element reads after writes -/

section
variable (s : State)

theorem State.rbElem_setRbElem (i j : Nat) (v : Elem) :
    (s.setRbElem i v).rbElem j = if j = i then v else s.rbElem j := by
  simp only [State.rbElem, State.setRbElem_mem, State.setRbElem_env, State.setRbElem_cfg, Cells.get_set]
  split <;> rfl

theorem State.stgElem_setStgElem (i j : Nat) (v : Elem) :
    (s.setStgElem i v).stgElem j = if j = i then v else s.stgElem j := by
  simp only [State.stgElem, State.setStgElem_mem, State.setStgElem_env, Cells.get_set]
  split <;> rfl

theorem State.xElem_setX (i j : Nat) (v : F32) : (s.setX i v).xElem j = if j = i then v else s.xElem j := by
  simp only [State.xElem, State.setX_mem, Cells.get_set]
  split <;> rfl

theorem State.workElem_setWork (i j : Nat) (v : F32) :
    (s.setWork i v).workElem j = if j = i then v else s.workElem j := by
  simp only [State.workElem, State.setWork_mem, Cells.get_set]
  split <;> rfl

theorem readPix_set (pix : Cells Byte) (a b : Nat) (c : Byte) :
    readPix (Cells.set (zeroFill 8) pix a c) b = if b = a then c else readPix pix b := by
  simp only [readPix, Cells.get_set]
  split <;> rfl

theorem State.lineByte_setLine (i j : Nat) (b : Byte) :
    (s.setLine i b).lineByte j = if j = i then b else s.lineByte j := by
  simp only [State.lineByte, State.setLine_mem, State.setLine_env, Cells.get_set]
  split <;> rfl

theorem State.palEntry_setPal (i j : Nat) (col : Color) (h : 2 ≤ i) :
    (s.setPal i col).palEntry j = if j = i then col else s.palEntry j := by
  simp only [State.palEntry, State.setPal_mem _ _ _ h, Cells.get_set]
  split_ifs <;> first | rfl | omega

/-! A slot that is written reads the same whatever reset left unspecified (R51, R60). -/

theorem Cells.get_of_written {α : Type} (d : Option α) {m : Cells α} {i : Nat} (h : Cells.find? m i ≠ none) :
    ∃ v, Cells.get d m i = some v := by
  obtain ⟨v, hv⟩ := Option.ne_none_iff_exists'.1 h
  exact ⟨v, by simp [Cells.get, hv]⟩

theorem State.rbElem_withResets {s : State} {i n : Nat} (h : Written s.mem.rbData i) :
    (s.withResets n).rbElem i = s.rbElem i := by
  obtain ⟨v, hv⟩ := Cells.get_of_written (unspecified 64) h
  simp [State.rbElem, hv]

theorem State.stgElem_withResets {s : State} {i n : Nat} (h : Written s.mem.stgData i) :
    (s.withResets n).stgElem i = s.stgElem i := by
  obtain ⟨v, hv⟩ := Cells.get_of_written (unspecified 64) h
  simp [State.stgElem, hv]

theorem State.lineByte_withResets {s : State} {i n : Nat} (h : Cells.find? s.mem.line i ≠ none) :
    (s.withResets n).lineByte i = s.lineByte i := by
  obtain ⟨v, hv⟩ := Cells.get_of_written (unspecified 8) h
  simp [State.lineByte, hv]

/-! Reads of the other arrays are unchanged. -/

@[simp] theorem State.xElem_setWork (i j : Nat) (v : F32) : (s.setWork i v).xElem j = s.xElem j := rfl
@[simp] theorem State.workElem_setX (i j : Nat) (v : F32) : (s.setX i v).workElem j = s.workElem j := rfl
@[simp] theorem State.stgElem_setX (i j : Nat) (v : F32) : (s.setX i v).stgElem j = s.stgElem j := rfl
@[simp] theorem State.stgElem_setWork (i j : Nat) (v : F32) : (s.setWork i v).stgElem j = s.stgElem j := rfl
@[simp] theorem State.winElem_setX (i n : Nat) (v : F32) : (s.setX i v).winElem n = s.winElem n := rfl
@[simp] theorem State.winElem_setWork (i n : Nat) (v : F32) : (s.setWork i v).winElem n = s.winElem n := rfl

/-- The framebuffer index determines the pixel (assumption 16). -/
theorem pixIndex_inj {c : Config} {x y x' y' : Nat} (hx : x < c.fbW) (hx' : x' < c.fbW)
    (h : pixIndex c x y = pixIndex c x' y') : x = x' ∧ y = y' := by
  unfold pixIndex at h
  have hw : 0 < c.fbW := by omega
  have hm : x = x' := by
    have := congrArg (· % c.fbW) h
    simpa [Nat.add_mod, Nat.mod_eq_of_lt hx, Nat.mod_eq_of_lt hx'] using this
  refine ⟨hm, ?_⟩
  have h2 : y * c.fbW = y' * c.fbW := by omega
  exact Nat.eq_of_mul_eq_mul_right hw h2

theorem pixIndex_lt {c : Config} {x y : Nat} (hx : x < c.fbW) (hy : y < c.fbH) :
    pixIndex c x y < c.fbW * c.fbH := by
  unfold pixIndex
  have h1 : (y + 1) * c.fbW ≤ c.fbH * c.fbW := Nat.mul_le_mul_right _ hy
  have h2 : (y + 1) * c.fbW = y * c.fbW + c.fbW := by ring
  rw [Nat.mul_comm c.fbW]; omega

end

/-! ## Command entry (R344) -/

section
variable {i : Instr} {s t : State} {rule : Result}

theorem accept_of_accepted (h : Accepted i s) : accept i s rule = rule := by
  obtain ⟨h1, h2, h3⟩ := h
  simp [accept, h1, h2, h3]

theorem accept_of_faulted (h : s.blk.faulted = true) : accept i s rule = .next s.respondErr := by
  simp [accept, h]

theorem accept_of_absent (h : s.blk.faulted = false) (hp : i.present s.cfg = false) :
    accept i s rule = .next (s.raiseFault i.word .illegalCommand) := by
  simp [accept, h, hp, raise]

theorem accept_of_held (h : s.blk.faulted = false) (hp : i.present s.cfg = true) (hh : heldIn i s = true) :
    accept i s rule = .next s.hold := by
  simp [accept, h, hp, hh]

/-- Everything command entry can do. -/
theorem accept_cases (h : accept i s rule = .next t) :
    (s.blk.faulted = true ∧ t = s.respondErr) ∨
    (s.blk.faulted = false ∧ i.present s.cfg = false ∧ t = s.raiseFault i.word .illegalCommand) ∨
    (s.blk.faulted = false ∧ i.present s.cfg = true ∧ heldIn i s = true ∧ t = s.hold) ∨
    (Accepted i s ∧ rule = .next t) := by
  unfold accept at h
  split at h
  · cases h; exact .inl ⟨‹_›, rfl⟩
  · split at h
    · cases h
      refine .inr (.inl ⟨?_, ?_, rfl⟩) <;> simp_all
    · split at h
      · cases h
        refine .inr (.inr (.inl ⟨?_, ?_, ‹_›, rfl⟩)) <;> simp_all
      · refine .inr (.inr (.inr ⟨⟨?_, ?_, ?_⟩, h⟩)) <;> simp_all

/-- `check_reader` (R181): the two faults, or the rule. -/
theorem checkReader_cases {r : Nat} (h : checkReader i r s rule = .next t) :
    (s.cfg.rbR ≤ r ∧ t = s.raiseFault i.word .badReader) ∨
    (r < s.cfg.rbR ∧ (s.rb.reader r).att = false ∧ t = s.raiseFault i.word .notAttached) ∨
    (r < s.cfg.rbR ∧ (s.rb.reader r).att = true ∧ rule = .next t) := by
  unfold checkReader at h
  split at h
  · cases h; exact .inl ⟨‹_›, rfl⟩
  · split at h
    · cases h
      refine .inr (.inl ⟨by omega, ?_, rfl⟩); simp_all
    · refine .inr (.inr ⟨by omega, ?_, h⟩); simp_all

theorem checkReader_of_attached {r : Nat} (h : r < s.cfg.rbR) (ha : (s.rb.reader r).att = true) :
    checkReader i r s rule = rule := by
  simp [checkReader, ha, Nat.not_le.2 h]

end

/-! ## Rings -/

section
variable (g : Ring) (r q : Nat)

@[simp] theorem Ring.onReader_wr (f : Reader → Reader) : (g.onReader r f).wr = g.wr := rfl

@[simp] theorem Ring.onReader_length (f : Reader → Reader) : (g.onReader r f).readers.length = g.readers.length := by
  simp [Ring.onReader]

theorem Ring.reader_onReader_same (f : Reader → Reader) (h : r < g.readers.length) :
    (g.onReader r f).reader r = f (g.reader r) := by
  simp [Ring.reader, Ring.onReader, h]

theorem Ring.reader_onReader_other (f : Reader → Reader) (h : q ≠ r) : (g.onReader r f).reader q = g.reader q := by
  simp only [Ring.reader, Ring.onReader, List.getD_eq_getElem?_getD, List.getElem?_modify]
  cases g.readers[q]? <;> simp [h.symm]

theorem Ring.reader_absent (h : g.readers.length ≤ r) : g.reader r = Reader.reset := by
  simp [Ring.reader, h]

theorem Ring.reader_mem (h : r < g.readers.length) : g.reader r ∈ g.readers := by
  simp [Ring.reader, h]

@[simp] theorem Reader.onAppend_reset (p : RingParams) : Reader.onAppend p Reader.reset = Reader.reset := rfl

@[simp] theorem Reader.onAppend_att (p : RingParams) (a : Reader) : (Reader.onAppend p a).att = a.att := by
  unfold Reader.onAppend; split_ifs <;> rfl

@[simp] theorem Reader.onAppend_br (p : RingParams) (a : Reader) : (Reader.onAppend p a).br = a.br := by
  unfold Reader.onAppend; split_ifs <;> rfl

theorem Reader.onAppend_cnt (p : RingParams) (a : Reader) :
    (Reader.onAppend p a).cnt = if a.att = true ∧ a.cnt < p.cap then a.cnt + 1 else a.cnt := by
  unfold Reader.onAppend; split_ifs <;> simp_all

@[simp] theorem Ring.append_wr (p : RingParams) : (g.append p).wr = (g.wr + 1) % p.cap := rfl

@[simp] theorem Ring.append_length (p : RingParams) : (g.append p).readers.length = g.readers.length := by
  simp [Ring.append]

theorem Ring.reader_append (p : RingParams) : (g.append p).reader r = Reader.onAppend p (g.reader r) := by
  simp only [Ring.reader, Ring.append, List.getD_eq_getElem?_getD, List.getElem?_map]
  cases g.readers[r]? <;> rfl

theorem Ring.reader_dropOldest_same (h : r < g.readers.length) :
    (g.dropOldest r).reader r = { g.reader r with cnt := (g.reader r).cnt - 1 } :=
  Ring.reader_onReader_same g r _ h

theorem Ring.reader_dropOldest_other (h : q ≠ r) : (g.dropOldest r).reader q = g.reader q :=
  Ring.reader_onReader_other g r q _ h

theorem satInc_lt {w c : Nat} (h : c < 2 ^ w) : satInc w c < 2 ^ w := by
  unfold satInc; split <;> omega

/-- The read position as a sum in the naturals, where the count is at most the capacity. -/
theorem Ring.readAddr_eq {cap : Nat} (hc : (g.reader r).cnt ≤ cap) :
    g.readAddr cap r = (g.wr + (cap - (g.reader r).cnt)) % cap := by
  unfold Ring.readAddr
  have h : ((g.wr : Int) - ((g.reader r).cnt : Int)) % (cap : Int)
      = ((g.wr + (cap - (g.reader r).cnt) : Nat) : Int) % (cap : Int) := by
    rw [Nat.cast_add, Nat.cast_sub hc]
    rw [show (g.wr : Int) + ((cap : Int) - ((g.reader r).cnt : Int))
      = ((g.wr : Int) - ((g.reader r).cnt : Int)) + (cap : Int) by ring]
    rw [Int.add_emod_right]
  rw [h, ← Int.natCast_mod, Int.toNat_natCast]

theorem Ring.readAddr_lt {cap : Nat} (h : 0 < cap) : g.readAddr cap r < cap := by
  unfold Ring.readAddr
  have h1 := Int.emod_lt_of_pos ((g.wr : Int) - ((g.reader r).cnt : Int)) (by omega : (0 : Int) < (cap : Int))
  have h2 := Int.emod_nonneg ((g.wr : Int) - ((g.reader r).cnt : Int)) (by omega : (cap : Int) ≠ 0)
  omega

end

/-! ### Rings keep their invariant -/

section
variable {p : RingParams} {n : Nat} {g : Ring}

theorem RingInv.append (h : RingInv p n g) : RingInv p n (g.append p) := by
  refine ⟨Nat.mod_lt _ (Nat.zero_lt_of_lt h.wr_lt), by simpa using h.ports, ?_⟩
  intro q hq
  obtain ⟨a, ha, rfl⟩ := List.mem_map.1 hq
  obtain ⟨h1, h2, h3, h4, h5⟩ := h.readers a ha
  constructor
  · rw [Reader.onAppend_cnt]; split <;> omega
  · rw [Reader.onAppend_cnt, Reader.onAppend_br]; split <;> omega
  · intro hf
    rw [Reader.onAppend_att] at hf
    have := h3 hf
    simpa [Reader.onAppend, hf] using this
  · intro hf
    unfold Reader.onAppend
    split_ifs <;> simp_all
  · unfold Reader.onAppend
    split_ifs
    · exact h5
    · exact satInc_lt h5
    · exact h5
    · exact h5

theorem RingInv.onReader (h : RingInv p n g) (r : Nat) (f : Reader → Reader)
    (hf : r < n → ReaderInv p (f (g.reader r))) : RingInv p n (g.onReader r f) := by
  refine ⟨h.wr_lt, by simpa using h.ports, ?_⟩
  intro q hq
  obtain ⟨k, hk, rfl⟩ := List.mem_iff_getElem.1 hq
  have hk' : k < g.readers.length := by simpa using hk
  by_cases hr : k = r
  · subst hr
    have := hf (h.ports ▸ hk')
    simpa [Ring.reader, Ring.onReader, hk'] using this
  · have := h.readers _ (List.getElem_mem hk')
    simpa [Ring.onReader, List.getElem_modify, Ne.symm hr] using this

theorem RingInv.reader (h : RingInv p n g) (r : Nat) : ReaderInv p (g.reader r) := by
  by_cases hr : r < g.readers.length
  · exact h.readers _ (Ring.reader_mem g r hr)
  · rw [Ring.reader_absent g r (by omega)]
    exact ⟨Nat.zero_le _, le_refl _, fun _ => ⟨rfl, rfl, rfl⟩, fun _ => rfl, Nat.pos_of_ne_zero (by simp)⟩

end

/-! ## Counted loops -/

section
variable (body : Nat → State → State) (s : State)

@[simp] theorem forUpTo_zero : forUpTo 0 body s = s := rfl

theorem forUpTo_succ (n : Nat) : forUpTo (n + 1) body s = body n (forUpTo n body s) := by
  simp [forUpTo, List.range_succ]

/-- What holds at the start and is carried by every pass holds at the end. -/
theorem forUpTo_induct {P : Nat → State → Prop} (n : Nat) (h0 : P 0 s)
    (hs : ∀ k t, k < n → P k t → P (k + 1) (body k t)) : P n (forUpTo n body s) := by
  induction n with
  | zero => exact h0
  | succ n ih =>
    rw [forUpTo_succ]
    exact hs n _ (Nat.lt_succ_self n) (ih fun k t hk => hs k t (by omega))

end

/-! ## Pixel steps (R282) -/

theorem takePixel_nil (pick : Nat) (s : State) : takePixel pick [] s = (s, []) := by
  simp [takePixel]

/-- With writes left, one of them is done. -/
theorem takePixel_cons (pick : Nat) (todo : List PixelWrite) (s : State) (h : todo ≠ []) :
    ∃ p ∈ todo, takePixel pick todo s = (s.setPixel p, todo.eraseIdx (pick % todo.length)) := by
  have hl : 0 < todo.length := List.length_pos_of_ne_nil h
  have hk : pick % todo.length < todo.length := Nat.mod_lt _ hl
  refine ⟨todo[pick % todo.length], List.getElem_mem hk, ?_⟩
  simp [takePixel, List.getElem?_eq_getElem hk]

theorem takePixel_rest (pick : Nat) (todo : List PixelWrite) (s : State) :
    ∀ p ∈ (takePixel pick todo s).2, p ∈ todo := by
  intro p hp
  unfold takePixel at hp
  split at hp
  · exact List.mem_of_mem_eraseIdx hp
  · simp at hp

/-- A drawing command with nothing to change is acknowledged at once. -/
theorem State.perform_unchanged {s : State} {plots : List Plot} (h : s.pixelWrites plots = []) :
    s.perform plots = s.respond .ack := by
  simp [State.perform, h, takePixel_nil]

/-- The pixels a drawing command writes lie in the framebuffer (R283). -/
theorem mem_changedPixels {c : Config} {pix f : Cells Byte} {p : PixelWrite} :
    p ∈ changedPixels c pix f ↔
      p.x < c.fbW ∧ p.y < c.fbH ∧ p.c = readPix f (pixIndex c p.x p.y) ∧
        readPix f (pixIndex c p.x p.y) ≠ readPix pix (pixIndex c p.x p.y) := by
  simp only [changedPixels, List.mem_flatMap, List.mem_filterMap, List.mem_range]
  constructor
  · rintro ⟨y, hy, x, hx, h⟩
    split at h
    · cases h
    · cases h; exact ⟨hx, hy, rfl, ‹_›⟩
  · rintro ⟨hx, hy, hc, hne⟩
    refine ⟨p.y, hy, p.x, hx, ?_⟩
    rw [if_neg hne, ← hc]

/-! ## Moves -/

/-- Everything a step can do. -/
theorem step_cases {s t : State} (h : step s = .next t) :
    s.cfg.valid = true ∧ s.owned = true ∧ runMove s.nextMove s.afterChoice = .next t := by
  unfold step at h
  split at h
  · cases h
  · split at h
    · cases h
    · simp_all

theorem step_of_valid {s : State} (h1 : s.cfg.valid = true) (h2 : s.owned = true) :
    step s = runMove s.nextMove s.afterChoice := by
  simp [step, h1, h2]

theorem fetch_some {s : State} {t : Nat} {p : Packet} (h : s.fetch t = some p) :
    ∃ a, s.env.agents[t]? = some a ∧ a.script[a.pos]? = some p ∧ (a.work = .idle ∨ s.wordHeld p.word = true) := by
  unfold State.fetch at h
  split at h
  · cases h
  · split at h
    · cases h
    · split at h
      · cases h; exact ⟨_, ‹_›, ‹_›, ‹_›⟩
      · cases h

theorem issue_cases {s t : State} {p : Packet} (h : issue p s = .next t) :
    (s.blk.faulted = true ∧ t = s.respondErr) ∨
    (s.blk.faulted = false ∧ ∃ why, decode s.cfg p = .illegal why ∧ t = s.rejectWord p.word) ∨
    (s.blk.faulted = false ∧ ∃ i, decode s.cfg p = .instr i ∧ exec i s = .next t) := by
  unfold issue at h
  split at h
  · cases h; exact .inl ⟨‹_›, rfl⟩
  · split at h
    · cases h; refine .inr (.inl ⟨?_, _, ‹_›, rfl⟩); simp_all
    · refine .inr (.inr ⟨?_, _, ‹_›, h⟩); simp_all

end Sys2Proof.Machine
end

