-- ==== Sys2Proof/Laws/Agents.lean ====
section
/-! SUPPORT. What each operation on the agents does to each of them: answering, holding, beginning, fault entry (R344,
R346), the beat (R196), the pixel step (R282) and reset (R383). -/

namespace Sys2Proof.Machine

section
variable (s : State) (j t : Nat)

theorem State.agents_onAgent (f : Agent → Agent) :
    (s.onAgent t f).env.agents[j]? = if t = j then s.env.agents[j]?.map f else s.env.agents[j]? := by
  simp only [State.onAgent, List.getElem?_modify]
  split_ifs <;> simp [*]

theorem State.agents_onAgents (f : Agent → Agent) : (s.onAgents f).env.agents[j]? = s.env.agents[j]?.map f := by
  simp [State.onAgents]

theorem State.agents_respond (r : Response) :
    (s.respond r).env.agents[j]? =
      if s.env.issuer = j then s.env.agents[j]?.map (Agent.answer r) else s.env.agents[j]? :=
  s.agents_onAgent j _ _

theorem State.agents_beginWork (w : Work) :
    (s.beginWork w).env.agents[j]? =
      if s.env.issuer = j then s.env.agents[j]?.map (Agent.begin w) else s.env.agents[j]? :=
  s.agents_onAgent j _ _

theorem State.agents_hold :
    s.hold.env.agents[j]? = if s.env.issuer = j then s.env.agents[j]?.map Agent.wait else s.env.agents[j]? :=
  s.agents_onAgent j _ _

/-- Fault entry, agent by agent. -/
theorem State.agents_raiseFault (w : CmdWord) (code : FaultCode) :
    (s.raiseFault w code).env.agents[j]? =
      (if s.env.issuer = j then s.env.agents[j]?.map (Agent.answer (.err (errWord w code.bits)))
        else s.env.agents[j]?).map
        fun a => (a.closeWork (errWord w code.bits)).closeHeld (errWord w code.bits) := by
  simp only [State.raiseFault, State.agents_onAgents, Option.map_map]
  rw [State.agents_respond]
  rfl

/-- The beat, agent by agent. -/
theorem State.agents_beat (r : Nat) (h : s.beatEnabled r = true) :
    (s.beat r).env.agents[j]? =
      s.env.agents[j]?.map (Agent.deliver r (s.oldest r) (decide ((s.rb.reader r).br = 1))) := by
  simp [State.beat, h, State.onAgents]

theorem State.agents_hardReset : s.hardReset.env.agents[j]? = s.env.agents[j]?.map Agent.restart := by
  simp [State.hardReset]

end

/-! ### One agent -/

section
variable (a : Agent) (e : BitVec 24)

@[simp] theorem Agent.closeWork_work : (a.closeWork e).work = .idle := by
  unfold Agent.closeWork; split <;> first | assumption | rfl

@[simp] theorem Agent.closeWork_held : (a.closeWork e).held = a.held := by
  unfold Agent.closeWork; split <;> rfl

@[simp] theorem Agent.closeWork_pos : (a.closeWork e).pos = a.pos := by
  unfold Agent.closeWork; split <;> rfl

@[simp] theorem Agent.closeWork_script : (a.closeWork e).script = a.script := by
  unfold Agent.closeWork; split <;> rfl

theorem Agent.closeWork_of_idle (h : a.work = .idle) : a.closeWork e = a := by
  simp [Agent.closeWork, h]

@[simp] theorem Agent.closeHeld_held : (a.closeHeld e).held = false := by
  unfold Agent.closeHeld; split
  · rfl
  · simp_all

@[simp] theorem Agent.closeHeld_work : (a.closeHeld e).work = a.work := by
  unfold Agent.closeHeld; split <;> rfl

@[simp] theorem Agent.closeHeld_script : (a.closeHeld e).script = a.script := by
  unfold Agent.closeHeld; split <;> rfl

theorem Agent.closeHeld_of_not_held (h : a.held = false) : a.closeHeld e = a := by
  simp [Agent.closeHeld, h]

@[simp] theorem Agent.deliver_script (r : Nat) (v : Elem) (last : Bool) : (a.deliver r v last).script = a.script := by
  unfold Agent.deliver; split <;> (try split_ifs) <;> rfl

theorem Agent.deliver_of_burst {r k : Nat} {vs : List Elem} (v : Elem) (last : Bool) (h : a.work = .burst r k vs) :
    a.deliver r v last =
      if last then { a with work := .idle, inbox := a.inbox ++ [.burst k (vs ++ [v])] }
      else { a with work := .burst r k (vs ++ [v]) } := by
  unfold Agent.deliver
  rw [h]
  simp [Agent.finish]

theorem Agent.deliver_of_other {r : Nat} (v : Elem) (last : Bool) (h : ∀ k vs, a.work ≠ .burst r k vs) :
    a.deliver r v last = a := by
  unfold Agent.deliver
  split
  · rename_i q k vs hw
    rw [if_neg]
    rintro rfl
    exact h k vs hw
  · rfl
  · rfl

end

/-! ### The pixel step (R282) -/

/-- Everything a pixel step can do. -/
theorem State.pixelStep_cases (s : State) (t pick : Nat) :
    ((s.blk.faulted = true ∨ s.drawing? t = none) ∧ s.pixelStep t pick = s) ∨
    ∃ a todo, s.blk.faulted = false ∧ s.env.agents[t]? = some a ∧ a.work = .draw todo ∧
      (((takePixel pick todo s).2 = [] ∧
          s.pixelStep t pick = (takePixel pick todo s).1.onAgent t (Agent.finish .ack)) ∨
        ((takePixel pick todo s).2 ≠ [] ∧
          s.pixelStep t pick = (takePixel pick todo s).1.onAgent t
            fun b => { b with work := .draw (takePixel pick todo s).2 })) := by
  unfold State.pixelStep
  split
  · exact .inl ⟨.inl ‹_›, rfl⟩
  · rename_i hf
    split
    · exact .inl ⟨.inr ‹_›, rfl⟩
    · rename_i todo hd
      unfold State.drawing? at hd
      split at hd
      · rename_i a ha
        split at hd
        · rename_i todo' hw
          cases hd
          refine .inr ⟨a, todo, by simpa using hf, ha, hw, ?_⟩
          simp only
          split_ifs with h
          · exact .inl ⟨h, rfl⟩
          · exact .inr ⟨h, rfl⟩
        · cases hd
        · cases hd
      · cases hd

/-! ### What never changes -/

/-- A response, a hold, fault entry and a command's start leave every agent's script alone. -/
theorem State.scripts_onAgents (f : Agent → Agent) (h : ∀ a, (f a).script = a.script) (s : State) :
    (s.onAgents f).env.agents.map Agent.script = s.env.agents.map Agent.script := by
  simp [State.onAgents, Function.comp_def, h]

end Sys2Proof.Machine
end

