-- ==== Sys2Proof/Laws/Display.lean ====
section
/-! SUPPORT. What a list of `plot` calls makes of a pixel (R283), what the acceptance of a drawing command can do (R282),
and what the scheduler's and the panel's steps can do (R302 to R307). -/

namespace Sys2Proof.Machine

/-! ## `plot` -/

section
variable {c : Config} {x y : Nat}

/-- One `plot` call, seen from a pixel of the framebuffer. -/
theorem readPix_plotInto (hx : x < c.fbW) (hy : y < c.fbH) (f : Cells Byte) (p : Plot) :
    readPix (plotInto c f p) (pixIndex c x y) =
      if p.x = x ∧ p.y = y then p.c else readPix f (pixIndex c x y) := by
  unfold plotInto Plot.inside
  by_cases hin : 0 ≤ p.x ∧ p.x < c.fbW ∧ 0 ≤ p.y ∧ p.y < c.fbH
  · rw [if_pos (by simpa using hin), readPix_set]
    by_cases h : p.x = x ∧ p.y = y
    · rw [if_pos h, if_pos]
      rw [h.1, h.2]
      simp
    · rw [if_neg h, if_neg]
      intro he
      obtain ⟨h1, h2⟩ := pixIndex_inj hx (by omega) he
      exact h ⟨by omega, by omega⟩
  · rw [if_neg (by simpa using hin), if_neg]
    rintro ⟨h1, h2⟩
    exact hin ⟨by omega, by omega, by omega, by omega⟩

/-- A pixel that no call names keeps its value. -/
theorem finalFrame_miss (hx : x < c.fbW) (hy : y < c.fbH) (plots : List Plot) (pix : Cells Byte)
    (h : ∀ p ∈ plots, ¬ (p.x = x ∧ p.y = y)) :
    readPix (finalFrame c plots pix) (pixIndex c x y) = readPix pix (pixIndex c x y) := by
  unfold finalFrame
  induction plots generalizing pix with
  | nil => rfl
  | cons p rest ih =>
    rw [List.foldl_cons, ih _ fun q hq => h q (List.mem_cons_of_mem _ hq), readPix_plotInto hx hy,
      if_neg (h p List.mem_cons_self)]

/-- A pixel that some call names, all of them with one colour, takes that colour. -/
theorem finalFrame_hit (hx : x < c.fbW) (hy : y < c.fbH) (plots : List Plot) (pix : Cells Byte) (k : Byte)
    (hit : ∃ p ∈ plots, p.x = x ∧ p.y = y) (same : ∀ p ∈ plots, p.x = x → p.y = y → p.c = k) :
    readPix (finalFrame c plots pix) (pixIndex c x y) = k := by
  induction plots generalizing pix with
  | nil => obtain ⟨p, hp, _⟩ := hit; cases hp
  | cons p rest ih =>
    by_cases hr : ∃ q ∈ rest, q.x = x ∧ q.y = y
    · exact ih _ hr fun q hq => same q (List.mem_cons_of_mem _ hq)
    · have hm : ∀ q ∈ rest, ¬ (q.x = x ∧ q.y = y) := fun q hq he => hr ⟨q, hq, he⟩
      have hp : p.x = x ∧ p.y = y := by
        obtain ⟨q, hq, he⟩ := hit
        rcases List.mem_cons.1 hq with rfl | hq
        · exact he
        · exact absurd he (hm q hq)
      have := finalFrame_miss hx hy rest (plotInto c pix p) hm
      unfold finalFrame at this ⊢
      rw [List.foldl_cons, this, readPix_plotInto hx hy, if_pos hp]
      exact same p List.mem_cons_self hp.1 hp.2

end

/-- No pixel is listed twice among the writes a command has to do. -/
theorem changedPixels_nodup (c : Config) (pix f : Cells Byte) : (changedPixels c pix f).Nodup := by
  unfold changedPixels
  rw [List.nodup_flatMap]
  constructor
  · intro y _
    refine List.Nodup.filterMap ?_ List.nodup_range
    intro x x' p h h'
    simp only [Option.mem_def] at h h'
    split at h
    · cases h
    · split at h'
      · cases h'
      · cases h; injection h' with h'; injection h' with h' _ _; exact h'.symm
  · refine List.Pairwise.imp ?_ List.nodup_range
    intro y y' hne
    rw [Function.onFun, List.disjoint_left]
    intro p h h'
    simp only [List.mem_filterMap] at h h'
    obtain ⟨x, -, h⟩ := h
    obtain ⟨x', -, h'⟩ := h'
    split at h
    · cases h
    · split at h'
      · cases h'
      · cases h; injection h' with h'; injection h' with _ h' _; exact hne h'.symm

/-- The writes a command has to do, seen from the framebuffer. -/
theorem mem_pixelWrites {s : State} {plots : List Plot} {p : PixelWrite} :
    p ∈ s.pixelWrites plots ↔
      p.x < s.cfg.fbW ∧ p.y < s.cfg.fbH ∧
        p.c = readPix (finalFrame s.cfg plots s.mem.pix) (pixIndex s.cfg p.x p.y) ∧ p.c ≠ s.pixel p.x p.y := by
  unfold State.pixelWrites
  rw [mem_changedPixels]
  constructor
  · rintro ⟨h1, h2, h3, h4⟩; exact ⟨h1, h2, h3, by rw [h3]; exact h4⟩
  · rintro ⟨h1, h2, h3, h4⟩; exact ⟨h1, h2, h3, by rw [← h3]; exact h4⟩

/-- Everything the acceptance of a drawing command can do (R282). -/
theorem State.perform_cases (s : State) (plots : List Plot) :
    (s.pixelWrites plots = [] ∧ s.perform plots = s.respond .ack) ∨
    ∃ p ∈ s.pixelWrites plots, ∃ rest : List PixelWrite,
      rest = (s.pixelWrites plots).eraseIdx (s.env.pick % (s.pixelWrites plots).length) ∧
      (s.pixelWrites plots)[s.env.pick % (s.pixelWrites plots).length]? = some p ∧
      ((rest = [] ∧ s.perform plots = (s.setPixel p).respond .ack) ∨
        (rest ≠ [] ∧ s.perform plots = (s.setPixel p).beginWork (.draw rest))) := by
  by_cases h : s.pixelWrites plots = []
  · exact .inl ⟨h, State.perform_unchanged h⟩
  · have hl : 0 < (s.pixelWrites plots).length := List.length_pos_of_ne_nil h
    have hk := Nat.mod_lt s.env.pick hl
    refine .inr ⟨(s.pixelWrites plots)[s.env.pick % (s.pixelWrites plots).length], List.getElem_mem hk, _, rfl,
      List.getElem?_eq_getElem hk, ?_⟩
    unfold State.perform takePixel
    rw [List.getElem?_eq_getElem hk]
    simp only
    split_ifs with hr
    · exact .inl ⟨hr, rfl⟩
    · exact .inr ⟨hr, rfl⟩

/-! ## The scheduler and the panel -/

/-- Everything a step of the scheduler can do. -/
theorem State.sched_cases (s : State) :
    (s.schedEnabled = none ∧ s.sched = s) ∨
    (s.blk.faulted = false ∧ s.fb.st = .treq ∧ s.sched = s.startFrame) ∨
    (s.blk.faulted = false ∧ s.fb.st = .tx ∧ s.fb.cur = s.cfg.lineCount ∧ s.sched = s.endFrame) ∨
    (s.blk.faulted = false ∧ s.fb.st = .tx ∧ s.fb.cur < s.cfg.lineCount ∧ s.fb.ls = .convert ∧
      s.sched = s.convertPixel) ∨
    (s.blk.faulted = false ∧ s.fb.st = .tx ∧ s.fb.cur ≠ s.cfg.lineCount ∧ s.fb.ls = .send ∧ s.sched = s.sendLine) := by
  unfold State.sched State.schedEnabled
  cases hf : s.blk.faulted
  · cases hs : s.fb.st
    · exact .inl ⟨rfl, rfl⟩
    · exact .inr (.inl ⟨rfl, rfl, rfl⟩)
    · by_cases hc : s.fb.cur = s.cfg.lineCount
      · exact .inr (.inr (.inl ⟨rfl, rfl, hc, by simp [hc]⟩))
      · cases hl : s.fb.ls
        · by_cases hlt : s.fb.cur < s.cfg.lineCount
          · exact .inr (.inr (.inr (.inl ⟨rfl, rfl, hlt, rfl, by simp [hc, hlt]⟩)))
          · exact .inl (by simp [hc, hlt])
        · exact .inr (.inr (.inr (.inr ⟨rfl, rfl, hc, rfl, by simp [hc]⟩)))
        · exact .inl (by simp [hc])
  · exact .inl ⟨rfl, rfl⟩

/-- Everything the panel's completion can do. -/
theorem State.complete_cases (s : State) (ok : Bool) :
    (s.panelEnabled = false ∧ s.complete ok = s) ∨
    (s.blk.faulted = false ∧ s.fb.st = .tx ∧ s.fb.ls = .wait ∧
      s.complete ok = { s with fb := { s.fb with cur := s.fb.cur + 1, xp := 0, ls := .convert } }) := by
  unfold State.complete
  split
  · rename_i h
    refine .inr ?_
    simp only [State.panelEnabled, Bool.and_eq_true, Bool.not_eq_true', decide_eq_true_eq] at h
    exact ⟨h.1, h.2.1, h.2.2, rfl⟩
  · rename_i h
    exact .inl ⟨by simpa using h, rfl⟩

/-- CONVERT, by the bytes of the line buffer (R304). -/
theorem State.convertPixel_spec (s : State) :
    s.convertPixel = { s with
      mem := { s.mem with line := s.convertPixel.mem.line }
      fb := { s.fb with xp := s.fb.xp + 1, ls := if s.fb.xp + 1 = s.cfg.lineLen then .send else s.fb.ls } } ∧
    ∀ j, s.convertPixel.lineByte j =
      if j = 2 * s.fb.xp then s.scanColor.extractLsb' 8 8
      else if j = 2 * s.fb.xp + 1 then s.scanColor.extractLsb' 0 8 else s.lineByte j := by
  refine ⟨rfl, fun j => ?_⟩
  have h : s.convertPixel.lineByte j = ((s.setLine (2 * s.fb.xp) (s.scanColor.extractLsb' 8 8)).setLine
      (2 * s.fb.xp + 1) (s.scanColor.extractLsb' 0 8)).lineByte j := rfl
  rw [h, State.lineByte_setLine, State.lineByte_setLine]
  split_ifs <;> first | rfl | omega

end Sys2Proof.Machine
end

