-- ==== Sys2Proof/Laws/Exec.lean ====
section
/-! SUPPORT. What every command does before its own rule (R344), and that no command stops the machine. -/

namespace Sys2Proof.Machine

variable {i : Instr} {s : State}

theorem exec_of_faulted (h : s.blk.faulted = true) : exec i s = .next s.respondErr := by
  cases i <;> exact accept_of_faulted h

theorem exec_of_absent (h : s.blk.faulted = false) (hp : i.present s.cfg = false) :
    exec i s = .next (s.raiseFault i.word .illegalCommand) := by
  cases i <;> exact accept_of_absent h hp

theorem exec_of_held (h : s.blk.faulted = false) (hp : i.present s.cfg = true) (hh : heldIn i s = true) :
    exec i s = .next s.hold := by
  cases i <;> exact accept_of_held h hp hh

/-- Command entry gives a next state where the command's rule does. -/
theorem accept_next {rule : Result} (h : ∃ t, rule = .next t) : ∃ t, accept i s rule = .next t := by
  unfold accept
  split_ifs
  · exact ⟨_, rfl⟩
  · exact ⟨_, rfl⟩
  · exact ⟨_, rfl⟩
  · exact h

theorem checkReader_next {r : Nat} {rule : Result} (h : ∃ t, rule = .next t) :
    ∃ t, checkReader i r s rule = .next t := by
  unfold checkReader
  split_ifs
  · exact ⟨_, rfl⟩
  · exact ⟨_, rfl⟩
  · exact h

theorem ite_next {p : Prop} [Decidable p] {x y : Result} (hx : ∃ t, x = .next t) (hy : ∃ t, y = .next t) :
    ∃ t, (if p then x else y) = .next t := by
  split_ifs
  · exact hx
  · exact hy

/-- Every command gives a next state. -/
theorem exec_next (i : Instr) (s : State) : ∃ t, exec i s = .next t := by
  cases i with
  | append v => exact accept_next ⟨_, rfl⟩
  | attach r => exact accept_next (ite_next ⟨_, rfl⟩ ⟨_, rfl⟩)
  | count r => exact accept_next (checkReader_next ⟨_, rfl⟩)
  | read r => exact accept_next (checkReader_next (ite_next ⟨_, rfl⟩ ⟨_, rfl⟩))
  | consume r => exact accept_next (checkReader_next (ite_next ⟨_, rfl⟩ ⟨_, rfl⟩))
  | drops r => exact accept_next (checkReader_next ⟨_, rfl⟩)
  | feed re im => exact accept_next ⟨_, rfl⟩
  | compute => exact accept_next (ite_next ⟨_, rfl⟩ (ite_next ⟨_, rfl⟩ ⟨_, rfl⟩))
  | postprocess => exact accept_next ⟨_, rfl⟩
  | copyfft l => exact accept_next (ite_next ⟨_, rfl⟩ ⟨_, rfl⟩)
  | clear => exact accept_next ⟨_, rfl⟩
  | pixel x y c => exact accept_next ⟨_, rfl⟩
  | hline x y len c => exact accept_next ⟨_, rfl⟩
  | vline x y len c => exact accept_next ⟨_, rfl⟩
  | circle xc yc rad c => exact accept_next ⟨_, rfl⟩
  | blit x y bw bh data => exact accept_next ⟨_, rfl⟩
  | vscroll => exact accept_next ⟨_, rfl⟩
  | setpal k col => exact accept_next (ite_next ⟨_, rfl⟩ ⟨_, rfl⟩)
  | update => exact accept_next ⟨_, rfl⟩
  | ready => exact accept_next ⟨_, rfl⟩

/-! ## Events -/

/-- A command's event is its `exec`, which always gives a next state. -/
theorem Event.run_command (t pick : Nat) (i : Instr) (s : State) :
    exec i (s.select t pick) = .next ((Event.command t pick i).run s) := by
  obtain ⟨u, hu⟩ := exec_next i (s.select t pick)
  simp [Event.run, hu]

theorem runEvents_append (xs ys : List Event) (s : State) :
    runEvents (xs ++ ys) s = runEvents ys (runEvents xs s) := by
  induction xs generalizing s with
  | nil => rfl
  | cons e rest ih => exact ih _

end Sys2Proof.Machine
end

