-- ==== Sys2Proof/Laws/PerInstr.lean ====
section
/-! SUPPORT. Facts about every instruction as syntax, one lemma per constructor: its command word lies in its row of the
opcode map (R157). -/

namespace Sys2Proof.Laws.TableRow

/-- The `mask` column of R157. -/
def mask : Instr → CmdWord
  | .attach _ | .count _ | .read _ | .consume _ | .drops _ | .setpal _ _ => 0xFF00#16
  | .append _ | .feed _ _ | .compute | .postprocess | .copyfft _ | .clear | .pixel _ _ _ | .hline _ _ _ _
  | .vline _ _ _ _ | .circle _ _ _ _ | .blit _ _ _ _ _ | .vscroll | .update | .ready => 0xFFFF#16

/-- The `match` column of R157. -/
def value : Instr → CmdWord
  | .append _ => 0x0000#16
  | .attach _ => 0x0100#16
  | .count _ => 0x0200#16
  | .read _ => 0x0300#16
  | .consume _ => 0x0400#16
  | .drops _ => 0x0500#16
  | .feed _ _ => 0x1000#16
  | .compute => 0x1100#16
  | .postprocess => 0x1200#16
  | .copyfft _ => 0x1300#16
  | .clear => 0x2000#16
  | .pixel _ _ _ => 0x2100#16
  | .hline _ _ _ _ => 0x2200#16
  | .vline _ _ _ _ => 0x2300#16
  | .circle _ _ _ _ => 0x2400#16
  | .blit _ _ _ _ _ => 0x2500#16
  | .vscroll => 0x2600#16
  | .setpal _ _ => 0x2700#16
  | .update => 0x2800#16
  | .ready => 0x2900#16

/-- The command word agrees with its row. -/
def Statement (i : Instr) : Prop := i.word &&& mask i = value i

theorem selRow (op ss : BitVec 8) : (op ++ ss : BitVec 16) &&& 0xFF00#16 = op ++ 0#8 := by
  ext k hk
  simp only [BitVec.getElem_and, BitVec.getElem_append]
  rcases Nat.lt_or_ge k 8 with h | h
  · simp only [h, ↓reduceDIte]; interval_cases k <;> simp
  · simp only [Nat.not_lt.2 h, ↓reduceDIte]; interval_cases k <;> simp

theorem append (v : Elem) : Statement (.append v) := by
  simp only [Statement, Instr.word, mask, value]; decide
theorem attach (r : BitVec 8) : Statement (.attach r) := selRow _ _
theorem count (r : BitVec 8) : Statement (.count r) := selRow _ _
theorem read (r : BitVec 8) : Statement (.read r) := selRow _ _
theorem consume (r : BitVec 8) : Statement (.consume r) := selRow _ _
theorem drops (r : BitVec 8) : Statement (.drops r) := selRow _ _
theorem feed (re : F32) (im : F32) : Statement (.feed re im) := by
  simp only [Statement, Instr.word, mask, value]; decide
theorem compute : Statement (.compute) := by
  simp only [Statement, Instr.word, mask, value]; decide
theorem postprocess : Statement (.postprocess) := by
  simp only [Statement, Instr.word, mask, value]; decide
theorem copyfft (l : BitVec 32) : Statement (.copyfft l) := by
  simp only [Statement, Instr.word, mask, value]; decide
theorem clear : Statement (.clear) := by
  simp only [Statement, Instr.word, mask, value]; decide
theorem pixel (x : BitVec 16) (y : BitVec 16) (c : Byte) : Statement (.pixel x y c) := by
  simp only [Statement, Instr.word, mask, value]; decide
theorem hline (x : BitVec 16) (y : BitVec 16) (len : BitVec 16) (c : Byte) : Statement (.hline x y len c) := by
  simp only [Statement, Instr.word, mask, value]; decide
theorem vline (x : BitVec 16) (y : BitVec 16) (len : BitVec 16) (c : Byte) : Statement (.vline x y len c) := by
  simp only [Statement, Instr.word, mask, value]; decide
theorem circle (xc : BitVec 16) (yc : BitVec 16) (rad : BitVec 16) (c : Byte) : Statement (.circle xc yc rad c) := by
  simp only [Statement, Instr.word, mask, value]; decide
theorem blit (x : BitVec 16) (y : BitVec 16) (bw : BitVec 16) (bh : BitVec 16) (data : List Byte) : Statement (.blit x y bw bh data) := by
  simp only [Statement, Instr.word, mask, value]; decide
theorem vscroll : Statement (.vscroll) := by
  simp only [Statement, Instr.word, mask, value]; decide
theorem setpal (k : BitVec 8) (col : Color) : Statement (.setpal k col) := selRow _ _
theorem update : Statement (.update) := by
  simp only [Statement, Instr.word, mask, value]; decide
theorem ready : Statement (.ready) := by
  simp only [Statement, Instr.word, mask, value]; decide

end Sys2Proof.Laws.TableRow
end

