-- ==== Sys2Proof/Laws/Spectral.lean ====
section
/-! SUPPORT. What each phase of COMPUTE (R240 to R243) and of POSTPROCESS (R248, R249) does, said once by element reads. -/

namespace Sys2Proof.Machine

variable (s : State)

/-! ## The shift (R240) -/

theorem State.shiftWindow_spec :
    s.shiftWindow = { s with mem := { s.mem with x := s.shiftWindow.mem.x } } ∧
    ∀ i, s.shiftWindow.xElem i =
      if i < 2 * s.cfg.seN - 2 * s.cfg.seOv then s.xElem (i + 2 * s.cfg.seOv) else s.xElem i := by
  refine forUpTo_induct (fun i t => t.setX i (t.xElem (i + 2 * s.cfg.seOv))) s
    (P := fun k t => t = { s with mem := { s.mem with x := t.mem.x } } ∧
      ∀ i, t.xElem i = if i < k then s.xElem (i + 2 * s.cfg.seOv) else s.xElem i) _ ⟨rfl, by simp⟩ ?_
  rintro k t - ⟨h1, h2⟩
  refine ⟨by rw [h1]; rfl, fun i => ?_⟩
  rw [State.xElem_setX, h2]
  split_ifs with h3 <;> (try rw [h2]) <;> (try split_ifs) <;> first | rfl | omega | (subst h3; rfl)

/-! ## The refill (R241) -/

/-- The sample that element `i` of the window's tail takes after `j` reads. -/
theorem State.refill_spec (hp : s.se.stg.readers.length = 1)
    (hc : (s.se.stg.reader 0).cnt ≤ s.cfg.seS) (ho : s.cfg.seOv ≤ (s.se.stg.reader 0).cnt) :
    s.refill = { s with mem := { s.mem with x := s.refill.mem.x }, se := { s.se with stg := s.refill.se.stg } } ∧
    s.refill.se.stg = s.se.stg.onReader 0 (fun q => { q with cnt := q.cnt - s.cfg.seOv }) ∧
    (∀ i, i < 2 * (s.cfg.seN - s.cfg.seOv) ∨ 2 * (s.cfg.seN - s.cfg.seOv + s.cfg.seOv) ≤ i →
      s.refill.xElem i = s.xElem i) ∧
    ∀ j, j < s.cfg.seOv →
      s.refill.xElem (2 * (s.cfg.seN - s.cfg.seOv + j)) = sampleRe (s.staged j) ∧
      s.refill.xElem (2 * (s.cfg.seN - s.cfg.seOv + j) + 1) = sampleIm (s.staged j) := by
  have h := forUpTo_induct State.refillOne s
    (P := fun k t =>
      t = { s with mem := { s.mem with x := t.mem.x }, se := { s.se with stg := t.se.stg } } ∧
      t.se.stg = s.se.stg.onReader 0 (fun q => { q with cnt := q.cnt - k }) ∧
      (∀ i, i < 2 * (s.cfg.seN - s.cfg.seOv) ∨ 2 * (s.cfg.seN - s.cfg.seOv + k) ≤ i → t.xElem i = s.xElem i) ∧
      ∀ j, j < k →
        t.xElem (2 * (s.cfg.seN - s.cfg.seOv + j)) = sampleRe (s.staged j) ∧
        t.xElem (2 * (s.cfg.seN - s.cfg.seOv + j) + 1) = sampleIm (s.staged j)) s.cfg.seOv ?_ ?_
  · exact h
  · refine ⟨rfl, ?_, fun _ _ => rfl, fun j hj => absurd hj (Nat.not_lt_zero j)⟩
    change s.se.stg = { wr := s.se.stg.wr, readers := s.se.stg.readers.modify 0 id }
    rw [List.modify_id]
  · rintro k t hk ⟨h1, h2, h3, h4⟩
    have hold : t.oldestSample = s.staged k := by
      have hr : t.se.stg.reader 0 = { s.se.stg.reader 0 with cnt := (s.se.stg.reader 0).cnt - k } := by
        rw [h2, Ring.reader_onReader_same _ _ _ (by omega)]
      have ht : t.stgElem = s.stgElem := by rw [h1]; rfl
      have hcf : t.cfg = s.cfg := by rw [h1]
      have hwr : t.se.stg.wr = s.se.stg.wr := by rw [h2]; rfl
      unfold State.oldestSample State.staged
      rw [ht, hcf, Ring.readAddr_eq _ _ (by rw [hr]; simp; omega), Ring.readAddr_eq _ _ hc, hr, hwr]
      congr 1
      simp only [Nat.mod_add_mod]
      congr 1
      omega
    have hcf : t.cfg = s.cfg := by rw [h1]
    unfold State.refillOne
    simp only [hold, hcf]
    refine ⟨by rw [h1]; rfl, ?_, ?_, ?_⟩
    · simp only [State.setX_se, Ring.dropOldest, h2]
      simp only [Ring.onReader, Ring.mk.injEq, true_and, List.modify_modify_eq]
      congr 1
    · intro i hi
      rw [State.xElem_setX, State.xElem_setX, if_neg (by omega), if_neg (by omega)]
      exact h3 i (by omega)
    · intro j hj
      rw [State.xElem_setX, State.xElem_setX, State.xElem_setX, State.xElem_setX]
      rcases Nat.lt_succ_iff_lt_or_eq.1 hj with hj | rfl
      · rw [if_neg (by omega), if_neg (by omega), if_neg (by omega), if_neg (by omega)]
        exact h4 j hj
      · rw [if_neg (by omega), if_pos rfl, if_pos rfl]
        exact ⟨rfl, rfl⟩

/-! ## The window (R242) -/

theorem State.window_spec :
    s.window = { s with
      mem := { s.mem with work := s.window.mem.work }
      env := { s.env with nanDraws := s.env.nanDraws + 2 * s.cfg.seN } } ∧
    (∀ i, 2 * s.cfg.seN ≤ i → s.window.workElem i = s.workElem i) ∧
    ∀ n, n < s.cfg.seN →
      s.window.workElem (2 * n) = f32Mul (freeNaN (s.env.nanDraws + 2 * n)) (s.xElem (2 * n)) (s.winElem n) ∧
      s.window.workElem (2 * n + 1) =
        f32Mul (freeNaN (s.env.nanDraws + (2 * n + 1))) (s.xElem (2 * n + 1)) (s.winElem n) := by
  have h := forUpTo_induct State.windowOne s
    (P := fun k t => t = { s with mem := { s.mem with work := t.mem.work } } ∧
      (∀ i, 2 * k ≤ i → t.workElem i = s.workElem i) ∧
      ∀ n, n < k →
        t.workElem (2 * n) = f32Mul (freeNaN (s.env.nanDraws + 2 * n)) (s.xElem (2 * n)) (s.winElem n) ∧
        t.workElem (2 * n + 1) =
          f32Mul (freeNaN (s.env.nanDraws + (2 * n + 1))) (s.xElem (2 * n + 1)) (s.winElem n)) s.cfg.seN ?_ ?_
  · obtain ⟨h1, h2, h3⟩ := h
    refine ⟨?_, h2, h3⟩
    simp only [State.window, State.useNaNs, State.mk.injEq]
    rw [h1]
    simp
  · exact ⟨rfl, fun _ _ => rfl, fun n hn => absurd hn (Nat.not_lt_zero n)⟩
  · rintro k t - ⟨h1, h2, h3⟩
    have hx : t.xElem = s.xElem := by rw [h1]; rfl
    have hn : t.winElem = s.winElem := by rw [h1]; rfl
    have he : t.env = s.env := by rw [h1]
    unfold State.windowOne
    refine ⟨by rw [h1]; rfl, ?_, ?_⟩
    · intro i hi
      rw [State.workElem_setWork, State.workElem_setWork, if_neg (by omega), if_neg (by omega)]
      exact h2 i (by omega)
    · intro n hn'
      simp only [State.workElem_setWork, hx, hn, he]
      rcases Nat.lt_succ_iff_lt_or_eq.1 hn' with hl | rfl
      · rw [if_neg (by omega), if_neg (by omega), if_neg (by omega), if_neg (by omega)]
        exact h3 n hl
      · rw [if_neg (by omega), if_pos rfl, if_pos rfl]
        exact ⟨rfl, rfl⟩

/-! ## The transform (R243) -/

theorem State.transform_spec :
    s.transform = { s with mem := { s.mem with work := s.transform.mem.work } } ∧
    (∀ i, 2 * s.cfg.seN ≤ i → s.transform.workElem i = s.workElem i) ∧
    ∀ k, k < s.cfg.seN →
      s.transform.workElem (2 * k) = (s.cfg.seFft s.workSamples k).1 ∧
      s.transform.workElem (2 * k + 1) = (s.cfg.seFft s.workSamples k).2 := by
  refine forUpTo_induct (fun k t => (t.setWork (2 * k) (s.cfg.seFft s.workSamples k).1).setWork (2 * k + 1)
      (s.cfg.seFft s.workSamples k).2) s
    (P := fun k t => t = { s with mem := { s.mem with work := t.mem.work } } ∧
      (∀ i, 2 * k ≤ i → t.workElem i = s.workElem i) ∧
      ∀ n, n < k →
        t.workElem (2 * n) = (s.cfg.seFft s.workSamples n).1 ∧
        t.workElem (2 * n + 1) = (s.cfg.seFft s.workSamples n).2) s.cfg.seN ?_ ?_
  · exact ⟨rfl, fun _ _ => rfl, fun n hn => absurd hn (Nat.not_lt_zero n)⟩
  · rintro k t - ⟨h1, h2, h3⟩
    refine ⟨by rw [h1]; rfl, ?_, ?_⟩
    · intro i hi
      rw [State.workElem_setWork, State.workElem_setWork, if_neg (by omega), if_neg (by omega)]
      exact h2 i (by omega)
    · intro n hn
      simp only [State.workElem_setWork]
      rcases Nat.lt_succ_iff_lt_or_eq.1 hn with hl | rfl
      · rw [if_neg (by omega), if_neg (by omega), if_neg (by omega), if_neg (by omega)]
        exact h3 n hl
      · rw [if_neg (by omega), if_pos rfl, if_pos rfl]
        exact ⟨rfl, rfl⟩

/-! ## POSTPROCESS (R248, R249) -/

theorem State.normalise_spec :
    s.normalise = { s with
      mem := { s.mem with work := s.normalise.mem.work }
      env := { s.env with nanDraws := s.env.nanDraws + 2 * s.cfg.seN } } ∧
    ∀ i, s.normalise.workElem i =
      if i < 2 * s.cfg.seN then f32DivPow2 (freeNaN (s.env.nanDraws + i)) (s.workElem i) s.cfg.seN.log2
      else s.workElem i := by
  have h := forUpTo_induct (fun i t => t.setWork i
      (f32DivPow2 (freeNaN (s.env.nanDraws + i)) (t.workElem i) s.cfg.seN.log2)) s
    (P := fun k t => t = { s with mem := { s.mem with work := t.mem.work } } ∧
      ∀ i, t.workElem i =
        if i < k then f32DivPow2 (freeNaN (s.env.nanDraws + i)) (s.workElem i) s.cfg.seN.log2 else s.workElem i)
    (2 * s.cfg.seN) ⟨rfl, by simp⟩ ?_
  · obtain ⟨h1, h2⟩ := h
    refine ⟨?_, h2⟩
    simp only [State.normalise, State.useNaNs, State.mk.injEq]
    rw [h1]
    simp
  · rintro k t - ⟨h1, h2⟩
    refine ⟨by rw [h1]; rfl, fun i => ?_⟩
    simp only [State.workElem_setWork]
    by_cases h3 : i = k
    · subst h3; rw [if_pos rfl, if_pos (by omega), h2 i, if_neg (by omega)]
    · rw [if_neg h3, h2 i]
      split_ifs <;> first | rfl | omega

theorem State.power_spec :
    s.power = { s with
      mem := { s.mem with work := s.power.mem.work }
      env := { s.env with nanDraws := s.env.nanDraws + 3 * s.cfg.seN } } ∧
    ∀ i, s.power.workElem i =
      if i < s.cfg.seN then powerOf (s.env.nanDraws + 3 * i) (s.workElem (2 * i)) (s.workElem (2 * i + 1))
      else s.workElem i := by
  have h := forUpTo_induct (fun k t => t.setWork k
      (powerOf (s.env.nanDraws + 3 * k) (t.workElem (2 * k)) (t.workElem (2 * k + 1)))) s
    (P := fun k t => t = { s with mem := { s.mem with work := t.mem.work } } ∧
      ∀ i, t.workElem i =
        if i < k then powerOf (s.env.nanDraws + 3 * i) (s.workElem (2 * i)) (s.workElem (2 * i + 1)) else s.workElem i)
    s.cfg.seN ⟨rfl, by simp⟩ ?_
  · obtain ⟨h1, h2⟩ := h
    refine ⟨?_, h2⟩
    simp only [State.power, State.useNaNs, State.mk.injEq]
    rw [h1]
    simp
  · rintro k t - ⟨h1, h2⟩
    refine ⟨by rw [h1]; rfl, fun i => ?_⟩
    simp only [State.workElem_setWork]
    by_cases h3 : i = k
    · subst h3
      rw [if_pos rfl, if_pos (by omega), h2 (2 * i), h2 (2 * i + 1), if_neg (by omega), if_neg (by omega)]
    · rw [if_neg h3, h2 i]
      split_ifs <;> first | rfl | omega

end Sys2Proof.Machine
end

