-- ==== Sys2Proof/Tests/Slice0.lean ====
section
/-! SUPPORT. Tests on small states, each about one step: the well-formedness checks, the decoding of a word of every
command, the vectors of 95_test_vectors.md, and for every statement with hypotheses a state that meets them. -/

namespace Sys2Proof.Tests

open Sys2Proof.Machine

/-! ## Helpers -/

/-- An agent with no script and nothing in progress. -/
def idleAgent : Agent := { script := [], pos := 0, work := .idle, held := false, inbox := [] }

/-- The block of `c` after reset, with one agent, the issuer. -/
def fresh (c : Config) : State := { State.resetWith c with env := { Env.reset with agents := [idleAgent] } }

/-- That block after some commands. -/
def ran (c : Config) (is : List Instr) : State := (execAll is (fresh c)).getD (fresh c)

/-- What agent 0 has received. -/
def received (s : State) : List Response := (s.env.agents.map Agent.inbox).headD []

/-- The configuration of the vectors RB1 to RB18. -/
def cfgRb : Config := { Config.initial with rbTw := 8, rbDropW := 2 }

/-- The configuration of the vectors SE6 and SE9. -/
def cfgPower : Config := { Config.initial with seVariant := .power }

/-- The configuration of the vector SE7. -/
def cfgNorm : Config := { Config.initial with seVariant := .norm }

/-- The configuration of the vectors FB13 to FB15. -/
def cfgSquare (n : Nat) : Config := { Config.initial with fbW := n, fbH := n }

/-- The framebuffer's rows. -/
def rows (s : State) : List (List Nat) :=
  (List.range s.cfg.fbH).map fun y => (List.range s.cfg.fbW).map fun x => (s.pixel x y).toNat

/-- The state once the drawing command in progress of agent 0 is acknowledged. -/
def drawn (s : State) : State := pixelSteps 0 (List.replicate (s.cfg.fbW * s.cfg.fbH) 0) s

/-- `SE.X`, from element 0. -/
def window (s : State) : List F32 := (List.range (2 * s.cfg.seN)).map s.xElem

/-- `SE.WORK`, from element 0. -/
def work (s : State) : List F32 := (List.range (2 * s.cfg.seN)).map s.workElem

/-- The block with `SE.WORK = [2,0, -1,1, 0,0, -1,-1]` (R251). -/
def withWork (c : Config) : State :=
  ([0x40000000#32, 0x0#32, 0xBF800000#32, 0x3F800000#32, 0x0#32, 0x0#32, 0xBF800000#32, 0xBF800000#32].zipIdx).foldl
    (fun s e => s.setWork e.2 e.1) (fresh c)

/-! ## Well-formedness: what each check refuses -/

theorem test_drops_needs_counters :
    (Instr.drops 0#8).wellFormed { Config.initial with rbHasDrops := false } = false := by decide

theorem test_postprocess_needs_a_variant :
    Instr.postprocess.wellFormed { Config.initial with seVariant := .none } = false := by decide

theorem test_append_too_wide : (Instr.append 0x100#64).wellFormed cfgRb = false := by decide

theorem test_blit_wrong_length : (Instr.blit 0#16 0#16 2#16 1#16 [1#8]).wellFormed Config.initial = false := by decide

theorem test_widest_append_and_blit_are_well_formed :
    (Instr.append 0xFF#64).wellFormed cfgRb = true ∧
      (Instr.blit 0#16 0#16 2#16 1#16 [1#8, 2#8]).wellFormed Config.initial = true ∧
      Instr.present Config.initial .postprocess = true ∧ Instr.present Config.initial (.drops 0#8) = true := by decide

theorem test_configuration_checks :
    Config.initial.valid = true ∧ ({ Config.initial with rbN := 0 }).valid = false ∧
      ({ Config.initial with rbR := 257 }).valid = false ∧ ({ Config.initial with rbTw := 65 }).valid = false ∧
      ({ Config.initial with rbDropW := 33 }).valid = false ∧ ({ Config.initial with seN := 3 }).valid = false ∧
      ({ Config.initial with seOv := 4 }).valid = false ∧ ({ Config.initial with seS := 1 }).valid = false ∧
      ({ Config.initial with seWin := [] }).valid = false ∧ ({ Config.initial with fbW := 0 }).valid = false ∧
      ({ Config.initial with fbH := 32768 }).valid = false := by decide

/-! ## Decoding: one word of every command, written out from R141, R148 and R157 -/

/-- What the block of the initial configuration reads. -/
def reads (w : CmdWord) (ops : Nat) : Option Instr := (decode Config.initial ⟨w, ops⟩).toOption

theorem test_word_append : reads 0b0000000000000000#16 0x40A00000 = some (.append 0x40A00000#64) := by decide
theorem test_word_attach : reads 0b0000000100000011#16 0 = some (.attach 3#8) := by decide
theorem test_word_count : reads 0b0000001000000001#16 0 = some (.count 1#8) := by decide
theorem test_word_read : reads 0b0000001111111111#16 0 = some (.read 255#8) := by decide
theorem test_word_consume : reads 0b0000010000000000#16 0 = some (.consume 0#8) := by decide
theorem test_word_drops : reads 0b0000010110000000#16 0 = some (.drops 128#8) := by decide
theorem test_word_feed :
    reads 0b0001000000000000#16 0x3F8000003F000000 = some (.feed 0x3F000000#32 0x3F800000#32) := by decide
theorem test_word_compute : reads 0b0001000100000000#16 0 = some .compute := by decide
theorem test_word_postprocess : reads 0b0001001000000000#16 0 = some .postprocess := by decide
theorem test_word_copyfft : reads 0b0001001100000000#16 0x80000008 = some (.copyfft 0x80000008#32) := by decide
theorem test_word_clear : reads 0b0010000000000000#16 0 = some .clear := by decide
theorem test_word_pixel :
    reads 0b0010000100000000#16 0x02FFFE0001 = some (.pixel 0x0001#16 0xFFFE#16 0x02#8) := by decide
theorem test_word_hline :
    reads 0b0010001000000000#16 0x0100030000FFFF = some (.hline 0xFFFF#16 0#16 3#16 1#8) := by decide
theorem test_word_vline :
    reads 0b0010001100000000#16 0x07000500020001 = some (.vline 1#16 2#16 5#16 7#8) := by decide
theorem test_word_circle :
    reads 0b0010010000000000#16 0x07000500020001 = some (.circle 1#16 2#16 5#16 7#8) := by decide
theorem test_word_blit :
    reads 0b0010010100000000#16 0x06050002000100040003 = some (.blit 3#16 4#16 1#16 2#16 [5#8, 6#8]) := by decide
theorem test_word_vscroll : reads 0b0010011000000000#16 0 = some .vscroll := by decide
theorem test_word_setpal : reads 0b0010011111111110#16 0xF800 = some (.setpal 254#8 0xF800#16) := by decide
theorem test_word_update : reads 0b0010100000000000#16 0 = some .update := by decide
theorem test_word_ready : reads 0b0010100100000000#16 0 = some .ready := by decide

/-- The illegal words of 95_test_vectors.md, section 2.1. -/
theorem test_illegal_words :
    let c := { Config.initial with rbR := 4, rbHasDrops := false, seVariant := .none }
    [0x0001#16, 0x0500#16, 0x0600#16, 0x1001#16, 0x1200#16, 0x1400#16, 0x2001#16, 0x2A00#16, 0x3000#16, 0xF123#16].all
      (fun w => (decode c ⟨w, 0⟩).toOption.isNone) = true ∧
    [0x0000#16, 0x0103#16, 0x0107#16, 0x2701#16, 0x27FF#16].all
      (fun w => (decode c ⟨w, 0⟩).toOption.isSome) = true := by decide

/-- The host's two functions agree: the word it stores is the word the next step fetches. -/
theorem test_table_word : decodeTableWord 16 0x27FE = some (.setpal 254#8 0#16) := by decide

theorem test_fetch_runs_the_word :
    (match step (State.reset.withFetchWord 16 0x2800) with
      | .next t => decide (t.fb.st = .treq ∧ received t = [.ack])
      | .fault _ => false
      | .refused _ => false) = true := by decide

/-! ## Unit RB (95_test_vectors.md, section 2.2) -/

/-- RB1. -/
theorem test_append_before_attach :
    received (ran cfgRb [.append 1#64, .attach 0#8, .count 0#8]) = [.ack, .ack, .num 16 0] ∧
      (ran cfgRb [.append 1#64, .attach 0#8, .count 0#8]).rb.wr = 1 := by decide

/-- RB4. -/
theorem test_append_overwrites :
    received (ran cfgRb [.attach 0#8, .append 1#64, .append 2#64, .append 3#64, .append 4#64, .append 5#64,
      .append 6#64, .count 0#8, .drops 0#8, .read 0#8]) =
      [.ack, .ack, .ack, .ack, .ack, .ack, .ack, .num 16 4, .num 2 2, .val 3#64] := by decide

/-- RB7. -/
theorem test_attach_again :
    received (ran cfgRb [.attach 0#8, .append 1#64, .append 2#64, .append 3#64, .attach 0#8, .count 0#8]) =
      [.ack, .ack, .ack, .ack, .ack, .num 16 0] := by decide

/-- RB18. -/
theorem test_attach_bad_reader : received (ran cfgRb [.attach 2#8]) = [.err 0x010202#24] := by decide

/-- RB15. -/
theorem test_count_not_attached : received (ran cfgRb [.count 1#8]) = [.err 0x020103#24] := by decide

/-- RB16. -/
theorem test_read_empty : received (ran cfgRb [.attach 0#8, .read 0#8]) = [.ack, .err 0x030004#24] := by decide

/-- RB9. -/
theorem test_consume_empty :
    received (ran cfgRb [.attach 0#8, .consume 0#8]) = [.ack, .burst 0 []] := by decide

/-- RB11: an APPEND between the issue of CONSUME and its first beat. -/
theorem test_consume_with_overflow :
    let s := { ran { cfgRb with rbN := 2 } [.attach 0#8, .append 10#64, .append 11#64, .consume 0#8] with
      env := { Env.reset with agents := [{ idleAgent with work := .burst 0 2 [] }, idleAgent], issuer := 1 } }
    let t := beats 0 2 ((execAll [.append 12#64] s).getD s)
    received t = [.burst 2 [11#64, 12#64]] ∧ (t.rb.reader 0).cnt = 0 ∧ (t.rb.reader 0).drops = 1 := by decide

/-- RB13: COUNT is held while the burst is in progress. -/
theorem test_count_held :
    (ran cfgRb [.attach 0#8, .append 1#64, .consume 0#8, .count 0#8]).env.agents.map Agent.held = [true] := by decide

/-- RB5. -/
theorem test_drops_saturate :
    received (ran { cfgRb with rbN := 1 } [.attach 0#8, .append 1#64, .append 2#64, .append 3#64, .append 4#64,
      .append 5#64, .append 6#64, .drops 0#8]) =
      [.ack, .ack, .ack, .ack, .ack, .ack, .ack, .num 2 3] := by decide

/-! ## Unit SE (95_test_vectors.md, section 2.3) -/

/-- SE3: the cadence, and the window after COMPUTE. -/
theorem test_feed_cadence :
    received (ran Config.initial [.feed 0x3F800000#32 0#32, .feed 0x40000000#32 0#32]) =
      [.bool false, .bool true] := by decide

theorem test_compute_window :
    window (ran Config.initial [.feed 0x3F800000#32 0#32, .feed 0x40000000#32 0#32, .compute]) =
      [0#32, 0#32, 0#32, 0#32, 0x3F800000#32, 0#32, 0x40000000#32, 0#32] := by decide

/-- P3: the windowed samples after step 3 are (0,0), (0,0), (1,0), (1,0). -/
theorem test_compute_windowed :
    work (ran Config.initial [.feed 0x3F800000#32 0#32, .feed 0x40000000#32 0#32]).shiftWindow.refill.window =
      [0#32, 0#32, 0#32, 0#32, 0x3F800000#32, 0#32, 0x3F800000#32, 0#32] := by decide

/-- SE11. -/
theorem test_compute_not_armed : received (ran Config.initial [.compute]) = [.err 0x110005#24] := by decide

/-- R251, the worked example of NORM. -/
theorem test_postprocess_norm :
    (execAll [.postprocess] (withWork cfgNorm)).map work =
      some [0x3F000000#32, 0x0#32, 0xBE800000#32, 0x3E800000#32, 0x0#32, 0x0#32, 0xBE800000#32, 0xBE800000#32] := by
  decide +kernel

/-- R247, the worked example of POWER. -/
theorem test_postprocess_power :
    (execAll [.postprocess] (withWork cfgPower)).map work =
      some [0x40800000#32, 0x40000000#32, 0x0#32, 0x40000000#32, 0x0#32, 0x0#32, 0xBF800000#32, 0xBF800000#32] := by
  decide +kernel

/-- SE5. -/
theorem test_copyfft_wrong_size : received (ran Config.initial [.copyfft 4#32]) = [.err 0x130007#24] := by decide

/-- R253: the words in order. -/
theorem test_copyfft :
    (execAll [.copyfft 8#32] (withWork cfgNorm)).map received =
      some [.words [0x40000000#32, 0x0#32, 0xBF800000#32, 0x3F800000#32, 0x0#32, 0x0#32, 0xBF800000#32,
        0xBF800000#32]] := by decide

/-! ## Unit FB (95_test_vectors.md, section 2.4) -/

/-- FB1 and FB2. -/
theorem test_pixel :
    rows (ran Config.initial [.pixel 1#16 0#16 2#8]) = [[0, 2, 0, 0], [0, 0, 0, 0]] ∧
      rows (ran Config.initial [.pixel 0xFFFF#16 0#16 2#8, .pixel 4#16 0#16 2#8, .pixel 0#16 2#16 2#8]) =
        [[0, 0, 0, 0], [0, 0, 0, 0]] := by decide

/-- FB3: the first of two pixel steps, then the rest. -/
theorem test_hline :
    rows (drawn (ran Config.initial [.hline 0xFFFF#16 0#16 3#16 1#8])) = [[1, 1, 0, 0], [0, 0, 0, 0]] ∧
      received (drawn (ran Config.initial [.hline 0xFFFF#16 0#16 3#16 1#8])) = [.ack] := by decide

/-- FB7. -/
theorem test_vline :
    rows (drawn (ran Config.initial [.vline 0#16 0xFFFF#16 2#16 4#8])) = [[4, 0, 0, 0], [0, 0, 0, 0]] := by decide

/-- FB13. -/
theorem test_circle :
    rows (drawn (ran (cfgSquare 5) [.circle 2#16 2#16 1#16 1#8])) =
      [[0, 0, 0, 0, 0], [0, 0, 1, 0, 0], [0, 1, 0, 1, 0], [0, 0, 1, 0, 0], [0, 0, 0, 0, 0]] := by decide

/-- FB8 and FB9. -/
theorem test_blit :
    rows (drawn (ran Config.initial [.blit 0#16 0#16 2#16 1#16 [1#8, 2#8]])) = [[1, 2, 0, 0], [0, 0, 0, 0]] ∧
      rows (drawn (ran Config.initial [.blit 3#16 1#16 2#16 2#16 [1#8, 2#8, 3#8, 4#8]])) =
        [[0, 0, 0, 0], [0, 0, 0, 1]] := by decide

/-- R292: every row but the last takes the row below it. -/
theorem test_vscroll :
    rows (drawn (ran Config.initial [.pixel 1#16 1#16 7#8, .vscroll])) = [[0, 7, 0, 0], [0, 7, 0, 0]] := by decide

/-- R284: a pixel that is set is cleared. -/
theorem test_clear : rows (drawn (ran Config.initial [.pixel 3#16 1#16 7#8, .clear])) =
    [[0, 0, 0, 0], [0, 0, 0, 0]] := by decide

/-- FB17 and FB18. -/
theorem test_setpal :
    (ran Config.initial [.setpal 2#8 0xF800#16]).palEntry 2 = 0xF800#16 ∧
      received (ran Config.initial [.setpal 0#8 0#16]) = [.err 0x270008#24] := by decide

/-- FB19 and FB20. -/
theorem test_update_and_ready :
    received (ran Config.initial [.ready, .update, .ready]) = [.bool true, .ack, .bool false] := by decide

/-- P4: the two lines of the frame. -/
theorem test_frame_line :
    let s := ran Config.initial [.setpal 2#8 0xF800#16, .pixel 1#16 0#16 2#8, .pixel 3#16 1#16 1#8, .update]
    s.frameLine 0 = [0x00#8, 0x00#8, 0xF8#8, 0x00#8, 0x00#8, 0x00#8, 0x00#8, 0x00#8] ∧
      s.frameLine 1 = [0x00#8, 0x00#8, 0x00#8, 0x00#8, 0x00#8, 0x00#8, 0xFF#8, 0xFF#8] := by decide

/-- F5: a fault stops the frame where it is. -/
theorem test_fault_stops_the_frame :
    let s := pipeline 3 (ran Config.initial [.update])
    let t := (execAll [.copyfft 0#32] s).getD s
    t.fb.st = .tx ∧ t.fb.xp = 2 ∧ t.schedEnabled = none ∧ t.blk = ⟨true, 0x07#8, 0x1300#16⟩ := by decide

/-! ## Arithmetic (R25, R237): 1 + 2^-24 is a tie, 2^127 * 2 overflows, 2^-149 / 2 is a tie to zero -/

theorem test_rounding :
    f32Add 0#32 0x3F800000#32 0x33800000#32 = 0x3F800000#32 ∧ f32Add 0#32 0x3F800001#32 0x33800000#32 = 0x3F800002#32 ∧
      f32Mul 0#32 0x7F000000#32 0x40000000#32 = 0x7F800000#32 ∧ f32DivPow2 0#32 0x00000001#32 1 = 0#32 := by decide

/-! ## Checks that establish the invariants of a concrete state -/

def portCheck (p : RingParams) (q : Reader) : Bool :=
  decide (q.cnt ≤ p.cap ∧ q.br ≤ q.cnt ∧ (q.att = false → q.cnt = 0 ∧ q.br = 0 ∧ q.drops = 0) ∧
    (p.hasDrops = false → q.drops = 0) ∧ q.drops < 2 ^ p.dropW)

def ringCheck (p : RingParams) (n : Nat) (g : Ring) : Bool :=
  decide (g.wr < p.cap ∧ g.readers.length = n) && g.readers.all (portCheck p)

def workCheck (c : Config) (a : Agent) : Bool :=
  match a.work with
  | .draw todo => todo.all fun p => decide (p.x < c.fbW ∧ p.y < c.fbH)
  | .idle => true
  | .burst _ _ _ => true

def blockCheck (s : State) : Bool :=
  s.cfg.valid && s.mem.wf && s.mem.inRange s.cfg && s.mem.rbData.all (fun e => decide (e.2.toNat < 2 ^ s.cfg.rbTw)) &&
    ringCheck (rbParams s.cfg) s.cfg.rbR s.rb && ringCheck (stgParams s.cfg) 1 s.se.stg &&
    s.se.stg.readers.all (fun q => decide (q.att = true ∧ q.br = 0)) &&
    decide (s.se.phase < s.cfg.seOv ∧ s.fb.cur ≤ s.cfg.lineCount ∧ s.fb.xp ≤ s.cfg.lineLen ∧
      (s.fb.st ≠ .tx → s.fb.pend = false ∧ s.fb.cur = 0 ∧ s.fb.ls = .convert) ∧
      (s.fb.ls = .convert → s.fb.xp < s.cfg.lineLen) ∧
      (s.fb.ls = .send → s.fb.xp = s.cfg.lineLen ∧ s.fb.cur < s.cfg.lineCount) ∧
      (s.fb.ls = .wait → s.fb.xp = s.cfg.lineLen ∧ s.fb.cur < s.cfg.lineCount)) &&
    decide (s.blk = FaultRecord.reset) && s.env.agents.all (workCheck s.cfg)

theorem ringInv_of_check {p : RingParams} {n : Nat} {g : Ring} (h : ringCheck p n g = true) : RingInv p n g := by
  simp only [ringCheck, Bool.and_eq_true, decide_eq_true_eq, List.all_eq_true] at h
  refine ⟨h.1.1, h.1.2, fun q hq => ?_⟩
  obtain ⟨h1, h2, h3, h4, h5⟩ := by simpa only [portCheck, decide_eq_true_eq] using h.2 q hq
  exact ⟨h1, h2, h3, h4, h5⟩

theorem blockInv_of_check {s : State} (h : blockCheck s = true) : BlockInv s := by
  simp only [blockCheck, Bool.and_eq_true, decide_eq_true_eq, List.all_eq_true] at h
  obtain ⟨⟨⟨⟨⟨⟨⟨⟨⟨h1, h2⟩, h3⟩, h4⟩, h5⟩, h6⟩, h7⟩, h8⟩, h9⟩, h10⟩ := h
  obtain ⟨p1, p2, p3, p4, p5, p6, p7⟩ := h8
  refine ⟨h1, h2, h3, h4, ringInv_of_check h5, ringInv_of_check h6, h7, p1, ⟨p2, p3, p4, p5, p6, p7⟩, ?_, ?_⟩
  · rw [h9]; exact ⟨fun _ => ⟨rfl, rfl⟩, fun h => by cases h⟩
  · intro a ha todo hw p hp
    have := h10 a ha
    simp only [workCheck, hw, List.all_eq_true, decide_eq_true_eq] at this
    exact this p hp

/-- Two elements pending for reader 0 of two, a burst of both in progress, a frame being converted. -/
def busy : State :=
  let s := ran Config.initial [.update, .attach 0#8, .append 1#64, .append 2#64, .consume 0#8]
  { pipeline 2 s with env := { s.env with agenda := [.beat 0, .sched] } }

theorem busy_blockInv : BlockInv busy := blockInv_of_check (by decide)

theorem busy_burstInv : BurstInv busy := by
  have hag : busy.env.agents = [{ idleAgent with pos := 5, work := .burst 0 2 [], inbox := [.ack, .ack, .ack, .ack] }] := by
    decide
  have hr : busy.rb.readers = [{ att := true, cnt := 2, drops := 0, br := 2 }, Reader.reset] := by decide
  have hbr : ∀ r, (busy.rb.reader r).br = if r = 0 then 2 else 0 := by
    intro r
    unfold Ring.reader
    rw [hr]
    match r with
    | 0 => rfl
    | 1 => rfl
    | n + 2 => rfl
  have hf : busy.blk.faulted = false := by decide
  constructor
  · intro _ a ha r k vs hw
    rw [hag, List.mem_singleton] at ha
    subst ha
    cases hw
    rw [hbr]
    exact ⟨by decide, rfl⟩
  · intro _ r hb
    rw [hbr] at hb
    split at hb
    · subst r
      exact ⟨_, by rw [hag]; exact List.mem_singleton_self _, 2, [], rfl⟩
    · cases hb
  · intro t u a b r k l vs ws ha hb _ _
    rw [hag] at ha hb
    have ht := (List.getElem?_eq_some_iff.1 ha).1
    have hu := (List.getElem?_eq_some_iff.1 hb).1
    simp only [List.length_singleton] at ht hu
    omega
  · intro h; rw [hf] at h; cases h

theorem busy_writtenInv : WrittenInv busy := by
  have hr : busy.rb.readers = [{ att := true, cnt := 2, drops := 0, br := 2 }, Reader.reset] := by decide
  constructor
  · intro r j hj
    match r with
    | 0 =>
      have h2 : j < 2 := hj
      have : ∀ k, k < 2 →
          Cells.find? busy.mem.rbData ((busy.rb.readAddr busy.cfg.rbN 0 + k) % busy.cfg.rbN) ≠ none := by decide
      exact this j h2
    | n + 1 =>
      have h0 : (busy.rb.reader (n + 1)).cnt = 0 := by
        unfold Ring.reader
        rw [hr]
        match n with
        | 0 => rfl
        | m + 1 => rfl
      omega
  · intro j hj
    have : (busy.se.stg.reader 0).cnt = 0 := by decide
    omega
  · intro _ j hj
    have hx : busy.fb.xp = 1 := by decide
    have : ∀ k, k < 2 → Cells.find? busy.mem.line k ≠ none := by decide
    exact this j (by omega)

/-- R155, R156: 5.0 is 0x40A00000 and -0.25 is 0xBE800000 (95_test_vectors.md); 0.1 is 0x3DCCCCCD by hand. -/
theorem test_decimal_literals :
    pseudoAppendf false 50 1 = .append 0x40A00000#64 ∧ f32OfDecimal true 25 2 = 0xBE800000#32 ∧
      f32OfDecimal false 1 1 = 0x3DCCCCCD#32 ∧ pseudoFeedr 0x3F800000#32 = .feed 0x3F800000#32 0#32 := by decide +kernel

/-! ## For every statement with hypotheses, a state that meets them, clause by clause -/

/-- Reader 0 of two attached, two elements pending, no burst. -/
def pendingTwo : State := ran Config.initial [.attach 0#8, .append 1#64, .append 2#64]

/-- Reader 0 full. -/
def fullRing : State := ran Config.initial [.attach 0#8, .append 1#64, .append 2#64, .append 3#64, .append 4#64]

/-- A faulted block. -/
def stopped : State := ran Config.initial [.compute]

/-- A block that COMPUTE finds armed. -/
def armedBlock : State := ran Config.initial [.feed 0x3F800000#32 0#32, .feed 0x40000000#32 0#32]

/-- An agent about to issue UPDATE, which the agenda lets it do. -/
def aboutToUpdate : State :=
  { State.reset with
    env := { Env.reset with agents := [Agent.ofPacket (encode .update)], agenda := [.issue 0 0] } }

/-- Two agents that both issue UPDATE. -/
def twoDisplays : State :=
  { State.reset with env := { Env.reset with
      agents := [Agent.ofPacket (encode .update), Agent.ofPacket (encode .update)] } }

theorem test_meets_DecodeOfEncodeIsInstruction :
    (Instr.append 0xFF#64).wellFormed cfgRb = true ∧ (Instr.attach 255#8).wellFormed cfgRb = true ∧
      (Instr.blit 0x8000#16 0xFFFF#16 2#16 1#16 [0#8, 255#8]).wellFormed Config.initial = true := by decide

theorem test_meets_DecodedCommandHasThePacketsWord :
    decode Config.initial ⟨0x27FF#16, 0xFFFF⟩ = .instr (.setpal 255#8 0xFFFF#16) := by decide

theorem test_meets_IllegalWordsFault :
    (fresh Config.initial).blk.faulted = false ∧
      decode (fresh Config.initial).cfg ⟨0x0001#16, 0⟩ = .illegal .selNotZero := by decide

theorem test_meets_ResponseReachesTheIssuerOnly :
    twoDisplays.env.agents[twoDisplays.env.issuer]? = some (Agent.ofPacket (encode .update)) ∧
      1 ≠ twoDisplays.env.issuer := by decide

theorem test_meets_StepRunsTheDecodedCommand :
    aboutToUpdate.cfg.valid = true ∧ aboutToUpdate.owned = true ∧ aboutToUpdate.blk.faulted = false ∧
      aboutToUpdate.nextMove = .issue 0 0 ∧ aboutToUpdate.fetch 0 = some (encode .update) ∧
      decode aboutToUpdate.cfg (encode .update) = .instr .update := by decide

theorem test_meets_CommandEntryInOrder :
    stopped.blk.faulted = true ∧ busy.blk.faulted = false ∧ decode busy.cfg ⟨0x0600#16, 0⟩ = .illegal .reservedOp ∧
      decode busy.cfg ⟨0x0200#16, 0⟩ = .instr (.count 0#8) ∧ (Instr.count 0#8).reader? = some 0 ∧ 0 < busy.cfg.rbR ∧
      0 < (busy.rb.reader 0).br ∧ decode busy.cfg ⟨0x0201#16, 0⟩ = .instr (.count 1#8) ∧ (busy.rb.reader 1).br = 0 ∧
      (fresh Config.initial).env.agents[(fresh Config.initial).env.issuer]? = some idleAgent ∧
      idleAgent.work = .idle := by decide

theorem test_meets_OnlyTheTwoRefusals :
    { Config.initial with rbN := 32768 }.valid = false ∧ twoDisplays.cfg.valid = true ∧ twoDisplays.owned = false ∧
      aboutToUpdate.cfg.valid = true ∧ aboutToUpdate.owned = true := by decide

theorem test_meets_OwnershipIsOneAgentPerRole :
    twoDisplays.cfg.valid = true ∧ step twoDisplays = .refused .ownershipBroken := ⟨by decide, rfl⟩

theorem test_meets_FirstConditionInTheTableFaults :
    stopped.blk.faulted = true ∧ (∃ t, issue ⟨0x0300#16, 0⟩ stopped = .next t) ∧ busy.blk.faulted = false ∧
      firstFault ⟨0x0302#16, 0⟩ busy = some .badReader ∧ firstFault ⟨0x0301#16, 0⟩ busy = some .notAttached ∧
      firstFault ⟨0x0600#16, 0⟩ busy = some .illegalCommand ∧ firstFault ⟨0x0300#16, 0⟩ busy = none ∧
      ∃ t, issue ⟨0x0301#16, 0⟩ busy = .next t :=
  ⟨by decide, ⟨_, rfl⟩, by decide, by decide, by decide, by decide, by decide, ⟨_, rfl⟩⟩

theorem test_meets_FaultedBlockAnswersErr :
    stopped.blk.faulted = true ∧ (fresh Config.initial).env.agents[(fresh Config.initial).env.issuer]? = some idleAgent ∧
      idleAgent.work = .idle := by decide

theorem test_meets_FaultRecordIsNeverOverwritten :
    let s := { stopped with env := { stopped.env with agenda := [.sched] } }
    let u := { stopped with env := { stopped.env with agenda := [.reset] } }
    s.blk.faulted = true ∧ (∃ t, step s = .next t) ∧ s.nextMove ≠ .reset ∧ u.blk.faulted = true ∧
      (∃ t, step u = .next t) ∧ u.nextMove = .reset :=
  ⟨by decide, ⟨_, rfl⟩, by decide, by decide, ⟨_, rfl⟩, by decide⟩

theorem test_meets_FaultStopsEveryActivity :
    let a := { idleAgent with work := .burst 0 2 [1#64], held := true }
    let s := { busy with env := { busy.env with agents := [idleAgent, a, { idleAgent with work := .draw [⟨0, 0, 1#8⟩] }] } }
    1 ≠ s.env.issuer ∧ s.env.agents[1]? = some a ∧ s.env.agents[2]?.isSome = true ∧ stopped.blk.faulted = true := by
  decide

theorem test_meets_NoFaultOfTheirOwn :
    neverFaults .postprocess = true ∧ Instr.present busy.cfg .postprocess = true ∧
      ∃ t, exec .postprocess busy = .next t := ⟨by decide, by decide, ⟨_, rfl⟩⟩

theorem test_meets_ResetValues :
    State.reset = State.resetWith Config.initial ∧ ∃ u : State, u.cfg = Config.initial ∧ u.blk.faulted = true :=
  ⟨rfl, stopped, by decide, by decide⟩

theorem test_meets_ResetAbandonsEverything :
    let s := { busy with env := { busy.env with agenda := [.reset] } }
    s.cfg.valid = true ∧ s.owned = true ∧ s.nextMove = .reset := by decide

theorem test_meets_ResetMeetsTheInvariants : Config.initial.valid = true := by decide

theorem test_meets_StepKeepsBlockInv : BlockInv busy ∧ ∃ t, step busy = .next t := ⟨busy_blockInv, ⟨_, rfl⟩⟩

theorem test_meets_StepKeepsBurstInv : BlockInv busy ∧ BurstInv busy ∧ ∃ t, step busy = .next t :=
  ⟨busy_blockInv, busy_burstInv, ⟨_, rfl⟩⟩

theorem test_meets_StepKeepsWrittenInv :
    BlockInv busy ∧ WrittenInv busy ∧ (∃ t, step busy = .next t) ∧ busy.nextMove ≠ .reset :=
  ⟨busy_blockInv, busy_writtenInv, ⟨_, rfl⟩, by decide⟩

theorem test_meets_AppendWritesCountsAndAdvances :
    fullRing.blk.faulted = false ∧ (fullRing.rb.reader 0).cnt = fullRing.cfg.rbN := by decide

theorem test_meets_AttachClearsTheReader :
    busy.blk.faulted = false ∧ busy.cfg.rbR ≤ (2#8).toNat ∧ (0#8).toNat < busy.cfg.rbR ∧
      0 < (busy.rb.reader 0).br ∧ (1#8).toNat < busy.cfg.rbR ∧ busy.rb.readers.length = busy.cfg.rbR ∧
      (busy.rb.reader 1).br = 0 := by decide

theorem test_meets_CountAnswersThePendingCount :
    pendingTwo.blk.faulted = false ∧ (0#8).toNat < pendingTwo.cfg.rbR ∧ (pendingTwo.rb.reader (0#8).toNat).att = true ∧
      (pendingTwo.rb.reader (0#8).toNat).br = 0 := by decide

/-- The clauses that READ, COUNT, CONSUME and DROPS share: an absent port, a busy one, one that is not attached. -/
theorem test_meets_the_reader_clauses :
    busy.blk.faulted = false ∧ busy.rb.readers.length = busy.cfg.rbR ∧ busy.cfg.rbHasDrops = true ∧
      busy.cfg.rbR ≤ (2#8).toNat ∧
      ((0#8).toNat < busy.cfg.rbR ∧ 0 < (busy.rb.reader (0#8).toNat).br) ∧
      ((1#8).toNat < busy.cfg.rbR ∧ (busy.rb.reader (1#8).toNat).br = 0 ∧
        (busy.rb.reader (1#8).toNat).att = false) := by decide

theorem test_meets_ReadRemovesTheOldest :
    let e := ran Config.initial [.attach 1#8]
    (e.blk.faulted = false ∧ (1#8).toNat < e.cfg.rbR ∧ e.rb.readers.length = e.cfg.rbR ∧ (e.rb.reader 1).att = true ∧
      (e.rb.reader 1).br = 0 ∧ (e.rb.reader 1).cnt = 0) ∧
    pendingTwo.blk.faulted = false ∧ (0#8).toNat < pendingTwo.cfg.rbR ∧
      pendingTwo.rb.readers.length = pendingTwo.cfg.rbR ∧ (pendingTwo.rb.reader 0).att = true ∧
      (pendingTwo.rb.reader 0).br = 0 ∧ 0 < (pendingTwo.rb.reader 0).cnt := by decide

theorem test_meets_ConsumeStartsABurst :
    let e := ran Config.initial [.attach 1#8]
    (e.blk.faulted = false ∧ (1#8).toNat < e.cfg.rbR ∧ e.rb.readers.length = e.cfg.rbR ∧ (e.rb.reader 1).att = true ∧
      (e.rb.reader 1).br = 0 ∧ (e.rb.reader 1).cnt = 0) ∧
    pendingTwo.blk.faulted = false ∧ pendingTwo.rb.readers.length = pendingTwo.cfg.rbR ∧
      (pendingTwo.rb.reader 0).att = true ∧ (pendingTwo.rb.reader 0).br = 0 ∧ 0 < (pendingTwo.rb.reader 0).cnt := by
  decide

theorem test_meets_BeatDeliversTheOldest :
    stopped.blk.faulted = true ∧ (busy.rb.reader 1).br = 0 ∧ busy.blk.faulted = false ∧ 0 < (busy.rb.reader 0).br ∧
      ((busy.env.agents[0]?).map Agent.work = some (.burst 0 2 [])) ∧ ((busy.beat 0).rb.reader 0).br = 1 := by decide

theorem test_meets_DropsAnswersTheCounter :
    let n := fresh { Config.initial with rbHasDrops := false }
    n.blk.faulted = false ∧ n.cfg.rbHasDrops = false ∧ pendingTwo.blk.faulted = false ∧
      pendingTwo.cfg.rbHasDrops = true ∧ (0#8).toNat < pendingTwo.cfg.rbR ∧ (pendingTwo.rb.reader 0).att = true ∧
      (pendingTwo.rb.reader 0).br = 0 := by decide

theorem test_meets_ReaderChecksInOrder :
    busy.blk.faulted = false ∧ (Instr.drops 2#8).present busy.cfg = true ∧ (Instr.drops 2#8).reader? = some 2 ∧
      busy.cfg.rbR ≤ 2 ∧ (Instr.drops 1#8).reader? = some 1 ∧ 1 < busy.cfg.rbR ∧ (busy.rb.reader 1).br = 0 ∧
      (busy.rb.reader 1).att = false ∧ (Instr.attach 1#8).reader? = some 1 := by decide

theorem test_meets_OnlyBusyReadersHold :
    (busy.blk.faulted = false ∧ (Instr.read 0#8).present busy.cfg = true ∧ (Instr.read 0#8).reader? = some 0 ∧
      0 < busy.cfg.rbR ∧ 0 < (busy.rb.reader 0).br ∧ busy.env.agents[busy.env.issuer]?.isSome = true) ∧
    (Instr.append 7#64).reader? = none ∧ ∃ t, exec (.append 7#64) busy = .next t :=
  ⟨by decide, by decide, ⟨_, rfl⟩⟩

theorem pendingTwo_blockInv : BlockInv pendingTwo := blockInv_of_check (by decide)

theorem fullRing_blockInv : BlockInv fullRing := blockInv_of_check (by decide)

theorem test_meets_ReaderIsABoundedQueue :
    (BlockInv pendingTwo ∧ pendingTwo.blk.faulted = false ∧ (∃ t, exec (.append 3#64) pendingTwo = .next t) ∧
      (pendingTwo.rb.reader (0#8).toNat).br = 0 ∧
      (∃ t, exec (.read 0#8) pendingTwo = .next t ∧ t.blk.faulted = false) ∧
      ∃ t, exec (.attach 0#8) pendingTwo = .next t ∧ t.blk.faulted = false) ∧
    BlockInv busy ∧ busy.blk.faulted = false ∧ 0 < (busy.rb.reader 0).br ∧
      ∃ t, exec .clear busy = .next t :=
  ⟨⟨pendingTwo_blockInv, by decide, ⟨_, rfl⟩, by decide, ⟨_, rfl, by decide⟩, ⟨_, rfl, by decide⟩⟩,
    busy_blockInv, by decide, by decide, ⟨_, rfl⟩⟩

theorem test_meets_OverwriteOnFullDropsTheOldest :
    BlockInv fullRing ∧ fullRing.blk.faulted = false ∧ (fullRing.rb.reader 0).att = true ∧
      (fullRing.rb.reader 0).cnt = fullRing.cfg.rbN ∧ ∃ t, exec (.append 5#64) fullRing = .next t :=
  ⟨fullRing_blockInv, by decide, by decide, by decide, ⟨_, rfl⟩⟩

/-- The other reader of the last clause: reader 1 is attached later than reader 0, and is not full. -/
theorem test_meets_OverwriteOnFullDropsTheOldest_other :
    let s := ran Config.initial [.attach 0#8, .append 1#64, .append 2#64, .append 3#64, .attach 1#8, .append 4#64]
    BlockInv s ∧ (s.rb.reader 0).cnt = s.cfg.rbN ∧ 1 ≠ 0 ∧ (s.rb.reader 1).att = true ∧
      (s.rb.reader 1).cnt < s.cfg.rbN :=
  ⟨blockInv_of_check (by decide), by decide, by decide, by decide, by decide⟩

/-- A CONSUME whose two beats deliver, with an APPEND between them, then a READ and an overwrite. -/
theorem test_meets_FifoUnderEveryInterleaving :
    let s := ran { Config.initial with rbN := 2 } [.attach 0#8]
    let c : Instr → Event := .command 0 0
    let events := [c (.append 1#64), c (.append 2#64), c (.append 3#64), c (.consume 0#8), .beat 0, c (.append 4#64),
      .beat 0, c (.read 0#8), c (.append 5#64), .sched, c (.append 6#64), c (.append 7#64)]
    BlockInv s ∧ (s.rb.reader (0#8).toNat).att = true ∧ (∀ e ∈ events, e.instr? ≠ some (.attach 0#8)) ∧
      (runEvents events s).blk.faulted = false ∧ receivedValues 0#8 events s = [2#64, 3#64, 4#64] ∧
      (runEvents events s).pending 0 = [6#64, 7#64] :=
  ⟨blockInv_of_check (by decide), by decide, by decide, by decide, by decide, by decide⟩

/-- A first state inside a burst. -/
theorem test_meets_FifoUnderEveryInterleaving_burst :
    BlockInv busy ∧ (busy.rb.reader (0#8).toNat).att = true ∧ (runEvents [.beat 0] busy).blk.faulted = false ∧
      (receivedValues 0#8 [.beat 0] busy).length = 1 :=
  ⟨busy_blockInv, by decide, by decide, by decide⟩

theorem test_meets_ConsumeDeliversWhatReadsWould :
    BlockInv pendingTwo ∧ pendingTwo.blk.faulted = false ∧ (0#8).toNat < pendingTwo.cfg.rbR ∧
      (pendingTwo.rb.reader (0#8).toNat).att = true ∧ (pendingTwo.rb.reader (0#8).toNat).br = 0 ∧
      (∃ a, pendingTwo.env.agents[pendingTwo.env.issuer]? = some a ∧ a.work = .idle) ∧
      ∃ t, exec (.consume 0#8) pendingTwo = .next t :=
  ⟨pendingTwo_blockInv, by decide, by decide, by decide, by decide, ⟨_, rfl, rfl⟩, ⟨_, rfl⟩⟩

theorem test_meets_DropCounterSaturates :
    BlockInv fullRing ∧ fullRing.blk.faulted = false ∧ fullRing.cfg.rbHasDrops = true ∧
      (fullRing.rb.reader 0).att = true ∧ (fullRing.rb.reader 0).cnt = fullRing.cfg.rbN :=
  ⟨fullRing_blockInv, by decide, by decide, by decide, by decide⟩

theorem test_meets_FeedStagesOneSample : busy.blk.faulted = false := by decide

theorem test_meets_FeedAnswersTrueEveryOverlap :
    let s := runEvents [.command 0 0 (.feed 0#32 0#32), .command 0 0 (.copyfft 8#32), .sched] (fresh Config.initial)
    Config.initial.valid = true ∧ SameBlock (State.resetWith Config.initial) (fresh Config.initial) ∧
      s.blk.faulted = false ∧ s.env.agents[0]?.isSome = true :=
  ⟨by decide, ⟨rfl, rfl, rfl, rfl, rfl, rfl⟩, by decide, by decide⟩

theorem test_meets_ComputePreconditions :
    let u := { armedBlock with se := { armedBlock.se with stg := armedBlock.se.stg.dropOldest 0 } }
    busy.blk.faulted = false ∧ busy.se.armed = false ∧ u.blk.faulted = false ∧ u.se.armed = true ∧
      (u.se.stg.reader 0).cnt < u.cfg.seOv := by decide

theorem test_meets_ComputeSlidesWindowsAndTransforms :
    BlockInv armedBlock ∧ armedBlock.blk.faulted = false ∧ armedBlock.se.armed = true ∧
      armedBlock.cfg.seOv ≤ (armedBlock.se.stg.reader 0).cnt :=
  ⟨blockInv_of_check (by decide), by decide, by decide, by decide⟩

/-- FEEDs beyond the cadence: with room for three, a third sample is staged before the COMPUTE. -/
theorem test_meets_WindowHoldsTheLastSamples :
    let c := { Config.initial with seS := 3 }
    let f : BitVec 32 → Event := fun re => .command 0 0 (.feed re 0#32)
    let events := [f 1#32, f 2#32, f 3#32, .command 0 0 .compute, f 4#32]
    c.valid = true ∧ SameBlock (State.resetWith c) (fresh c) ∧
      (runEvents events (fresh c)).blk.faulted = false ∧ neverDropsASample events (fresh c) = true ∧
      computeCount events = 1 ∧ ((runEvents events (fresh c)).se.stg.reader 0).cnt = 2 :=
  ⟨by decide, ⟨rfl, rfl, rfl, rfl, rfl, rfl⟩, by decide, by decide, by decide, by decide⟩

theorem test_meets_PostprocessPerVariant :
    (fresh { Config.initial with seVariant := .none }).blk.faulted = false ∧
      (fresh cfgNorm).blk.faulted = false ∧ (fresh cfgNorm).cfg.seVariant = .norm ∧
      (fresh cfgPower).blk.faulted = false ∧ (fresh cfgPower).cfg.seVariant = .power ∧
      busy.blk.faulted = false ∧ busy.cfg.seVariant = .normPower := by decide

theorem test_meets_CopyfftExportsTheTransform :
    busy.blk.faulted = false ∧ (7#32).toNat ≠ 2 * busy.cfg.seN ∧ (8#32).toNat = 2 * busy.cfg.seN := by decide

/-- One and a half units in the last place at the overflow bound, and just below it. -/
theorem test_meets_RoundsToNearestTiesToEven :
    0 < 2 ^ 25 - 1 ∧ ((2 : ℚ) ^ 24 - 1 / 2) * 2 ^ 104 ≤ ((2 ^ 25 - 1 : Nat) : ℚ) * (2 : ℚ) ^ (103 : Int) ∧
      ((2 ^ 24 - 1 : Nat) : ℚ) * (2 : ℚ) ^ (104 : Int) < ((2 : ℚ) ^ 24 - 1 / 2) * 2 ^ 104 := by
  refine ⟨by norm_num, by norm_num, by norm_num⟩

theorem test_meets_ArithmeticRoundsOnce :
    f32IsNaN 0x7FC00000#32 = true ∧ f32IsFinite 0x7F7FFFFF#32 = true ∧ f32IsFinite 0x80000001#32 = true := by decide

theorem test_meets_DrawingStartsWithOnePixel :
    multiPixel (.hline 0#16 0#16 2#16 1#8) = true ∧ busy.blk.faulted = false := by decide

theorem test_meets_DrawingEndsTheSameInEveryOrder :
    multiPixel (.circle 1#16 1#16 1#16 1#8) = true ∧ pendingTwo.blk.faulted = false ∧
      (∃ a, pendingTwo.env.agents[pendingTwo.env.issuer]? = some a ∧ a.work = .idle) ∧
      (∃ t, exec (.circle 1#16 1#16 1#16 1#8) pendingTwo = .next t) ∧
      pendingTwo.cfg.fbW * pendingTwo.cfg.fbH ≤ [5, 3, 0, 7, 1, 2, 2, 9].length :=
  ⟨by decide, by decide, ⟨_, rfl, rfl⟩, ⟨_, rfl⟩, by decide⟩

theorem test_meets_PixelWritesOnePixel :
    busy.blk.faulted = false ∧ 3 < busy.cfg.fbW ∧ 1 < busy.cfg.fbH ∧
      ¬ (0 ≤ (4#16).toInt ∧ (4#16).toInt < busy.cfg.fbW ∧ 0 ≤ (0#16).toInt ∧ (0#16).toInt < busy.cfg.fbH) := by decide

theorem test_meets_DrawingTouchesNoSchedulerState :
    multiPixel .vscroll = true ∧ (∃ t, exec .vscroll busy = .next t) ∧ ∃ t, exec (.pixel 0#16 0#16 1#8) busy = .next t :=
  ⟨by decide, ⟨_, rfl⟩, ⟨_, rfl⟩⟩

theorem test_meets_SetpalWritesOneEntry :
    busy.blk.faulted = false ∧ (0#8).toNat = 0 ∧ (1#8).toNat = 1 ∧ 2 ≤ (2#8).toNat ∧ 2 ≤ (255#8).toNat := by decide

theorem test_meets_UpdateRequestsAFrame :
    pendingTwo.blk.faulted = false ∧ pendingTwo.fb.st = .idle ∧ busy.fb.st = .tx ∧
      (ran Config.initial [.update]).fb.st = .treq := by decide

theorem test_meets_ReadyAnswersIdle : busy.blk.faulted = false := by decide

/-- START, CONVERT, SEND, END and no step at all, each enabled in a state that meets the display's invariant. -/
theorem test_meets_SchedulerSteps :
    let t := ran Config.initial [.update]
    (blockCheck t = true ∧ t.schedEnabled = some .start) ∧ (blockCheck busy = true ∧ busy.schedEnabled = some .convert) ∧
      (blockCheck (pipeline 5 t) = true ∧ (pipeline 5 t).schedEnabled = some .send) ∧
      (blockCheck (pipeline 13 t) = true ∧ (pipeline 13 t).schedEnabled = some .finish) ∧
      (blockCheck (pipeline 6 t) = true ∧ (pipeline 6 t).schedEnabled = none) := by decide

theorem test_meets_CompletionGoesOnToTheNextLine :
    let w := pipeline 6 (ran Config.initial [.update])
    w.blk.faulted = false ∧ w.fb.st = .tx ∧ w.fb.ls = .wait ∧
      ¬ (busy.blk.faulted = false ∧ busy.fb.st = .tx ∧ busy.fb.ls = .wait) := by decide

theorem test_meets_FrameTakesItsStepsAndSendsItsLines :
    let t := ran Config.initial [.update]
    BlockInv t ∧ t.blk.faulted = false ∧ t.fb.st = .treq ∧ frameSteps t.cfg = 14 :=
  ⟨blockInv_of_check (by decide), by decide, by decide, by decide⟩

theorem test_meets_UpdateCarriesThePixel :
    BlockInv pendingTwo ∧ pendingTwo.blk.faulted = false ∧ pendingTwo.fb.st = .idle ∧
      (3#16).toNat < pendingTwo.cfg.fbW ∧ (1#16).toNat < pendingTwo.cfg.fbH ∧ pendingTwo.cfg.fbScan = .rowMajor ∧
      ∃ t, exec (.pixel 3#16 1#16 1#8) pendingTwo = .next t ∧ ∃ u, exec .update t = .next u :=
  ⟨pendingTwo_blockInv, by decide, by decide, by decide, by decide, by decide, ⟨_, rfl, ⟨_, rfl⟩⟩⟩

/-- The other scan order. -/
theorem test_meets_UpdateCarriesThePixel_columns :
    let s := fresh { Config.initial with fbScan := .columnMajor }
    BlockInv s ∧ s.cfg.fbScan = .columnMajor ∧ s.fb.st = .idle ∧ (3#16).toNat < s.cfg.fbW ∧ (1#16).toNat < s.cfg.fbH :=
  ⟨blockInv_of_check (by decide), by decide, by decide, by decide, by decide⟩

/-- States that agree on unit RB and differ elsewhere. -/
theorem test_meets_UnitsShareNoState :
    AgreeRb busy busy.startFrame ∧ busy.startFrame ≠ busy ∧ AgreeSe busy busy.startFrame ∧
      AgreeFb busy (busy.setX 0 1#32) ∧
      (∃ t, exec (.append 1#64) busy = .next t) ∧ (∃ t, exec (.append 1#64) busy.startFrame = .next t) ∧
      (∃ t, exec (.feed 0#32 0#32) busy.startFrame = .next t) ∧ ∃ t, exec .update (busy.setX 0 1#32) = .next t :=
  ⟨⟨rfl, rfl, rfl, rfl, rfl⟩, by decide, ⟨rfl, rfl, rfl, rfl, rfl, rfl, rfl⟩, ⟨rfl, rfl, rfl, rfl, rfl, rfl, rfl⟩,
    ⟨_, rfl⟩, ⟨_, rfl⟩, ⟨_, rfl⟩, ⟨_, rfl⟩⟩

theorem test_meets_ReadsAreIdempotent :
    Accepted (.count 0#8) pendingTwo ∧ (∃ t, exec (.count 0#8) pendingTwo = .next t ∧ t.blk = pendingTwo.blk) ∧
      Accepted (.drops 0#8) pendingTwo ∧ (∃ t, exec (.drops 0#8) pendingTwo = .next t ∧ t.blk = pendingTwo.blk) ∧
      Accepted .ready busy ∧ (∃ t, exec .ready busy = .next t ∧ t.blk = busy.blk) ∧
      Accepted (.copyfft 8#32) busy ∧ ∃ t, exec (.copyfft 8#32) busy = .next t ∧ t.blk = busy.blk :=
  ⟨⟨by decide, by decide, by decide⟩, ⟨_, rfl, rfl⟩, ⟨by decide, by decide, by decide⟩, ⟨_, rfl, rfl⟩,
    ⟨by decide, by decide, by decide⟩, ⟨_, rfl, rfl⟩, ⟨by decide, by decide, by decide⟩, ⟨_, rfl, rfl⟩⟩

theorem test_meets_QuiescentStateStays :
    let s := { fresh Config.initial with env := { (fresh Config.initial).env with agenda := [.sched] } }
    s.quiescent ∧ (∃ t, step s = .next t) ∧ s.nextMove = .sched := by
  refine ⟨⟨?_, .inr ⟨?_, rfl⟩⟩, ⟨_, rfl⟩, rfl⟩
  · intro a ha
    rw [show ({ fresh Config.initial with env := { (fresh Config.initial).env with agenda := [.sched] } } :
      State).env.agents = [idleAgent] from rfl, List.mem_singleton] at ha
    subst ha
    exact ⟨Nat.le_refl 0, rfl, rfl⟩
  · intro r
    match r with
    | 0 => rfl
    | 1 => rfl
    | n + 2 => rfl

theorem test_meets_StatusViewFields : BlockInv busy ∧ busy.cfg.rbHasDrops = true := ⟨busy_blockInv, by decide⟩

/-- R69: `RB.DROPS[0]` after one overwrite, and `FB.CTRL` in transmission (`TX = 2` in bits 1:0). -/
theorem test_views :
    let s := ran { Config.initial with rbN := 1 } [.attach 0#8, .append 1#64, .append 2#64]
    (s.dropsView 0).toNat = 1 ∧ busy.fbCtrlView.extractLsb' 0 2 = 2#2 ∧ busy.palView 1 = 0xFFFF#16 := by decide

end Sys2Proof.Tests
end

namespace Sys2Proof.Machine

/-! ### Answering (R26, R111) -/

/-- Settles O5: answering modifies the issuer's entry of the list of agents and nothing else. -/
theorem responseReachesTheIssuerOnly : Obligations.ResponseReachesTheIssuerOnly := by
  intro r s
  refine ⟨⟨rfl, rfl, rfl, rfl, rfl, rfl⟩, ?_, ?_, rfl⟩
  · intro a ha
    rw [State.agents_respond, if_pos rfl, ha]
    rfl
  · intro j hj
    rw [State.agents_respond, if_neg hj.symm]

/-! ### Rounding to an integer, ties to even -/

/-- `n` is an integer nearest to `x`, and the even one where two are equally near. -/
def IsRoundEven (n : ℤ) (x : ℚ) : Prop := |(n : ℚ) - x| ≤ 1 / 2 ∧ (|(n : ℚ) - x| = 1 / 2 → Even n)

theorem isRoundEven_self (n : ℤ) : IsRoundEven n n := by
  simp [IsRoundEven]

/-- The quotient is kept while the remainder is below half the divisor, or half of it beside an even quotient; else it is
stepped up. -/
theorem roundShift_isRoundEven (m s : Nat) : IsRoundEven (roundShift m s) ((m : ℚ) / 2 ^ s) := by
  have hd : (0 : ℚ) < 2 ^ s := by positivity
  obtain ⟨f, hf⟩ : ∃ f : ℚ, f = (m % 2 ^ s : Nat) / 2 ^ s := ⟨_, rfl⟩
  have hx : (m : ℚ) / 2 ^ s = (m / 2 ^ s : Nat) + f := by
    rw [hf, div_eq_iff hd.ne', add_mul, div_mul_cancel₀ _ hd.ne']
    exact_mod_cast (Nat.div_add_mod' m (2 ^ s)).symm
  have hf0 : 0 ≤ f := by rw [hf]; positivity
  have hf1 : f < 1 := by
    rw [hf, div_lt_one hd]
    exact_mod_cast Nat.mod_lt m (by positivity)
  have hlt : 2 * (m % 2 ^ s) < 2 ^ s ↔ f < 1 / 2 := by
    rw [hf, div_lt_div_iff₀ hd two_pos, mul_comm, one_mul]
    exact_mod_cast Iff.rfl
  have heq : 2 * (m % 2 ^ s) = 2 ^ s ↔ f = 1 / 2 := by
    rw [hf, div_eq_div_iff hd.ne' two_ne_zero, mul_comm, one_mul]
    exact_mod_cast Iff.rfl
  simp only [roundShift]
  rw [hx]
  split_ifs with h <;> rw [hlt, heq] at h
  · have hdist : |((m / 2 ^ s : Nat) : ℚ) - ((m / 2 ^ s : Nat) + f)| = f := by
      rw [sub_add_cancel_left, abs_neg, abs_of_nonneg hf0]
    refine ⟨hdist.trans_le (h.elim le_of_lt fun h => h.1.le), fun htie => ?_⟩
    obtain h | ⟨-, heven⟩ := h
    · exact absurd (hdist.symm.trans htie) h.ne
    · exact_mod_cast Nat.even_iff.mpr heven
  · have hdist : |((m / 2 ^ s + 1 : Nat) : ℚ) - ((m / 2 ^ s : Nat) + f)| = 1 - f := by
      rw [Nat.cast_succ, add_sub_add_left_eq_sub, abs_of_pos (sub_pos.mpr hf1)]
    push Not at h
    refine ⟨hdist.trans_le (by linarith), fun htie => ?_⟩
    have hodd := h.2 (by linarith [hdist.symm.trans htie])
    exact_mod_cast Nat.even_iff.mpr (by omega)

section
variable {n k : ℤ} {x y : ℚ}

theorem IsRoundEven.le_of_le (h : IsRoundEven n x) (hk : x ≤ k) : n ≤ k := by
  have hn : (n : ℚ) < k + 1 := by linarith [(abs_le.mp h.1).2]
  exact Int.lt_add_one_iff.mp (by exact_mod_cast hn)

theorem IsRoundEven.ge_of_ge (h : IsRoundEven n x) (hk : k ≤ x) : k ≤ n := by
  have hn : (k : ℚ) < n + 1 := by linarith [(abs_le.mp h.1).1]
  exact Int.lt_add_one_iff.mp (by exact_mod_cast hn)

/-- Every other integer is at least half a unit away. -/
theorem IsRoundEven.half_le (h : IsRoundEven n x) (hk : k ≠ n) : 1 / 2 ≤ |(k : ℚ) - x| := by
  have hone : (1 : ℚ) ≤ |(k : ℚ) - n| := by exact_mod_cast Int.one_le_abs (sub_ne_zero.mpr hk)
  have htri := abs_sub_le (k : ℚ) x n
  rw [abs_sub_comm x] at htri
  linarith [h.1]

/-- `n` is as near to `x` as any integer, and as any value below an integer that is itself at most `x`. -/
theorem IsRoundEven.nearest (h : IsRoundEven n x) (hy : (∃ k : ℤ, y = k) ∨ ∃ k : ℤ, y < k ∧ k ≤ x) :
    |n - x| ≤ |y - x| ∧ (|y - x| = |n - x| → y ≠ n → Even n) := by
  have hint : ∀ k : ℤ, |n - x| ≤ |k - x| := fun k => by
    by_cases hk : k = n
    · rw [hk]
    · exact h.1.trans (h.half_le hk)
  obtain ⟨k, rfl⟩ | ⟨k, hyk, hkx⟩ := hy
  · refine ⟨hint k, fun heq hne => h.2 (le_antisymm h.1 ?_)⟩
    rw [← heq]
    exact h.half_le (by exact_mod_cast hne)
  · have hlt : |(n : ℚ) - x| < |y - x| := by
      have hk := hint k
      rw [abs_of_nonpos (sub_nonpos.mpr hkx)] at hk
      rw [abs_of_nonpos (by linarith : y - x ≤ 0)]
      linarith
    exact ⟨hlt.le, fun heq => absurd heq.symm hlt.ne⟩

end

/-! ### The fields and the value of a pattern -/

theorem f32Exp_ofNat (k : Nat) : f32Exp (BitVec.ofNat 32 k) = k / 2 ^ 23 % 2 ^ 8 := by
  simp only [f32Exp, BitVec.extractLsb'_toNat, BitVec.toNat_ofNat, Nat.shiftRight_eq_div_pow]
  omega

theorem f32Frac_ofNat (k : Nat) : f32Frac (BitVec.ofNat 32 k) = k % 2 ^ 23 := by
  simp only [f32Frac, BitVec.extractLsb'_toNat, BitVec.toNat_ofNat, Nat.shiftRight_zero]
  omega

theorem f32Neg_ofNat {k : Nat} (h : k < 2 ^ 31) : f32Neg (BitVec.ofNat 32 k) = false := by
  simp only [f32Neg, BitVec.msb_eq_decide, BitVec.toNat_ofNat, decide_eq_false_iff_not]
  omega

theorem f32Mant_lt (b : F32) : f32Mant b < 2 ^ 24 := by
  have hfrac : f32Frac b < 2 ^ 23 := BitVec.isLt _
  unfold f32Mant
  split_ifs <;> omega

theorem f32Pow_ge (b : F32) : -149 ≤ f32Pow b := by
  unfold f32Pow
  split_ifs <;> omega

theorem f32Signed_lt (b : F32) : f32Signed b < 2 ^ 24 := by
  have hmant := f32Mant_lt b
  unfold f32Signed
  split_ifs <;> omega

theorem f32WithSign_true {k : Nat} (h : k < 2 ^ 31) :
    f32WithSign true k = f32WithSign false k ||| 0x80000000#32 := by
  apply BitVec.eq_of_toNat_eq
  have hor := Nat.two_pow_add_eq_or_of_lt h 1
  simp only [f32WithSign, if_true, Bool.false_eq_true, if_false, BitVec.toNat_or, BitVec.toNat_ofNat]
  rw [Nat.mod_eq_of_lt (by omega), Nat.mod_eq_of_lt (a := k) (by omega), Nat.lor_comm]
  simpa using hor

/-- The sum of an exponent field `E` and a significand of at most 24 bits, or the next power of two, stands for that
significand at the exponent of `E`: the carry out of the fraction field is the step to the next exponent. -/
theorem f32Value_of_fields {E n : Nat} (hn : n ≤ 2 ^ 24) (hE : E = 0 ∨ 2 ^ 23 ≤ n)
    (hfin : E * 2 ^ 23 + n < f32InfBits) :
    f32IsFinite (f32WithSign false (E * 2 ^ 23 + n)) = true ∧
      f32Value (f32WithSign false (E * 2 ^ 23 + n)) = n * (2 : ℚ) ^ ((E : ℤ) - 149) := by
  simp only [f32InfBits] at hfin
  have hexp := f32Exp_ofNat (E * 2 ^ 23 + n)
  have hfrac := f32Frac_ofNat (E * 2 ^ 23 + n)
  have hneg := f32Neg_ofNat (k := E * 2 ^ 23 + n) (by omega)
  simp only [f32WithSign, Bool.false_eq_true, if_false]
  generalize BitVec.ofNat 32 (E * 2 ^ 23 + n) = a at hexp hfrac hneg ⊢
  have hfinite : f32Exp a ≠ 255 := by omega
  refine ⟨bne_iff_ne.mpr hfinite, ?_⟩
  simp only [f32Value, f32Signed, hneg, Bool.false_eq_true, if_false, Int.cast_natCast]
  obtain hlow | hnorm | hcarry : n < 2 ^ 23 ∨ (2 ^ 23 ≤ n ∧ n < 2 ^ 24) ∨ n = 2 ^ 24 := by omega
  · have h0 : f32Exp a = 0 := by omega
    have hE0 : E = 0 := by omega
    rw [f32Mant, f32Pow, if_pos h0, if_pos h0, show f32Frac a = n by omega, hE0]
    rfl
  · have h1 : f32Exp a = E + 1 := by omega
    rw [f32Mant, f32Pow, if_neg (by omega), if_neg (by omega), show 2 ^ 23 + f32Frac a = n by omega, h1]
    congr 2
    omega
  · have h2 : f32Exp a = E + 2 := by omega
    rw [f32Mant, f32Pow, if_neg (by omega), if_neg (by omega), show 2 ^ 23 + f32Frac a = 2 ^ 23 by omega, h2, hcarry,
      show ((E + 2 : Nat) : ℤ) - 150 = (E - 149) + 1 by omega, zpow_add_one₀ two_ne_zero]
    push_cast
    ring

/-- A finite value is a whole number of units `2^q`, or its own last bit is below `2^q` and it is less than `2^23` of
them. -/
theorem f32Value_grid (b : F32) (q : ℤ) :
    ∃ y : ℚ, f32Value b = y * 2 ^ q ∧ ((∃ k : ℤ, y = k) ∨ (-149 < q ∧ y < 2 ^ 23)) := by
  refine ⟨f32Signed b * 2 ^ (f32Pow b - q), ?_, ?_⟩
  · rw [mul_assoc, ← zpow_add₀ two_ne_zero, sub_add_cancel, f32Value]
  by_cases hq : q ≤ f32Pow b
  · refine .inl ⟨f32Signed b * 2 ^ (f32Pow b - q).toNat, ?_⟩
    push_cast
    rw [← zpow_natCast, Int.toNat_of_nonneg (by omega)]
  · refine .inr ⟨by linarith [f32Pow_ge b], ?_⟩
    have hlt : (f32Signed b : ℚ) < 2 ^ 24 := by exact_mod_cast f32Signed_lt b
    have hhalf : (2 : ℚ) ^ (f32Pow b - q) ≤ 2 ^ (-1 : ℤ) := zpow_le_zpow_right₀ one_le_two (by omega)
    calc (f32Signed b : ℚ) * 2 ^ (f32Pow b - q)
        < 2 ^ 24 * 2 ^ (f32Pow b - q) := by gcongr
      _ ≤ 2 ^ 24 * 2 ^ (-1 : ℤ) := by gcongr
      _ = 2 ^ 23 := by norm_num

/-! ### What `fl32` keeps of a magnitude -/

/-- The integer that `fl32` keeps of `m * 2^e`, in units of `2^(ulpExp m e)`. -/
def keptMant (m : Nat) (e : ℤ) : Nat :=
  if ulpExp m e ≤ e then m * 2 ^ (e - ulpExp m e).toNat else roundShift m (ulpExp m e - e).toNat

/-- The 31 bits below the sign, before the cut at infinity. -/
def keptBits (m : Nat) (e : ℤ) : Nat := (ulpExp m e + 149).toNat * 2 ^ 23 + keptMant m e

theorem fl32_eq (neg : Bool) {m : Nat} (e : ℤ) (hm : 0 < m) :
    fl32 neg m e = f32WithSign neg (min (keptBits m e) f32InfBits) := by
  simp [fl32, keptBits, keptMant, hm.ne']

/-- The exact magnitude `m * 2^e` in units of `2^(ulpExp m e)`. -/
def exactMant (m : Nat) (e : ℤ) : ℚ := m * 2 ^ (e - ulpExp m e)

theorem exactMant_mul (m : Nat) (e : ℤ) : exactMant m e * 2 ^ ulpExp m e = m * 2 ^ e := by
  rw [exactMant, mul_assoc, ← zpow_add₀ two_ne_zero, sub_add_cancel]

theorem keptMant_isRoundEven (m : Nat) (e : ℤ) : IsRoundEven (keptMant m e) (exactMant m e) := by
  unfold keptMant exactMant
  split_ifs with hq
  · convert isRoundEven_self _
    push_cast
    rw [← zpow_natCast, Int.toNat_of_nonneg (by omega)]
  · convert roundShift_isRoundEven m (ulpExp m e - e).toNat using 1
    rw [← zpow_natCast, Int.toNat_of_nonneg (by omega), div_eq_mul_inv, ← zpow_neg, neg_sub]

theorem ulpExp_ge (m : Nat) (e : ℤ) : -149 ≤ ulpExp m e := le_max_right _ _

theorem exactMant_lt (m : Nat) (e : ℤ) : exactMant m e < 2 ^ 24 := by
  have hm : (m : ℚ) < 2 ^ ((m.log2 : ℤ) + 1) := by exact_mod_cast Nat.lt_log2_self (n := m)
  have hq : e + m.log2 - 23 ≤ ulpExp m e := le_max_left _ _
  calc exactMant m e < 2 ^ ((m.log2 : ℤ) + 1) * 2 ^ (e - ulpExp m e) := by unfold exactMant; gcongr
    _ = 2 ^ ((m.log2 : ℤ) + 1 + (e - ulpExp m e)) := (zpow_add₀ two_ne_zero _ _).symm
    _ ≤ 2 ^ (24 : ℤ) := zpow_le_zpow_right₀ one_le_two (by omega)
    _ = 2 ^ 24 := by norm_num

/-- Above the least exponent the significand has all its 24 bits. -/
theorem exactMant_ge {m : Nat} {e : ℤ} (hm : 0 < m) (hq : -149 < ulpExp m e) : 2 ^ 23 ≤ exactMant m e := by
  have hlog : (2 : ℚ) ^ (m.log2 : ℤ) ≤ m := by exact_mod_cast Nat.log2_self_le hm.ne'
  have hu : ulpExp m e = e + m.log2 - 23 := by
    unfold ulpExp at hq ⊢
    omega
  calc (2 : ℚ) ^ 23 = 2 ^ ((m.log2 : ℤ) + (e - ulpExp m e)) := by
        rw [hu, show (m.log2 : ℤ) + (e - (e + m.log2 - 23)) = (23 : Nat) by omega, zpow_natCast]
    _ = 2 ^ (m.log2 : ℤ) * 2 ^ (e - ulpExp m e) := zpow_add₀ two_ne_zero _ _
    _ ≤ exactMant m e := by unfold exactMant; gcongr

theorem keptMant_le (m : Nat) (e : ℤ) : keptMant m e ≤ 2 ^ 24 := by
  exact_mod_cast (keptMant_isRoundEven m e).le_of_le (k := (2 ^ 24 : Nat)) (by exact_mod_cast (exactMant_lt m e).le)

theorem keptMant_ge {m : Nat} {e : ℤ} (hm : 0 < m) (hq : -149 < ulpExp m e) : 2 ^ 23 ≤ keptMant m e := by
  exact_mod_cast (keptMant_isRoundEven m e).ge_of_ge (k := (2 ^ 23 : Nat)) (by exact_mod_cast exactMant_ge hm hq)

/-- The least magnitude that rounds to infinity: half a unit above the largest finite value (R25). -/
def overflowBound : ℚ := (2 ^ 24 - 1 / 2) * 2 ^ 104

/-- At the largest exponent, the significand carries into infinity from the tie `2^24 - 1/2` on: the odd neighbour below
loses it. -/
theorem two_pow_le_keptMant_iff (m : Nat) (e : ℤ) : 2 ^ 24 ≤ keptMant m e ↔ (2 : ℚ) ^ 24 - 1 / 2 ≤ exactMant m e := by
  have hround := keptMant_isRoundEven m e
  constructor
  · intro h
    have hcast : (2 : ℚ) ^ 24 ≤ (keptMant m e : ℤ) := by exact_mod_cast h
    linarith [(abs_le.mp hround.1).2]
  · intro h
    have hge := hround.ge_of_ge (k := (2 ^ 24 - 1 : Nat)) (le_trans (by norm_num) h)
    by_contra hlt
    have hkept : keptMant m e = 2 ^ 24 - 1 := by omega
    rw [hkept] at hround
    have hhalf : (1 : ℚ) / 2 ≤ |((2 ^ 24 - 1 : Nat) : ℤ) - exactMant m e| := by
      rw [abs_sub_comm]
      exact le_trans (by norm_num; linarith) (le_abs_self _)
    have htie := hround.2 (le_antisymm hround.1 hhalf)
    exact absurd htie (by decide)

/-- The bits reach infinity exactly from the overflow bound on: below the largest exponent they cannot, above it they
must, and at it `two_pow_le_keptMant_iff` decides. -/
theorem infBits_le_keptBits_iff {m : Nat} (e : ℤ) (hm : 0 < m) :
    f32InfBits ≤ keptBits m e ↔ overflowBound ≤ m * 2 ^ e := by
  have hle := keptMant_le m e
  have hlt := exactMant_lt m e
  have hge := exactMant_ge (e := e) hm
  have hkept := keptMant_ge (e := e) hm
  have hiff := two_pow_le_keptMant_iff m e
  unfold keptBits f32InfBits overflowBound
  rw [← exactMant_mul m e]
  obtain hq | hq | hq := lt_trichotomy (ulpExp m e) 104
  · refine iff_of_false (by omega) (not_le.mpr ?_)
    calc exactMant m e * 2 ^ ulpExp m e < 2 ^ 24 * 2 ^ ulpExp m e := by gcongr
      _ ≤ 2 ^ 24 * 2 ^ (103 : ℤ) := by gcongr; exacts [one_le_two, by omega]
      _ ≤ (2 ^ 24 - 1 / 2) * 2 ^ 104 := by norm_num
  · rw [hq, show (2 : ℚ) ^ (104 : ℤ) = 2 ^ 104 from zpow_natCast 2 104, mul_le_mul_iff_left₀ (by positivity), ← hiff]
    omega
  · refine iff_of_true (by omega) ?_
    calc ((2 : ℚ) ^ 24 - 1 / 2) * 2 ^ 104 ≤ 2 ^ 23 * 2 ^ (105 : ℤ) := by norm_num
      _ ≤ 2 ^ 23 * 2 ^ ulpExp m e := by gcongr; exacts [one_le_two, by omega]
      _ ≤ exactMant m e * 2 ^ ulpExp m e := by gcongr; exact hge (by omega)

/-! ### The result of `fl32` -/

theorem fl32_sign (neg : Bool) {m : Nat} (e : ℤ) (hm : 0 < m) :
    fl32 neg m e = if neg = true then fl32 false m e ||| 0x80000000#32 else fl32 false m e := by
  cases neg with
  | false => rw [if_neg Bool.false_ne_true]
  | true =>
    rw [if_pos rfl, fl32_eq true e hm, fl32_eq false e hm]
    exact f32WithSign_true (lt_of_le_of_lt (min_le_right _ _) (by decide))

theorem fl32_overflow {m : Nat} {e : ℤ} (hm : 0 < m) (h : overflowBound ≤ m * 2 ^ e) :
    fl32 false m e = 0x7F800000#32 := by
  rw [fl32_eq false e hm, min_eq_right ((infBits_le_keptBits_iff e hm).mpr h)]
  rfl

/-- Below the bound the result is finite, stands for the kept significand, and is even exactly with it. -/
theorem fl32_finite {m : Nat} {e : ℤ} (hm : 0 < m) (h : (m : ℚ) * 2 ^ e < overflowBound) :
    f32IsFinite (fl32 false m e) = true ∧ f32Value (fl32 false m e) = keptMant m e * 2 ^ ulpExp m e ∧
      (fl32 false m e).toNat % 2 = keptMant m e % 2 := by
  have hfin : keptBits m e < f32InfBits := not_le.mp fun hle => not_lt.mpr ((infBits_le_keptBits_iff e hm).mp hle) h
  have hge := ulpExp_ge m e
  have hfields := f32Value_of_fields (E := (ulpExp m e + 149).toNat) (keptMant_le m e)
    (by have hnormal := keptMant_ge (e := e) hm; omega) hfin
  rw [show (((ulpExp m e + 149).toNat : ℤ) - 149) = ulpExp m e by omega] at hfields
  rw [fl32_eq false e hm, min_eq_left hfin.le]
  refine ⟨hfields.1, hfields.2, ?_⟩
  simp only [f32WithSign, Bool.false_eq_true, if_false, BitVec.toNat_ofNat, keptBits]
  omega

/-- Below the bound no finite value is nearer, and one that is equally near leaves the even result. -/
theorem fl32_nearest {m : Nat} {e : ℤ} (hm : 0 < m) (h : (m : ℚ) * 2 ^ e < overflowBound) (b : F32) :
    |f32Value (fl32 false m e) - m * 2 ^ e| ≤ |f32Value b - m * 2 ^ e| ∧
      (|f32Value b - m * 2 ^ e| = |f32Value (fl32 false m e) - m * 2 ^ e| → f32Value b ≠ f32Value (fl32 false m e) →
        (fl32 false m e).toNat % 2 = 0) := by
  obtain ⟨-, hval, heven⟩ := fl32_finite hm h
  obtain ⟨y, hy, hgrid⟩ := f32Value_grid b (ulpExp m e)
  have hpos : (0 : ℚ) < 2 ^ ulpExp m e := by positivity
  have hnear := (keptMant_isRoundEven m e).nearest (y := y) <| hgrid.imp_right fun ⟨hq, hlt⟩ =>
    ⟨(2 ^ 23 : Nat), by exact_mod_cast hlt, by exact_mod_cast exactMant_ge hm hq⟩
  rw [heven, hval, hy, ← exactMant_mul m e, ← sub_mul, ← sub_mul, abs_mul, abs_mul, abs_of_pos hpos,
    mul_le_mul_iff_left₀ hpos, mul_left_inj' hpos.ne', Ne, mul_left_inj' hpos.ne', ← Nat.even_iff]
  exact_mod_cast hnear

/-- Settles O42: the result is the rounding of the exact significand to an integer, in units that every finite value is
either a multiple of or too small to compete. -/
theorem roundsToNearestTiesToEven : Obligations.RoundsToNearestTiesToEven := by
  intro neg m e hm
  exact ⟨fl32_sign neg e hm, fl32_overflow hm, fun hlt => ⟨(fl32_finite hm hlt).1, fun b _ => fl32_nearest hm hlt b⟩⟩

end Sys2Proof.Machine

namespace Sys2Proof.Machine

/-! ### What a command can do (R344, R185 to R301)

Command entry stands in `accept_cases`; here are the commands' own rules, each outcome once, so that a proof about every
command is a case split along `Completed`. -/

/-- The commands that only answer (R191, R199, R253, R301). -/
def onlyAnswers : Instr → Bool
  | .count _ | .drops _ | .copyfft _ | .ready => true
  | .append _ | .attach _ | .read _ | .consume _ | .feed _ _ | .compute | .postprocess | .clear | .pixel _ _ _
  | .hline _ _ _ _ | .vline _ _ _ _ | .circle _ _ _ _ | .blit _ _ _ _ _ | .vscroll | .setpal _ _ | .update => false

/-- What performing the command `i`, accepted in `s` and raising no fault, can make of the block. It is as fine as the
invariants and the queues need: which answer a query gives, whether FEED arms, and which points are plotted are left
open. -/
inductive Completed : Instr → State → State → Prop
  | answer {i : Instr} {s : State} (hi : onlyAnswers i = true) (x : Response) : Completed i s (s.respond x)
  | append {s : State} (v : Elem) : Completed (.append v) s ((s.appendElem v).respond .ack)
  | attach {s : State} {r : BitVec 8} (hr : r.toNat < s.cfg.rbR) :
    Completed (.attach r) s
      ({ s with rb := s.rb.onReader r.toNat (Reader.attached (rbParams s.cfg)) }.respond .ack)
  | read {s : State} {r : BitVec 8} (hr : r.toNat < s.cfg.rbR) (hatt : (s.rb.reader r.toNat).att = true)
    (hcnt : (s.rb.reader r.toNat).cnt ≠ 0) :
    Completed (.read r) s ({ s with rb := s.rb.dropOldest r.toNat }.respond (.val (s.oldest r.toNat)))
  | consumeNone {s : State} {r : BitVec 8} (hr : r.toNat < s.cfg.rbR) (hatt : (s.rb.reader r.toNat).att = true)
    (hcnt : (s.rb.reader r.toNat).cnt = 0) :
    Completed (.consume r) s
      ({ s with rb := s.rb.onReader r.toNat fun q => { q with br := (s.rb.reader r.toNat).cnt } }.respond (.burst 0 []))
  | consume {s : State} {r : BitVec 8} (hr : r.toNat < s.cfg.rbR) (hatt : (s.rb.reader r.toNat).att = true)
    (hcnt : (s.rb.reader r.toNat).cnt ≠ 0) :
    Completed (.consume r) s
      ({ s with rb := s.rb.onReader r.toNat fun q => { q with br := (s.rb.reader r.toNat).cnt } }.beginWork
        (.burst r.toNat (s.rb.reader r.toNat).cnt []))
  | feed {s : State} (re im : F32) (armed b : Bool) :
    Completed (.feed re im) s
      ({ s.stage (packSample re im) with
          se := { (s.stage (packSample re im)).se with phase := s.nextPhase, armed := armed } }.respond (.bool b))
  | compute {s : State} (hcnt : s.cfg.seOv ≤ (s.se.stg.reader 0).cnt) : Completed .compute s (s.compute.respond .ack)
  | postprocess {s : State} : Completed .postprocess s (s.postprocess.respond .ack)
  | draw {i : Instr} {s : State} (hi : multiPixel i = true) (plots : List Plot) : Completed i s (s.perform plots)
  | pixelInside {s : State} {x y : BitVec 16} (c : Byte) (p : PixelWrite)
    (hp : p.x < s.cfg.fbW ∧ p.y < s.cfg.fbH) : Completed (.pixel x y c) s ((s.setPixel p).respond .ack)
  | pixelOutside {s : State} (x y : BitVec 16) (c : Byte) : Completed (.pixel x y c) s (s.respond .ack)
  | setpal {s : State} (k : BitVec 8) (col : Color) : Completed (.setpal k col) s ((s.setPal k.toNat col).respond .ack)
  | update {s : State} : Completed .update s ({ s with fb := s.fb.update }.respond .ack)

/-- What the rule of an accepted command can do: raise one of the command's own faults, or be performed. -/
def RuleOutcome (i : Instr) (s t : State) : Prop := (∃ code, t = s.raiseFault i.word code) ∨ Completed i s t

theorem ruleOutcome_of_raise {i : Instr} {code : FaultCode} {s t : State} (h : raise i code s = .next t) :
    RuleOutcome i s t := by
  cases h
  exact .inl ⟨code, rfl⟩

/-- `check_reader` raises its faults or leaves the rule to a reader that exists and is attached (R181). -/
theorem ruleOutcome_of_checkReader {i : Instr} {r : Nat} {s t : State} {rule : Result}
    (h : checkReader i r s rule = .next t)
    (hrule : r < s.cfg.rbR → (s.rb.reader r).att = true → rule = .next t → RuleOutcome i s t) : RuleOutcome i s t := by
  obtain ⟨-, rfl⟩ | ⟨-, -, rfl⟩ | ⟨hr, hatt, h⟩ := checkReader_cases h
  · exact .inl ⟨_, rfl⟩
  · exact .inl ⟨_, rfl⟩
  · exact hrule hr hatt h

/-- PIXEL writes its pixel when it lies in the framebuffer (R285). -/
theorem completed_pixel {x y : BitVec 16} {c : Byte} {s t : State} {p : Plot}
    (h : Host.Outcome.next (φ := Fault) (ρ := Refusal) (State.respond .ack
      (if p.inside s.cfg then s.setPixel { x := p.x.toNat, y := p.y.toNat, c := c } else s)) = .next t) :
    Completed (.pixel x y c) s t := by
  cases h
  split_ifs with hin
  · simp only [Plot.inside, decide_eq_true_eq] at hin
    exact .pixelInside c _ ⟨by simp only; omega, by simp only; omega⟩
  · exact .pixelOutside x y c

/-- What a command can do: get the faulted block's answer, fault, be held, or be performed. -/
def ExecOutcome (i : Instr) (s t : State) : Prop :=
  (s.blk.faulted = true ∧ t = s.respondErr) ∨
  (s.blk.faulted = false ∧ ∃ w code, t = s.raiseFault w code) ∨
  (s.blk.faulted = false ∧ heldIn i s = true ∧ t = s.hold) ∨
  (Accepted i s ∧ Completed i s t)

/-- Command entry (R344), with what the command's rule can do in an accepted state. -/
theorem execOutcome_of_accept {i : Instr} {s t : State} {rule : Result} (h : accept i s rule = .next t)
    (hrule : rule = .next t → RuleOutcome i s t) : ExecOutcome i s t := by
  obtain ⟨hf, rfl⟩ | ⟨hf, -, rfl⟩ | ⟨hf, -, hh, rfl⟩ | ⟨hacc, h⟩ := accept_cases h
  · exact .inl ⟨hf, rfl⟩
  · exact .inr (.inl ⟨hf, _, _, rfl⟩)
  · exact .inr (.inr (.inl ⟨hf, hh, rfl⟩))
  · obtain ⟨code, rfl⟩ | hc := hrule h
    · exact .inr (.inl ⟨hacc.1, _, _, rfl⟩)
    · exact .inr (.inr (.inr ⟨hacc, hc⟩))

theorem exec_cases {i : Instr} {s t : State} (h : exec i s = .next t) : ExecOutcome i s t := by
  cases i with
  | append v => exact execOutcome_of_accept h fun h => by cases h; exact .inr (.append v)
  | attach r =>
    refine execOutcome_of_accept h fun h => ?_
    split_ifs at h with hr
    · exact ruleOutcome_of_raise h
    · cases h; exact .inr (.attach (not_le.1 hr))
  | count r =>
    refine execOutcome_of_accept h fun h => ruleOutcome_of_checkReader h fun _ _ h => ?_
    cases h; exact .inr (.answer rfl _)
  | read r =>
    refine execOutcome_of_accept h fun h => ruleOutcome_of_checkReader h fun hr hatt h => ?_
    split_ifs at h with hcnt
    · exact ruleOutcome_of_raise h
    · cases h; exact .inr (.read hr hatt hcnt)
  | consume r =>
    refine execOutcome_of_accept h fun h => ruleOutcome_of_checkReader h fun hr hatt h => ?_
    dsimp only at h
    split_ifs at h with hcnt
    · cases h; exact .inr (.consumeNone hr hatt hcnt)
    · cases h; exact .inr (.consume hr hatt hcnt)
  | drops r =>
    refine execOutcome_of_accept h fun h => ruleOutcome_of_checkReader h fun _ _ h => ?_
    cases h; exact .inr (.answer rfl _)
  | feed re im => exact execOutcome_of_accept h fun h => by cases h; exact .inr (.feed re im _ _)
  | compute =>
    refine execOutcome_of_accept h fun h => ?_
    split_ifs at h with harmed hcnt
    · exact ruleOutcome_of_raise h
    · exact ruleOutcome_of_raise h
    · cases h; exact .inr (.compute (not_lt.1 hcnt))
  | postprocess => exact execOutcome_of_accept h fun h => by cases h; exact .inr .postprocess
  | copyfft l =>
    refine execOutcome_of_accept h fun h => ?_
    split_ifs at h
    · exact ruleOutcome_of_raise h
    · cases h; exact .inr (.answer rfl _)
  | clear => exact execOutcome_of_accept h fun h => by cases h; exact .inr (.draw rfl _)
  | pixel x y c => exact execOutcome_of_accept h fun h => .inr (completed_pixel h)
  | hline x y len c => exact execOutcome_of_accept h fun h => by cases h; exact .inr (.draw rfl _)
  | vline x y len c => exact execOutcome_of_accept h fun h => by cases h; exact .inr (.draw rfl _)
  | circle xc yc rad c => exact execOutcome_of_accept h fun h => by cases h; exact .inr (.draw rfl _)
  | blit x y bw bh data => exact execOutcome_of_accept h fun h => by cases h; exact .inr (.draw rfl _)
  | vscroll => exact execOutcome_of_accept h fun h => by cases h; exact .inr (.draw rfl _)
  | setpal k col =>
    refine execOutcome_of_accept h fun h => ?_
    split_ifs at h
    · exact ruleOutcome_of_raise h
    · cases h; exact .inr (.setpal k col)
  | update => exact execOutcome_of_accept h fun h => by cases h; exact .inr .update
  | ready => exact execOutcome_of_accept h fun h => by cases h; exact .inr (.answer rfl _)

end Sys2Proof.Machine

namespace Sys2Proof.Machine

/-! ### The decoder's facts that a step needs (R148, R112, R124) -/

theorem unpackBytes_length (n ops : Nat) : (unpackBytes n ops).length = n := by
  induction n generalizing ops with
  | zero => rfl
  | succ n ih => simp [unpackBytes, ih]

theorem decodeRb_operandsFit {c : Config} {op : BitVec 4} {sel : BitVec 8} {ops : Nat} {i : Instr}
    (h : decodeRb c op sel ops = .instr i) : i.operandsFit c = true := by
  unfold decodeRb at h
  split at h
  · split_ifs at h
    cases h
    simp only [Instr.operandsFit, BitVec.toNat_ofNat, decide_eq_true_eq]
    exact lt_of_le_of_lt (Nat.mod_le _ _) (Nat.mod_lt _ (by positivity))
  all_goals (try split_ifs at h); cases h <;> rfl

theorem decodeSe_operandsFit {c : Config} {op : BitVec 4} {ops : Nat} {i : Instr}
    (h : decodeSe c op ops = .instr i) : i.operandsFit c = true := by
  unfold decodeSe at h
  split at h <;> (try split_ifs at h) <;> cases h <;> rfl

theorem decodeFb_operandsFit (c : Config) {op : BitVec 4} {ops : Nat} {i : Instr}
    (h : decodeFb op ops = .instr i) : i.operandsFit c = true := by
  unfold decodeFb at h
  split at h <;> cases h
  case h_6 => simp [Instr.operandsFit, unpackBytes_length]
  all_goals rfl

/-- Every decoded command has operands of the widths and lengths of R148. -/
theorem decode_operandsFit {c : Config} {p : Packet} {i : Instr} (h : decode c p = .instr i) :
    i.operandsFit c = true := by
  unfold decode at h
  dsimp only at h
  split at h
  · exact decodeRb_operandsFit h
  · split_ifs at h
    exact decodeSe_operandsFit h
  · split_ifs at h
    · cases h; rfl
    · exact decodeFb_operandsFit c h
  · cases h

/-- The role of what a packet decodes to. -/
def decodedRole (d : Decoded) : Option Role := d.toOption.map Instr.role

theorem decodeRb_role (c : Config) (op : BitVec 4) (sel : BitVec 8) (ops ops' : Nat) :
    decodedRole (decodeRb c op sel ops') = decodedRole (decodeRb c op sel ops) := by
  unfold decodeRb
  split
  · split_ifs <;> rfl
  all_goals rfl

theorem decodeSe_role (c : Config) (op : BitVec 4) (ops ops' : Nat) :
    decodedRole (decodeSe c op ops') = decodedRole (decodeSe c op ops) := by
  unfold decodeSe
  split <;> rfl

theorem decodeFb_role (op : BitVec 4) (ops ops' : Nat) :
    decodedRole (decodeFb op ops') = decodedRole (decodeFb op ops) := by
  unfold decodeFb
  split <;> rfl

/-- The role of a command does not depend on the operands (R142). -/
theorem decode_role (c : Config) (w : CmdWord) (ops ops' : Nat) :
    decodedRole (decode c ⟨w, ops'⟩) = decodedRole (decode c ⟨w, ops⟩) := by
  unfold decode
  dsimp only
  split
  · exact decodeRb_role ..
  · split_ifs
    · exact decodeSe_role ..
    · rfl
  · split_ifs
    · rfl
    · exact decodeFb_role ..
    · rfl
  · rfl

theorem roleOfWord_of_decode {c : Config} {p : Packet} {i : Instr} (h : decode c p = .instr i) :
    roleOfWord c p.word = some i.role := by
  have hrole : roleOfWord c p.word = decodedRole (decode c ⟨p.word, 0⟩) := by
    unfold roleOfWord
    split <;> simp [*, decodedRole, Decoded.toOption]
  rw [hrole, decode_role c p.word p.ops, h]
  rfl

/-- Whether a word names a busy reader is the hold of the command it decodes to (R112). -/
theorem wordHeld_of_decode {s : State} {p : Packet} {i : Instr} (h : decode s.cfg p = .instr i) :
    s.wordHeld p.word = heldIn i s := by
  unfold State.wordHeld
  rw [roleOfWord_of_decode h]
  cases i <;> rfl

/-! ### What a step can do (R113, R344) -/

/-- Everything a command word can do. -/
theorem issue_outcome {p : Packet} {s t : State} (h : issue p s = .next t) :
    (s.blk.faulted = true ∧ t = s.respondErr) ∨
    (s.blk.faulted = false ∧ ∃ w code, t = s.raiseFault w code) ∨
    ∃ i, decode s.cfg p = .instr i ∧
      ((s.blk.faulted = false ∧ heldIn i s = true ∧ t = s.hold) ∨ (Accepted i s ∧ Completed i s t)) := by
  obtain ⟨hf, rfl⟩ | ⟨hf, -, -, rfl⟩ | ⟨-, i, hi, h⟩ := issue_cases h
  · exact .inl ⟨hf, rfl⟩
  · exact .inr (.inl ⟨hf, _, _, rfl⟩)
  · obtain hf | hf | hheld | hacc := exec_cases h
    · exact .inl hf
    · exact .inr (.inl hf)
    · exact .inr (.inr ⟨i, hi, .inl hheld⟩)
    · exact .inr (.inr ⟨i, hi, .inr hacc⟩)

/-- `t` is `s` after one move. A command is performed for an agent that has its last response (R111): while a burst of
its own is in progress it may present only a command that is held. -/
inductive Moved (s : State) : State → Prop
  | nothing : Moved s s
  | answeredErr (t pick : Nat) (hf : s.blk.faulted = true) : Moved s (s.select t pick).respondErr
  | fault (t pick : Nat) (w : CmdWord) (code : FaultCode) (hf : s.blk.faulted = false) :
    Moved s ((s.select t pick).raiseFault w code)
  | held (t pick : Nat) (hf : s.blk.faulted = false) : Moved s (s.select t pick).hold
  | command {t pick : Nat} {i : Instr} {u : State} {a : Agent} (ha : s.env.agents[t]? = some a) (hidle : a.work = .idle)
    (hfit : i.operandsFit s.cfg = true) (hacc : Accepted i (s.select t pick))
    (hc : Completed i (s.select t pick) u) : Moved s u
  | beat (r : Nat) : Moved s (s.beat r)
  | pixel (t pick : Nat) : Moved s (s.pixelStep t pick)
  | sched : Moved s s.sched
  | panel (ok : Bool) : Moved s (s.complete ok)
  | jump (t pos : Nat) : Moved s (s.jump t pos)
  | reset : Moved s s.hardReset

/-- An agent's move. -/
theorem moved_of_issue {s u : State} {t pick : Nat} (h : runMove (.issue t pick) s = .next u) : Moved s u := by
  unfold runMove at h
  dsimp only at h
  split at h
  · cases h; exact .nothing
  · rename_i p hfetch
    obtain ⟨a, ha, -, hready⟩ := fetch_some hfetch
    obtain ⟨hf, rfl⟩ | ⟨hf, w, code, rfl⟩ | ⟨i, hi, ⟨hf, -, rfl⟩ | ⟨hacc, hc⟩⟩ := issue_outcome h
    · exact .answeredErr t pick hf
    · exact .fault t pick w code hf
    · exact .held t pick hf
    · have hheld : s.wordHeld p.word = false := (wordHeld_of_decode (s := s) hi).trans hacc.2.2
      exact .command ha (hready.resolve_right (by simp [hheld])) (decode_operandsFit hi) hacc hc

/-- Everything a step can do. -/
theorem moved_of_step {s t : State} (h : step s = .next t) : Moved s.afterChoice t := by
  obtain ⟨-, -, h⟩ := step_cases h
  cases hm : s.nextMove with
  | issue j pick => rw [hm] at h; exact moved_of_issue h
  | beat r => rw [hm] at h; cases h; exact .beat r
  | pixel j pick => rw [hm] at h; cases h; exact .pixel j pick
  | sched => rw [hm] at h; cases h; exact .sched
  | panel ok => rw [hm] at h; cases h; exact .panel ok
  | jump j pos => rw [hm] at h; cases h; exact .jump j pos
  | reset => rw [hm] at h; cases h; exact .reset

end Sys2Proof.Machine

namespace Sys2Proof.Machine

/-! ### What a valid configuration bounds (R17) -/

/-- The bounds of R17 that the invariants rest on. -/
structure ConfigBounds (c : Config) : Prop where
  rbN_pos : 1 ≤ c.rbN
  rbN_le : c.rbN ≤ 32767
  seN_le : c.seN ≤ 32768
  seOv_pos : 1 ≤ c.seOv
  seOv_lt : c.seOv < c.seN
  seOv_le : c.seOv ≤ c.seS
  lineLen_pos : 1 ≤ c.lineLen
  lineLen_le : c.lineLen ≤ 32767
  lineCount_le : c.lineCount ≤ 32767

theorem configBounds_of_valid {c : Config} (h : c.valid = true) : ConfigBounds c := by
  simp only [Config.valid, Bool.and_eq_true, decide_eq_true_eq] at h
  have hline : 1 ≤ c.lineLen ∧ c.lineLen ≤ 32767 := by unfold Config.lineLen; split <;> omega
  have hcount : c.lineCount ≤ 32767 := by unfold Config.lineCount; split <;> omega
  refine ⟨?_, ?_, ?_, ?_, ?_, ?_, hline.1, hline.2, hcount⟩ <;> omega

/-! ### The block's invariant under each write of the state

Every command and every internal step is a composition of these writes, and its proof a composition of their lemmas. -/

/-- The pixel writes that the agent has still to do lie in the framebuffer (R283). -/
def DrawsInside (c : Config) (a : Agent) : Prop :=
  ∀ todo, a.work = .draw todo → ∀ p ∈ todo, p.x < c.fbW ∧ p.y < c.fbH

/-- What holds of every agent holds after one of them is changed by something that keeps it. -/
theorem forall_mem_modify {α : Type} {P : α → Prop} {l : List α} {f : α → α} (t : Nat) (h : ∀ a ∈ l, P a)
    (hf : ∀ a, P a → P (f a)) : ∀ a ∈ l.modify t f, P a := by
  intro b hb
  obtain ⟨j, hj⟩ := List.mem_iff_getElem?.1 hb
  rw [List.getElem?_modify] at hj
  obtain ⟨a, ha, rfl⟩ := Option.map_eq_some_iff.1 hj
  have hP := h a (List.mem_of_getElem? ha)
  split_ifs
  · exact hf a hP
  · exact hP

/-- Every array lists indices of its own only (R100, R101): `Memory.inRange`, array by array. -/
structure ArraysInRange (c : Config) (m : Memory) : Prop where
  rbData : Cells.below c.rbN m.rbData = true
  stgData : Cells.below c.seS m.stgData = true
  x : Cells.below (2 * c.seN) m.x = true
  work : Cells.below (2 * c.seN) m.work = true
  pix : Cells.below (c.fbW * c.fbH) m.pix = true
  pal : Cells.below 256 m.pal = true
  line : Cells.below (2 * c.lineLen) m.line = true

theorem arraysInRange_iff {c : Config} {m : Memory} : m.inRange c = true ↔ ArraysInRange c m := by
  simp only [Memory.inRange, Bool.and_eq_true]
  constructor
  · rintro ⟨⟨⟨⟨⟨⟨h1, h2⟩, h3⟩, h4⟩, h5⟩, h6⟩, h7⟩
    exact ⟨h1, h2, h3, h4, h5, h6, h7⟩
  · rintro ⟨h1, h2, h3, h4, h5, h6, h7⟩
    exact ⟨⟨⟨⟨⟨⟨h1, h2⟩, h3⟩, h4⟩, h5⟩, h6⟩, h7⟩

/-- What a pixel step does to the block: nothing, or one write of those to do (R282). -/
theorem takePixel_state (pick : Nat) (todo : List PixelWrite) (s : State) :
    (takePixel pick todo s).1 = s ∨ ∃ p ∈ todo, (takePixel pick todo s).1 = s.setPixel p := by
  by_cases hnil : todo = []
  · exact .inl (by rw [hnil, takePixel_nil])
  · obtain ⟨p, hp, heq⟩ := takePixel_cons pick todo s hnil
    exact .inr ⟨p, hp, by rw [heq]⟩

namespace BlockInv

variable {s : State}

theorem bounds (h : BlockInv s) : ConfigBounds s.cfg := configBounds_of_valid h.cfg_valid

/-! #### The environment -/

theorem withEnv (h : BlockInv s) {e : Env} (he : e.agents = s.env.agents) : BlockInv { s with env := e } :=
  { h with draws := fun a ha => h.draws a (he ▸ ha) }

theorem onAgent (h : BlockInv s) (t : Nat) {f : Agent → Agent}
    (hf : ∀ a, DrawsInside s.cfg a → DrawsInside s.cfg (f a)) : BlockInv (s.onAgent t f) :=
  { h with draws := forall_mem_modify t h.draws hf }

theorem onAgents (h : BlockInv s) {f : Agent → Agent}
    (hf : ∀ a, DrawsInside s.cfg a → DrawsInside s.cfg (f a)) : BlockInv (s.onAgents f) :=
  { h with draws := List.forall_mem_map.2 fun a ha => hf a (h.draws a ha) }

theorem respond (h : BlockInv s) (x : Response) : BlockInv (s.respond x) := h.onAgent _ fun _ ha => ha

theorem hold (h : BlockInv s) : BlockInv s.hold := h.onAgent _ fun _ ha => ha

theorem select (h : BlockInv s) (t pick : Nat) : BlockInv (s.select t pick) := h.withEnv rfl

theorem useNaNs (h : BlockInv s) (n : Nat) : BlockInv (s.useNaNs n) := h.withEnv rfl

theorem afterChoice (h : BlockInv s) : BlockInv s.afterChoice := by
  unfold State.afterChoice
  split
  · exact h.withEnv rfl
  · exact h.withEnv rfl

theorem jump (h : BlockInv s) (t pos : Nat) : BlockInv (s.jump t pos) := by
  unfold State.jump
  split
  · exact h
  · split
    · exact h.onAgent t fun _ ha => ha
    · exact h

/-! #### The storage arrays -/

theorem range (h : BlockInv s) : ArraysInRange s.cfg s.mem := arraysInRange_iff.1 h.mem_range

/-- The memory is changed with the canonical form and the index ranges kept, and `RB.DATA` left alone. -/
theorem withMem (h : BlockInv s) {m : Memory} (hwf : m.wf = true) (hr : ArraysInRange s.cfg m)
    (hrb : m.rbData = s.mem.rbData) : BlockInv { s with mem := m } :=
  { h with mem_wf := hwf, mem_range := arraysInRange_iff.2 hr, elems := fun e he => h.elems e (hrb ▸ he) }

theorem setRbElem (h : BlockInv s) {i : Nat} {v : Elem} (hi : i < s.cfg.rbN) (hv : v.toNat < 2 ^ s.cfg.rbTw) :
    BlockInv (s.setRbElem i v) :=
  { h with
    mem_wf := s.setRbElem_wf i v h.mem_wf
    mem_range := arraysInRange_iff.2
      { h.range with rbData := Cells.below_set (d := unspecified 64) v hi h.range.rbData }
    elems := by
      intro e he
      obtain rfl | hold := Cells.mem_set (d := unspecified 64) he
      · exact hv
      · exact h.elems e hold }

theorem setStgElem (h : BlockInv s) {i : Nat} (v : Elem) (hi : i < s.cfg.seS) : BlockInv (s.setStgElem i v) :=
  h.withMem (s.setStgElem_wf i v h.mem_wf)
    { h.range with stgData := Cells.below_set (d := unspecified 64) v hi h.range.stgData } rfl

theorem setX (h : BlockInv s) {i : Nat} (v : F32) (hi : i < 2 * s.cfg.seN) : BlockInv (s.setX i v) :=
  h.withMem (s.setX_wf i v h.mem_wf) { h.range with x := Cells.below_set v hi h.range.x } rfl

theorem setWork (h : BlockInv s) {i : Nat} (v : F32) (hi : i < 2 * s.cfg.seN) : BlockInv (s.setWork i v) :=
  h.withMem (s.setWork_wf i v h.mem_wf) { h.range with work := Cells.below_set v hi h.range.work } rfl

theorem setPixel (h : BlockInv s) {p : PixelWrite} (hp : p.x < s.cfg.fbW ∧ p.y < s.cfg.fbH) :
    BlockInv (s.setPixel p) :=
  h.withMem (s.setPixel_wf p h.mem_wf)
    { h.range with pix := Cells.below_set p.c (pixIndex_lt hp.1 hp.2) h.range.pix } rfl

theorem setPal (h : BlockInv s) {i : Nat} (col : Color) (hi : i < 256) : BlockInv (s.setPal i col) := by
  have hwf := s.setPal_wf i col h.mem_wf
  unfold State.setPal at hwf ⊢
  split_ifs at hwf ⊢
  · exact h
  · exact h.withMem hwf { h.range with pal := Cells.below_set col hi h.range.pal } rfl

theorem setLine (h : BlockInv s) {j : Nat} (b : Byte) (hj : j < 2 * s.cfg.lineLen) : BlockInv (s.setLine j b) :=
  h.withMem (s.setLine_wf j b h.mem_wf)
    { h.range with line := Cells.below_set (d := unspecified 8) b hj h.range.line } rfl

/-! #### The registers -/

theorem withRb (h : BlockInv s) {g : Ring} (hg : RingInv (rbParams s.cfg) s.cfg.rbR g) : BlockInv { s with rb := g } :=
  { h with rb := hg }

theorem withStg (h : BlockInv s) {g : Ring} (hg : RingInv (stgParams s.cfg) 1 g)
    (hport : ∀ q ∈ g.readers, q.att = true ∧ q.br = 0) : BlockInv { s with se := { s.se with stg := g } } :=
  { h with stg := hg, stg_port := hport }

theorem withPhase (h : BlockInv s) {k : Nat} (hk : k < s.cfg.seOv) (armed : Bool) :
    BlockInv { s with se := { s.se with phase := k, armed := armed } } :=
  { h with phase_lt := hk }

theorem withFb (h : BlockInv s) {f : DisplayRegs} (hf : DisplayInv s.cfg f) : BlockInv { s with fb := f } :=
  { h with display := hf }

theorem withBlk (h : BlockInv s) {b : FaultRecord} (hb : FaultInv b) : BlockInv { s with blk := b } :=
  { h with fault := hb }

end BlockInv

end Sys2Proof.Machine

namespace Sys2Proof.Machine

/-! ### The parts of the block's invariant under the steps -/

/-! #### Ports (R45 to R50) -/

namespace ReaderInv

variable {p : RingParams} {q : Reader}

/-- ATTACH finds a port that is not busy (R112, R189). -/
theorem attached (h : ReaderInv p q) (hbr : q.br = 0) : ReaderInv p (q.attached p) where
  cnt_le := Nat.zero_le _
  br_le := hbr.le
  unattached := fun hatt => nomatch hatt
  no_counter := fun hno => by simp [Reader.attached, hno, h.no_counter hno]
  drops_lt := by
    unfold Reader.attached
    dsimp only
    split_ifs
    · positivity
    · exact h.drops_lt

/-- An element is removed while no burst waits for it (R193, R241). -/
theorem dropOldest (h : ReaderInv p q) (hbr : q.br = 0) : ReaderInv p { q with cnt := q.cnt - 1 } where
  cnt_le := (Nat.sub_le _ _).trans h.cnt_le
  br_le := by simp [hbr]
  unattached := fun hatt => by simp [h.unattached hatt]
  no_counter := h.no_counter
  drops_lt := h.drops_lt

/-- CONSUME asks for everything that is pending (R195). -/
theorem consume (h : ReaderInv p q) : ReaderInv p { q with br := q.cnt } :=
  { h with br_le := le_refl _, unattached := fun hatt => by simp [h.unattached hatt] }

theorem afterBeat (h : ReaderInv p q) : ReaderInv p q.afterBeat where
  cnt_le := (Nat.sub_le _ _).trans h.cnt_le
  br_le := Nat.sub_le_sub_right h.br_le 1
  unattached := fun hatt => by simp [Reader.afterBeat, h.unattached hatt]
  no_counter := h.no_counter
  drops_lt := h.drops_lt

end ReaderInv

/-! #### The registers of unit FB (R61 to R65) -/

namespace DisplayInv

variable {c : Config} {f : DisplayRegs}

theorem update (h : DisplayInv c f) : DisplayInv c f.update := by
  unfold DisplayRegs.update
  split
  · exact { h with outside := fun _ => h.outside (by simp [*]) }
  · exact h
  · exact { h with outside := fun hst => absurd ‹f.st = .tx› hst }

theorem start (hc : ConfigBounds c) (f : DisplayRegs) :
    DisplayInv c { f with st := .tx, cur := 0, xp := 0, ls := .convert } where
  cur_le := Nat.zero_le _
  xp_le := Nat.zero_le _
  outside := fun hst => absurd rfl hst
  converting := fun _ => hc.lineLen_pos
  sending := fun hls => nomatch hls
  waiting := fun hls => nomatch hls

theorem convert (h : DisplayInv c f) (hst : f.st = .tx) (hcur : f.cur < c.lineCount) (hls : f.ls = .convert) :
    DisplayInv c { f with xp := f.xp + 1, ls := if f.xp + 1 = c.lineLen then .send else f.ls } where
  cur_le := h.cur_le
  xp_le := h.converting hls
  outside := fun hne => absurd hst hne
  converting := fun hconv => by
    have hlt := h.converting hls
    dsimp only at hconv ⊢
    split_ifs at hconv
    omega
  sending := fun hsend => by
    dsimp only at hsend ⊢
    split_ifs at hsend with hfull
    · exact ⟨hfull, hcur⟩
    · simp [hls] at hsend
  waiting := fun hwait => by
    dsimp only at hwait
    split_ifs at hwait
    simp [hls] at hwait

theorem send (h : DisplayInv c f) (hst : f.st = .tx) (hls : f.ls = .send) : DisplayInv c { f with ls := .wait } where
  cur_le := h.cur_le
  xp_le := h.xp_le
  outside := fun hne => absurd hst hne
  converting := fun hconv => nomatch hconv
  sending := fun hsend => nomatch hsend
  waiting := fun _ => h.sending hls

/-- The frame ends between two lines (R307): SEND and WAIT belong to a line that is still to be completed. -/
theorem finish (h : DisplayInv c f) (hcur : f.cur = c.lineCount) :
    DisplayInv c { f with cur := 0, pend := false, st := if f.pend then .treq else .idle } := by
  have hls : f.ls = .convert := by
    cases hls : f.ls with
    | convert => rfl
    | send => exact absurd (h.sending hls).2 hcur.not_lt
    | wait => exact absurd (h.waiting hls).2 hcur.not_lt
  exact {
    cur_le := Nat.zero_le _
    xp_le := h.xp_le
    outside := fun _ => ⟨rfl, rfl, hls⟩
    converting := h.converting
    sending := fun hsend => by simp [hls] at hsend
    waiting := fun hwait => by simp [hls] at hwait }

theorem complete (h : DisplayInv c f) (hc : ConfigBounds c) (hst : f.st = .tx) (hls : f.ls = .wait) :
    DisplayInv c { f with cur := f.cur + 1, xp := 0, ls := .convert } where
  cur_le := (h.waiting hls).2
  xp_le := Nat.zero_le _
  outside := fun hne => absurd hst hne
  converting := fun _ => hc.lineLen_pos
  sending := fun hsend => nomatch hsend
  waiting := fun hwait => nomatch hwait

end DisplayInv

/-! ### The block's invariant under every command and internal step -/

namespace BlockInv

variable {s : State}

/-! #### Faults and reset -/

theorem raiseFault (h : BlockInv s) (w : CmdWord) (code : FaultCode) : BlockInv (s.raiseFault w code) := by
  have hrec : FaultInv { faulted := true, fcode := code.bits, fcmd := w } :=
    ⟨fun hf => (nomatch hf), fun _ => ⟨code, rfl⟩⟩
  refine (((h.withBlk hrec).respond _).onAgents fun a _ => ?_).onAgents fun a ha => ?_
  · intro todo hw
    simp at hw
  · intro todo hw
    exact ha todo ((Agent.closeHeld_work a _).symm.trans hw)

theorem resetWith {c : Config} (hc : c.valid = true) : BlockInv (State.resetWith c) where
  cfg_valid := hc
  mem_wf := Memory.reset_wf
  mem_range := Memory.reset_inRange c
  elems := fun e he => nomatch he
  rb := by
    refine ⟨(configBounds_of_valid hc).rbN_pos, List.length_replicate, fun q hq => ?_⟩
    rw [List.eq_of_mem_replicate hq]
    exact ⟨Nat.zero_le _, le_refl _, fun _ => ⟨rfl, rfl, rfl⟩, fun _ => rfl, by simp [Reader.reset]⟩
  stg := by
    have hb := configBounds_of_valid hc
    refine ⟨hb.seOv_pos.trans hb.seOv_le, rfl, fun q hq => ?_⟩
    rw [List.eq_of_mem_singleton hq]
    exact ⟨Nat.zero_le _, le_refl _, fun hatt => (nomatch hatt), fun _ => rfl, by simp⟩
  stg_port := fun q hq => by rw [List.eq_of_mem_singleton hq]; exact ⟨rfl, rfl⟩
  phase_lt := (configBounds_of_valid hc).seOv_pos
  display :=
    { cur_le := Nat.zero_le _
      xp_le := Nat.zero_le _
      outside := fun _ => ⟨rfl, rfl, rfl⟩
      converting := fun _ => (configBounds_of_valid hc).lineLen_pos
      sending := fun hls => nomatch hls
      waiting := fun hls => nomatch hls }
  fault := ⟨fun _ => ⟨rfl, rfl⟩, fun hf => nomatch hf⟩
  draws := fun a ha => nomatch ha

theorem hardReset (h : BlockInv s) : BlockInv s.hardReset :=
  { resetWith h.cfg_valid with
    draws := List.forall_mem_map.2 fun _ _ _ hw => nomatch hw }

/-! #### Unit RB -/

/-- A port that exists and is not held is not busy (R112). -/
theorem port_free {i : Instr} {r : Nat} (hacc : Accepted i s) (hi : i.reader? = some r) (hr : r < s.cfg.rbR) :
    (s.rb.reader r).br = 0 := by
  have hheld := hacc.2.2
  simp only [heldIn, hi, State.portBusy, decide_eq_false_iff_not] at hheld
  omega

theorem appendElem (h : BlockInv s) {v : Elem} (hv : v.toNat < 2 ^ s.cfg.rbTw) : BlockInv (s.appendElem v) :=
  (h.setRbElem h.rb.wr_lt hv).withRb h.rb.append

theorem beat (h : BlockInv s) (r : Nat) : BlockInv (s.beat r) := by
  unfold State.beat
  split
  · refine (h.withRb (h.rb.onReader r _ fun _ => (h.rb.reader r).afterBeat)).onAgents fun a ha => ?_
    unfold Agent.deliver
    split
    · split_ifs
      · exact fun todo hw => nomatch hw
      · exact fun todo hw => nomatch hw
      · exact ha
    · exact ha
    · exact ha
  · exact h

/-! #### Unit SE -/

theorem stage (h : BlockInv s) (e : Elem) : BlockInv (s.stage e) :=
  (h.setStgElem e h.stg.wr_lt).withStg h.stg.append <| List.forall_mem_map.2 fun q hq => by
    simpa using h.stg_port q hq

/-- A counted loop keeps the invariant when every pass does. -/
theorem forUpTo (h : BlockInv s) {n : Nat} {body : Nat → State → State}
    (hbody : ∀ k t, k < n → t.cfg = s.cfg → BlockInv t → BlockInv (body k t) ∧ (body k t).cfg = s.cfg) :
    BlockInv (forUpTo n body s) ∧ (Machine.forUpTo n body s).cfg = s.cfg :=
  forUpTo_induct body s (P := fun _ t => BlockInv t ∧ t.cfg = s.cfg) n ⟨h, rfl⟩
    fun k t hk ⟨ht, hcfg⟩ => hbody k t hk hcfg ht

theorem shiftWindow (h : BlockInv s) : BlockInv s.shiftWindow :=
  (h.forUpTo fun k t hk hcfg ht => ⟨ht.setX _ (by rw [hcfg]; omega), hcfg⟩).1

theorem dropStaged (h : BlockInv s) : BlockInv { s with se := { s.se with stg := s.se.stg.dropOldest 0 } } := by
  have hlen : 0 < s.se.stg.readers.length := h.stg.ports ▸ Nat.one_pos
  have hport := h.stg_port _ (Ring.reader_mem _ 0 hlen)
  refine h.withStg (h.stg.onReader 0 _ fun _ => (h.stg.reader 0).dropOldest hport.2) ?_
  exact forall_mem_modify 0 h.stg_port fun q hq => hq

theorem refill (h : BlockInv s) : BlockInv s.refill := by
  have hb := h.bounds
  refine (h.forUpTo (body := State.refillOne) fun k t hk hcfg ht => ⟨?_, hcfg⟩).1
  have hlt : t.cfg.seN - t.cfg.seOv + k < t.cfg.seN := by
    rw [hcfg]; have := hb.seOv_lt; omega
  exact (ht.dropStaged.setX _ (by simp only; omega)).setX _ (by simp only [State.setX_cfg]; omega)

theorem window (h : BlockInv s) : BlockInv s.window :=
  (h.forUpTo fun k t hk hcfg ht =>
    ⟨(ht.setWork _ (by rw [hcfg]; omega)).setWork _ (by rw [State.setWork_cfg, hcfg]; omega), hcfg⟩).1.useNaNs _

theorem transform (h : BlockInv s) : BlockInv s.transform :=
  (h.forUpTo fun k t hk hcfg ht =>
    ⟨(ht.setWork _ (by rw [hcfg]; omega)).setWork _ (by rw [State.setWork_cfg, hcfg]; omega), hcfg⟩).1

theorem compute (h : BlockInv s) : BlockInv s.compute := by
  have ht := h.shiftWindow.refill.window.transform
  exact ht.withPhase ht.phase_lt false

theorem normalise (h : BlockInv s) : BlockInv s.normalise :=
  (h.forUpTo fun k t hk hcfg ht => ⟨ht.setWork _ (by rwa [hcfg]), hcfg⟩).1.useNaNs _

theorem power (h : BlockInv s) : BlockInv s.power :=
  (h.forUpTo fun k t hk hcfg ht => ⟨ht.setWork _ (by rw [hcfg]; omega), hcfg⟩).1.useNaNs _

theorem postprocess (h : BlockInv s) : BlockInv s.postprocess := by
  unfold State.postprocess
  split
  · exact h
  · exact h.normalise
  · exact h.power
  · exact h.normalise.power

/-! #### Unit FB -/

theorem perform (h : BlockInv s) (plots : List Plot) : BlockInv (s.perform plots) := by
  have hin : ∀ p ∈ s.pixelWrites plots, p.x < s.cfg.fbW ∧ p.y < s.cfg.fbH := fun p hp =>
    ⟨(mem_pixelWrites.1 hp).1, (mem_pixelWrites.1 hp).2.1⟩
  obtain ⟨-, heq⟩ | ⟨p, hp, rest, hrest, -, ⟨-, heq⟩ | ⟨-, heq⟩⟩ := s.perform_cases plots
  · rw [heq]; exact h.respond _
  · rw [heq]; exact (h.setPixel (hin p hp)).respond _
  · rw [heq]
    refine (h.setPixel (hin p hp)).onAgent _ fun a _ todo hw q hq => ?_
    cases hw
    exact hin q (List.mem_of_mem_eraseIdx (hrest ▸ hq))

theorem pixelStep (h : BlockInv s) (t pick : Nat) : BlockInv (s.pixelStep t pick) := by
  obtain ⟨-, heq⟩ | ⟨a, todo, -, ha, hw, hdone⟩ := s.pixelStep_cases t pick
  · rw [heq]; exact h
  have hin := h.draws a (List.mem_of_getElem? ha) todo hw
  have htake : BlockInv (takePixel pick todo s).1 ∧ (takePixel pick todo s).1.cfg = s.cfg := by
    obtain heq | ⟨p, hp, heq⟩ := takePixel_state pick todo s
    · rw [heq]; exact ⟨h, rfl⟩
    · rw [heq]; exact ⟨h.setPixel (hin p hp), rfl⟩
  obtain ⟨-, heq⟩ | ⟨-, heq⟩ := hdone
  · rw [heq]
    exact htake.1.onAgent t fun b _ todo' hw' => nomatch hw'
  · rw [heq]
    refine htake.1.onAgent t fun b _ todo' hw' p hp => ?_
    cases hw'
    rw [htake.2]
    exact hin p (takePixel_rest pick todo s p hp)

theorem convertPixel (h : BlockInv s) (hst : s.fb.st = .tx) (hcur : s.fb.cur < s.cfg.lineCount)
    (hls : s.fb.ls = .convert) : BlockInv s.convertPixel := by
  have hxp := h.display.converting hls
  exact ((h.setLine _ (by omega)).setLine _ (by simp only [State.setLine_cfg]; omega)).withFb
    (h.display.convert hst hcur hls)

theorem sched (h : BlockInv s) : BlockInv s.sched := by
  obtain ⟨-, heq⟩ | ⟨-, -, heq⟩ | ⟨-, -, hcur, heq⟩ | ⟨-, hst, hcur, hls, heq⟩ | ⟨-, hst, -, hls, heq⟩ :=
    s.sched_cases
  · rw [heq]; exact h
  · rw [heq]; exact h.withFb (.start h.bounds s.fb)
  · rw [heq]; exact h.withFb (h.display.finish hcur)
  · rw [heq]; exact h.convertPixel hst hcur hls
  · rw [heq]; exact (h.withFb (h.display.send hst hls)).withEnv rfl

theorem complete (h : BlockInv s) (ok : Bool) : BlockInv (s.complete ok) := by
  obtain ⟨-, heq⟩ | ⟨-, hst, hls, heq⟩ := s.complete_cases ok
  · rw [heq]; exact h
  · rw [heq]; exact h.withFb (h.display.complete h.bounds hst hls)

/-! #### Every step -/

theorem completed {i : Instr} {t : State} (hc : Completed i s t) (h : BlockInv s) (hfit : i.operandsFit s.cfg = true)
    (hacc : Accepted i s) : BlockInv t := by
  cases hc with
  | answer hi x => exact h.respond x
  | append v => exact (h.appendElem (of_decide_eq_true hfit)).respond _
  | attach hr =>
    exact (h.withRb (h.rb.onReader _ _ fun _ => (h.rb.reader _).attached (port_free hacc rfl hr))).respond _
  | read hr hatt hcnt =>
    exact (h.withRb (h.rb.onReader _ _ fun _ => (h.rb.reader _).dropOldest (port_free hacc rfl hr))).respond _
  | consumeNone hr hatt hcnt => exact (h.withRb (h.rb.onReader _ _ fun _ => (h.rb.reader _).consume)).respond _
  | consume hr hatt hcnt =>
    exact (h.withRb (h.rb.onReader _ _ fun _ => (h.rb.reader _).consume)).onAgent _ fun a _ todo hw => nomatch hw
  | feed re im armed b =>
    exact ((h.stage _).withPhase (Nat.mod_lt _ h.bounds.seOv_pos) armed).respond _
  | compute hcnt => exact h.compute.respond _
  | postprocess => exact h.postprocess.respond _
  | draw hi plots => exact h.perform plots
  | pixelInside c p hp => exact (h.setPixel hp).respond _
  | pixelOutside x y c => exact h.respond _
  | setpal k col => exact (h.setPal col k.isLt).respond _
  | update => exact (h.withFb h.display.update).respond _

theorem moved (h : BlockInv s) {t : State} (hm : Moved s t) : BlockInv t := by
  cases hm with
  | nothing => exact h
  | answeredErr j pick hf => exact (h.select j pick).respond _
  | fault j pick w code hf => exact (h.select j pick).raiseFault w code
  | held j pick hf => exact (h.select j pick).hold
  | command ha hidle hfit hacc hc => exact completed hc (h.select _ _) hfit hacc
  | beat r => exact h.beat r
  | pixel j pick => exact h.pixelStep j pick
  | sched => exact h.sched
  | panel ok => exact h.complete ok
  | jump j pos => exact h.jump j pos
  | reset => exact h.hardReset

end BlockInv

/-- Settles O18: every move is a composition of writes that each keep the invariant. -/
theorem stepKeepsBlockInv : Obligations.StepKeepsBlockInv := fun _ _ h hstep =>
  h.afterChoice.moved (moved_of_step hstep)

end Sys2Proof.Machine

namespace Sys2Proof.Machine

/-! ### What the computations of unit SE leave alone (R236, R247) -/

/-- `t` is `s` but for unit SE's registers, `SE.X`, `SE.WORK` and the count of NaN payloads drawn. -/
structure OnlySpectral (s t : State) : Prop where
  cfg : t.cfg = s.cfg
  rb : t.rb = s.rb
  fb : t.fb = s.fb
  blk : t.blk = s.blk
  mem : t.mem = { s.mem with x := t.mem.x, work := t.mem.work }
  env : t.env = { s.env with nanDraws := t.env.nanDraws }

namespace OnlySpectral

theorem refl (s : State) : OnlySpectral s s := ⟨rfl, rfl, rfl, rfl, rfl, rfl⟩

theorem trans {s t u : State} (h : OnlySpectral s t) (h' : OnlySpectral t u) : OnlySpectral s u where
  cfg := h'.cfg.trans h.cfg
  rb := h'.rb.trans h.rb
  fb := h'.fb.trans h.fb
  blk := h'.blk.trans h.blk
  mem := by rw [h'.mem, h.mem]
  env := by rw [h'.env, h.env]

theorem forUpTo {n : Nat} {body : Nat → State → State} (hbody : ∀ k t, OnlySpectral t (body k t)) (s : State) :
    OnlySpectral s (forUpTo n body s) :=
  forUpTo_induct body s (P := fun _ t => OnlySpectral s t) n (.refl s) fun k t _ h => h.trans (hbody k t)

theorem setX (i : Nat) (v : F32) (s : State) : OnlySpectral s (s.setX i v) := ⟨rfl, rfl, rfl, rfl, rfl, rfl⟩

theorem setWork (i : Nat) (v : F32) (s : State) : OnlySpectral s (s.setWork i v) := ⟨rfl, rfl, rfl, rfl, rfl, rfl⟩

theorem withSe (se : SpectralRegs) (s : State) : OnlySpectral s { s with se := se } := ⟨rfl, rfl, rfl, rfl, rfl, rfl⟩

theorem useNaNs (n : Nat) (s : State) : OnlySpectral s (s.useNaNs n) := ⟨rfl, rfl, rfl, rfl, rfl, rfl⟩

theorem shiftWindow (s : State) : OnlySpectral s s.shiftWindow := .forUpTo (fun _ t => .setX _ _ t) s

theorem refill (s : State) : OnlySpectral s s.refill :=
  .forUpTo (fun _ t => ((withSe _ t).trans (.setX _ _ _)).trans (.setX _ _ _)) s

theorem window (s : State) : OnlySpectral s s.window :=
  (forUpTo (fun _ t => (setWork _ _ t).trans (.setWork _ _ _)) s).trans (.useNaNs _ _)

theorem transform (s : State) : OnlySpectral s s.transform :=
  .forUpTo (fun _ t => (setWork _ _ t).trans (.setWork _ _ _)) s

theorem compute (s : State) : OnlySpectral s s.compute :=
  ((((shiftWindow s).trans (.refill _)).trans (.window _)).trans (.transform _)).trans (.withSe _ _)

theorem normalise (s : State) : OnlySpectral s s.normalise :=
  (forUpTo (fun _ t => .setWork _ _ t) s).trans (.useNaNs _ _)

theorem power (s : State) : OnlySpectral s s.power := (forUpTo (fun _ t => .setWork _ _ t) s).trans (.useNaNs _ _)

theorem postprocess (s : State) : OnlySpectral s s.postprocess := by
  unfold State.postprocess
  split
  · exact .refl s
  · exact .normalise s
  · exact .power s
  · exact (normalise s).trans (.power _)

theorem agents {s t : State} (h : OnlySpectral s t) : t.env.agents = s.env.agents := by rw [h.env]

end OnlySpectral

/-! ### Bursts and ports (R48, R195, R196)

The agreement of `BurstInv` speaks of two functions of the state only: the beats that each port has left, and the burst
that each agent has in progress. -/

/-- A CONSUME in progress: its reader, its length, and what it has delivered. -/
abbrev Burst := Nat × Nat × List Elem

/-- The burst among the kinds of work. -/
def burstOf : Work → Option Burst
  | .burst r k vs => some (r, k, vs)
  | .idle => none
  | .draw _ => none

theorem burstOf_eq_some {w : Work} {r k : Nat} {vs : List Elem} :
    burstOf w = some (r, k, vs) ↔ w = .burst r k vs := by
  cases w <;> simp [burstOf]

/-- The burst that agent `j` has in progress. -/
def State.burstAt (s : State) (j : Nat) : Option Burst := s.env.agents[j]?.bind fun a => burstOf a.work

theorem State.burstAt_eq_some {s : State} {j r k : Nat} {vs : List Elem} :
    s.burstAt j = some (r, k, vs) ↔ ∃ a, s.env.agents[j]? = some a ∧ a.work = .burst r k vs := by
  simp [State.burstAt, Option.bind_eq_some_iff, burstOf_eq_some]

/-- The beats that each port has left and the burst that each agent has in progress agree. -/
structure BurstsAgree (br : Nat → Nat) (b : Nat → Option Burst) : Prop where
  counted : ∀ {j r k vs}, b j = some (r, k, vs) → 0 < br r ∧ k = vs.length + br r
  owned : ∀ {r}, 0 < br r → ∃ j k vs, b j = some (r, k, vs)
  single : ∀ {t u r k l vs ws}, b t = some (r, k, vs) → b u = some (r, l, ws) → t = u

/-- The beats that port `r` has left. -/
def State.beatsLeft (s : State) (r : Nat) : Nat := (s.rb.reader r).br

theorem burstInv_iff {s : State} : BurstInv s ↔
    (s.blk.faulted = false → BurstsAgree s.beatsLeft s.burstAt) ∧
    (s.blk.faulted = true → ∀ a ∈ s.env.agents, a.work = .idle ∧ a.held = false) := by
  constructor
  · intro h
    refine ⟨fun hf => ⟨fun {j r k vs} hj => ?_, fun {r} hr => ?_, fun {t u r k l vs ws} ht hu => ?_⟩, h.stopped⟩
    · obtain ⟨a, ha, hw⟩ := State.burstAt_eq_some.1 hj
      exact h.counted hf a (List.mem_of_getElem? ha) r k vs hw
    · obtain ⟨a, ha, k, vs, hw⟩ := h.owned hf r hr
      obtain ⟨j, hj⟩ := List.mem_iff_getElem?.1 ha
      exact ⟨j, k, vs, State.burstAt_eq_some.2 ⟨a, hj, hw⟩⟩
    · obtain ⟨a, ha, hwa⟩ := State.burstAt_eq_some.1 ht
      obtain ⟨b, hb, hwb⟩ := State.burstAt_eq_some.1 hu
      exact h.single t u a b r k l vs ws ha hb hwa hwb
  · rintro ⟨hagree, hstopped⟩
    refine ⟨fun hf a ha r k vs hw => ?_, fun hf r hr => ?_, fun t u a b r k l vs ws ha hb hwa hwb => ?_, hstopped⟩
    · obtain ⟨j, hj⟩ := List.mem_iff_getElem?.1 ha
      exact (hagree hf).counted (State.burstAt_eq_some.2 ⟨a, hj, hw⟩)
    · obtain ⟨j, k, vs, hj⟩ := (hagree hf).owned hr
      obtain ⟨a, ha, hw⟩ := State.burstAt_eq_some.1 hj
      exact ⟨a, List.mem_of_getElem? ha, k, vs, hw⟩
    · cases hf : s.blk.faulted with
      | false =>
        exact (hagree hf).single (State.burstAt_eq_some.2 ⟨a, ha, hwa⟩) (State.burstAt_eq_some.2 ⟨b, hb, hwb⟩)
      | true => simp [(hstopped hf a (List.mem_of_getElem? ha)).1] at hwa

namespace BurstsAgree

variable {br : Nat → Nat} {b : Nat → Option Burst}

/-- A burst begins on a port that is not busy, for an agent without one (R195). -/
theorem begin (h : BurstsAgree br b) {r j k : Nat} (hbr : br r = 0) (hj : b j = none) (hk : 0 < k) :
    BurstsAgree (Function.update br r k) (Function.update b j (some (r, k, []))) := by
  have hother : ∀ {i q l vs}, b i = some (q, l, vs) → i ≠ j ∧ q ≠ r := by
    refine fun hi => ⟨?_, ?_⟩
    · rintro rfl; simp [hj] at hi
    · rintro rfl; exact absurd (h.counted hi).1 (by omega)
  have hcases : ∀ {i q l vs}, Function.update b j (some (r, k, [])) i = some (q, l, vs) →
      (i = j ∧ q = r ∧ l = k ∧ vs = []) ∨ b i = some (q, l, vs) := by
    intro i q l vs hi
    by_cases hij : i = j
    · subst hij
      simp only [Function.update_self, Option.some.injEq, Prod.mk.injEq] at hi
      exact .inl ⟨rfl, hi.1.symm, hi.2.1.symm, hi.2.2.symm⟩
    · rw [Function.update_of_ne hij] at hi
      exact .inr hi
  refine ⟨fun hi => ?_, fun {q} hq => ?_, fun ht hu => ?_⟩
  · obtain ⟨-, rfl, rfl, rfl⟩ | hi := hcases hi
    · simp [hk]
    · rw [Function.update_of_ne (hother hi).2]
      exact h.counted hi
  · by_cases hqr : q = r
    · exact ⟨j, k, [], by rw [Function.update_self, hqr]⟩
    · rw [Function.update_of_ne hqr] at hq
      obtain ⟨i, l, vs, hi⟩ := h.owned hq
      exact ⟨i, l, vs, by rw [Function.update_of_ne (hother hi).1, hi]⟩
  · obtain ⟨rfl, hqt, -, -⟩ | hold := hcases ht <;> obtain ⟨hju, hqu, -, -⟩ | hold' := hcases hu
    · exact hju.symm
    · exact absurd hqt (hother hold').2
    · exact absurd hqu (hother hold).2
    · exact h.single hold hold'

/-- What a beat of reader `r` makes of a burst (R196). -/
def afterBeat (r : Nat) (v : Elem) (last : Bool) : Burst → Option Burst
  | (q, k, vs) => if q = r then if last then none else some (q, k, vs ++ [v]) else some (q, k, vs)

theorem afterBeat_eq_some {r q l : Nat} {v : Elem} {last : Bool} {x : Burst} {vs : List Elem}
    (h : afterBeat r v last x = some (q, l, vs)) :
    (q = r ∧ last = false ∧ ∃ ws, x = (q, l, ws) ∧ vs = ws ++ [v]) ∨ (q ≠ r ∧ x = (q, l, vs)) := by
  obtain ⟨q', l', vs'⟩ := x
  by_cases hq : q' = r
  · cases last with
    | true => simp [afterBeat, hq] at h
    | false =>
      simp only [afterBeat, if_pos hq, Bool.false_eq_true, if_false, Option.some.injEq, Prod.mk.injEq] at h
      obtain ⟨rfl, rfl, rfl⟩ := h
      exact .inl ⟨hq, rfl, vs', rfl, rfl⟩
  · simp only [afterBeat, if_neg hq, Option.some.injEq, Prod.mk.injEq] at h
    obtain ⟨rfl, rfl, rfl⟩ := h
    exact .inr ⟨hq, rfl⟩

/-- A beat delivers one element of the port's one burst; the last one ends it (R196). -/
theorem beat (h : BurstsAgree br b) {r : Nat} (hbr : 0 < br r) (v : Elem) :
    BurstsAgree (Function.update br r (br r - 1)) (fun j => (b j).bind (afterBeat r v (decide (br r = 1)))) := by
  refine ⟨fun hj => ?_, fun {q} hq => ?_, fun ht hu => ?_⟩
  · obtain ⟨x, hx, hafter⟩ := Option.bind_eq_some_iff.1 hj
    obtain ⟨rfl, hlast, ws, rfl, rfl⟩ | ⟨hq, rfl⟩ := afterBeat_eq_some hafter
    · have hcount := h.counted hx
      have hmore : br _ ≠ 1 := of_decide_eq_false hlast
      simp only [Function.update_self, List.length_append, List.length_singleton]
      omega
    · rw [Function.update_of_ne hq]
      exact h.counted hx
  · by_cases hqr : q = r
    · subst hqr
      obtain ⟨j, k, vs, hj⟩ := h.owned hbr
      have hmore : br q ≠ 1 := by rw [Function.update_self] at hq; omega
      exact ⟨j, k, vs ++ [v], by simp [hj, afterBeat, hmore]⟩
    · rw [Function.update_of_ne hqr] at hq
      obtain ⟨j, k, vs, hj⟩ := h.owned hq
      exact ⟨j, k, vs, by simp [hj, afterBeat, hqr]⟩
  · obtain ⟨x, hx, hxa⟩ := Option.bind_eq_some_iff.1 ht
    obtain ⟨y, hy, hya⟩ := Option.bind_eq_some_iff.1 hu
    have source : ∀ {z : Burst} {q l : Nat} {vs : List Elem}, afterBeat r v (decide (br r = 1)) z = some (q, l, vs) →
        ∃ ws, z = (q, l, ws) := by
      intro z q l vs hz
      obtain ⟨-, -, ws, rfl, -⟩ | ⟨-, rfl⟩ := afterBeat_eq_some hz
      · exact ⟨ws, rfl⟩
      · exact ⟨vs, rfl⟩
    obtain ⟨vs, rfl⟩ := source hxa
    obtain ⟨ws, rfl⟩ := source hya
    exact h.single hx hy

end BurstsAgree

/-! #### The two functions under the operations -/

theorem State.burstAt_onAgent {s : State} {t : Nat} {f : Agent → Agent}
    (hf : ∀ a, s.env.agents[t]? = some a → burstOf (f a).work = burstOf a.work) :
    (s.onAgent t f).burstAt = s.burstAt := by
  funext j
  unfold State.burstAt
  rw [State.agents_onAgent]
  split_ifs with h
  · subst h
    cases ha : s.env.agents[t]? with
    | none => rfl
    | some a => simpa using hf a ha
  · rfl

theorem State.burstAt_respond (s : State) (x : Response) : (s.respond x).burstAt = s.burstAt :=
  burstAt_onAgent fun _ _ => rfl

/-- The issuer's command begins a burst. -/
theorem State.burstAt_beginWork {s : State} {a : Agent} {r k : Nat} (ha : s.env.agents[s.env.issuer]? = some a) :
    (s.beginWork (.burst r k [])).burstAt = Function.update s.burstAt s.env.issuer (some (r, k, [])) := by
  funext j
  unfold State.burstAt
  rw [State.agents_beginWork]
  by_cases h : s.env.issuer = j
  · subst h
    simp [ha, Agent.begin, burstOf]
  · rw [if_neg h, Function.update_of_ne (Ne.symm h)]

theorem burstOf_deliver (a : Agent) (r : Nat) (v : Elem) (last : Bool) :
    burstOf (a.deliver r v last).work = (burstOf a.work).bind (BurstsAgree.afterBeat r v last) := by
  cases hw : a.work with
  | idle => simp [Agent.deliver, hw, burstOf]
  | draw todo => simp [Agent.deliver, hw, burstOf]
  | burst q k vs =>
    by_cases hq : q = r
    · subst hq
      rw [Agent.deliver_of_burst a v last hw]
      cases last <;> simp [burstOf, BurstsAgree.afterBeat]
    · rw [Agent.deliver_of_other a v last (by simp [hw, hq])]
      simp [hw, burstOf, BurstsAgree.afterBeat, hq]

theorem State.burstAt_beat {s : State} {r : Nat} (h : s.beatEnabled r = true) :
    (s.beat r).burstAt =
      fun j => (s.burstAt j).bind (BurstsAgree.afterBeat r (s.oldest r) (decide (s.beatsLeft r = 1))) := by
  funext j
  unfold State.burstAt
  rw [State.agents_beat s j r h]
  cases s.env.agents[j]? with
  | none => rfl
  | some a => exact burstOf_deliver a ..

theorem Ring.br_onReader (g : Ring) (r : Nat) (f : Reader → Reader) (h : r < g.readers.length) :
    (fun q => ((g.onReader r f).reader q).br) = Function.update (fun q => (g.reader q).br) r (f (g.reader r)).br := by
  funext q
  by_cases hq : q = r
  · rw [hq, Function.update_self, Ring.reader_onReader_same _ _ _ h]
  · rw [Function.update_of_ne hq, Ring.reader_onReader_other _ _ _ _ hq]

/-- A busy port exists. -/
theorem Ring.lt_of_br_pos {g : Ring} {r : Nat} (h : 0 < (g.reader r).br) : r < g.readers.length := by
  by_contra hr
  rw [Ring.reader_absent g r (not_lt.1 hr)] at h
  exact absurd h (lt_irrefl 0)

/-! #### The agreement of bursts and ports under every step -/

/-- The block changed in something that is neither a port's burst count nor an agent. -/
structure SameBursts (s t : State) : Prop where
  blk : t.blk = s.blk
  left : t.beatsLeft = s.beatsLeft
  agents : t.env.agents = s.env.agents

theorem OnlySpectral.sameBursts {s t : State} (h : OnlySpectral s t) : SameBursts s t :=
  ⟨h.blk, by unfold State.beatsLeft; rw [h.rb], h.agents⟩

namespace BurstInv

variable {s t : State}

theorem agree (h : BurstInv s) (hf : s.blk.faulted = false) : BurstsAgree s.beatsLeft s.burstAt :=
  (burstInv_iff.1 h).1 hf

theorem of_agree (hf : t.blk.faulted = false) (h : BurstsAgree t.beatsLeft t.burstAt) : BurstInv t :=
  burstInv_iff.2 ⟨fun _ => h, fun hf' => by simp [hf] at hf'⟩

theorem of_stopped (hf : t.blk.faulted = true) (h : ∀ a ∈ t.env.agents, a.work = .idle ∧ a.held = false) :
    BurstInv t :=
  burstInv_iff.2 ⟨fun hf' => by simp [hf] at hf', fun _ => h⟩

/-- While the block is not faulted, only the ports and the bursts matter. -/
theorem of_same (h : BurstInv s) (hf : s.blk.faulted = false) (hblk : t.blk = s.blk) (hleft : t.beatsLeft = s.beatsLeft)
    (hburst : t.burstAt = s.burstAt) : BurstInv t :=
  of_agree (hblk ▸ hf) (by rw [hleft, hburst]; exact h.agree hf)

theorem withEnv (h : BurstInv s) {e : Env} (he : e.agents = s.env.agents) : BurstInv { s with env := e } := by
  obtain ⟨hcounted, howned, hsingle, hstopped⟩ := h
  exact ⟨he ▸ hcounted, he ▸ howned, he ▸ hsingle, he ▸ hstopped⟩

theorem afterChoice (h : BurstInv s) : BurstInv s.afterChoice := by
  unfold State.afterChoice
  split
  · exact h.withEnv rfl
  · exact h.withEnv rfl

/-- Fault entry closes everything (R346). -/
theorem raiseFault (s : State) (w : CmdWord) (code : FaultCode) : BurstInv (s.raiseFault w code) := by
  refine of_stopped rfl ?_
  simp only [State.raiseFault_env, List.forall_mem_map]
  exact fun a _ => ⟨by simp, by simp⟩

theorem hardReset (s : State) : BurstInv s.hardReset := by
  have hleft : s.hardReset.beatsLeft = fun _ => 0 := by
    funext r
    simp [State.beatsLeft, Ring.reset, Ring.reader, Reader.reset]
  have hburst : s.hardReset.burstAt = fun _ => none := by
    funext j
    unfold State.burstAt
    rw [State.agents_hardReset]
    cases s.env.agents[j]? <;> rfl
  refine of_agree rfl ?_
  rw [hleft, hburst]
  exact ⟨fun h => (nomatch h), fun h => absurd h (lt_irrefl 0), fun h => nomatch h⟩

theorem beat (h : BurstInv s) (r : Nat) : BurstInv (s.beat r) := by
  by_cases hen : s.beatEnabled r = true
  · have hf : s.blk.faulted = false ∧ 0 < (s.rb.reader r).br := by simpa [State.beatEnabled] using hen
    have hleft : (s.beat r).beatsLeft = Function.update s.beatsLeft r (s.beatsLeft r - 1) := by
      unfold State.beat
      rw [if_pos hen]
      exact Ring.br_onReader _ _ _ (Ring.lt_of_br_pos hf.2)
    have hblk : (s.beat r).blk = s.blk := by unfold State.beat; rw [if_pos hen]; rfl
    refine of_agree (hblk ▸ hf.1) ?_
    rw [hleft, State.burstAt_beat hen]
    exact (h.agree hf.1).beat hf.2 _
  · unfold State.beat
    rwa [if_neg hen]

/-- A change of one agent that starts or ends no burst. -/
theorem onAgent (h : BurstInv s) {j : Nat} {f : Agent → Agent} (hf : s.blk.faulted = false)
    (hwork : ∀ a, s.env.agents[j]? = some a → burstOf (f a).work = burstOf a.work) : BurstInv (s.onAgent j f) :=
  h.of_same hf rfl rfl (State.burstAt_onAgent hwork)

theorem respond (h : BurstInv s) (hf : s.blk.faulted = false) (x : Response) : BurstInv (s.respond x) :=
  h.onAgent hf fun _ _ => rfl

theorem withBlock (h : BurstInv s) (hf : s.blk.faulted = false) (ht : SameBursts s t) : BurstInv t :=
  h.of_same hf ht.blk ht.left (by unfold State.burstAt; rw [ht.agents])

theorem answered (h : BurstInv s) {x : Response} (hf : s.blk.faulted = false) (ht : SameBursts s t) :
    BurstInv (t.respond x) :=
  (h.withBlock hf ht).respond (ht.blk ▸ hf) x

theorem perform (h : BurstInv s) (hf : s.blk.faulted = false) {a : Agent} (ha : s.env.agents[s.env.issuer]? = some a)
    (hidle : a.work = .idle) (plots : List Plot) : BurstInv (s.perform plots) := by
  obtain ⟨-, heq⟩ | ⟨p, -, rest, -, -, ⟨-, heq⟩ | ⟨-, heq⟩⟩ := s.perform_cases plots
  · rw [heq]; exact h.respond hf _
  · rw [heq]; exact h.answered (t := s.setPixel p) hf ⟨rfl, rfl, rfl⟩
  · rw [heq]
    refine (h.withBlock (t := s.setPixel p) hf ⟨rfl, rfl, rfl⟩).onAgent hf fun b hb => ?_
    obtain rfl : a = b := Option.some.inj (ha.symm.trans hb)
    rw [hidle]
    rfl

theorem pixelStep (h : BurstInv s) (j pick : Nat) : BurstInv (s.pixelStep j pick) := by
  obtain ⟨-, heq⟩ | ⟨a, todo, hf, ha, hw, hdone⟩ := s.pixelStep_cases j pick
  · rw [heq]; exact h
  have htake : ∃ u : State, (takePixel pick todo s).1 = u ∧ BurstInv u ∧ u.blk = s.blk ∧ u.env = s.env := by
    obtain heq | ⟨p, -, heq⟩ := takePixel_state pick todo s
    · exact ⟨s, heq, h, rfl, rfl⟩
    · exact ⟨s.setPixel p, heq, h.withBlock hf ⟨rfl, rfl, rfl⟩, rfl, rfl⟩
  obtain ⟨u, hu, hinv, hblk, henv⟩ := htake
  have hdraw : ∀ b, u.env.agents[j]? = some b → burstOf b.work = none := by
    intro b hb
    obtain rfl : a = b := Option.some.inj (ha.symm.trans (henv ▸ hb))
    rw [hw]
    rfl
  obtain ⟨-, heq⟩ | ⟨-, heq⟩ := hdone
  · rw [heq, hu]
    exact hinv.onAgent (hblk ▸ hf) fun b hb => (hdraw b hb).symm
  · rw [heq, hu]
    exact hinv.onAgent (hblk ▸ hf) fun b hb => (hdraw b hb).symm

theorem sched (h : BurstInv s) : BurstInv s.sched := by
  obtain ⟨-, heq⟩ | ⟨hf, -, heq⟩ | ⟨hf, -, -, heq⟩ | ⟨hf, -, -, -, heq⟩ | ⟨hf, -, -, -, heq⟩ := s.sched_cases
  · rw [heq]; exact h
  all_goals rw [heq]; exact h.withBlock hf ⟨rfl, rfl, rfl⟩

theorem complete (h : BurstInv s) (ok : Bool) : BurstInv (s.complete ok) := by
  obtain ⟨-, heq⟩ | ⟨hf, -, -, heq⟩ := s.complete_cases ok
  · rw [heq]; exact h
  · rw [heq]; exact h.withBlock hf ⟨rfl, rfl, rfl⟩

theorem jump (h : BurstInv s) (j pos : Nat) : BurstInv (s.jump j pos) := by
  unfold State.jump
  split
  · exact h
  · split
    · cases hf : s.blk.faulted with
      | false => exact h.onAgent hf fun _ _ => rfl
      | true => exact of_stopped hf (forall_mem_modify j (h.stopped hf) fun _ hb => hb)
    · exact h

theorem completed {i : Instr} (hc : Completed i s t) (hb : BlockInv s) (h : BurstInv s) (hacc : Accepted i s)
    {a : Agent} (ha : s.env.agents[s.env.issuer]? = some a) (hidle : a.work = .idle) : BurstInv t := by
  have hf := hacc.1
  cases hc with
  | answer hi x => exact h.respond hf x
  | append v =>
    refine h.answered hf ⟨rfl, ?_, rfl⟩
    funext r
    simp [State.beatsLeft, Ring.reader_append]
  | @attach _ r hr =>
    refine h.answered hf ⟨rfl, ?_, rfl⟩
    have hlen := hb.rb.ports.symm ▸ hr
    exact (Ring.br_onReader _ _ _ hlen).trans (Function.update_eq_self _ _)
  | @read _ r hr hatt hcnt =>
    refine h.answered hf ⟨rfl, ?_, rfl⟩
    have hlen := hb.rb.ports.symm ▸ hr
    exact (Ring.br_onReader _ _ _ hlen).trans (Function.update_eq_self _ _)
  | @consumeNone _ r hr hatt hcnt =>
    refine h.answered hf ⟨rfl, ?_, rfl⟩
    have hlen := hb.rb.ports.symm ▸ hr
    refine (Ring.br_onReader _ _ _ hlen).trans ?_
    rw [hcnt, ← BlockInv.port_free hacc rfl hr]
    exact Function.update_eq_self _ _
  | @consume _ r hr hatt hcnt =>
    have hlen := hb.rb.ports.symm ▸ hr
    have hnone : s.burstAt s.env.issuer = none := by simp [State.burstAt, ha, hidle, burstOf]
    have hbegin := (h.agree hf).begin (BlockInv.port_free hacc rfl hr) hnone (Nat.pos_of_ne_zero hcnt)
    exact of_agree hf <|
      (congrArg₂ BurstsAgree (Ring.br_onReader s.rb _ _ hlen) (State.burstAt_beginWork ha)).mpr hbegin
  | feed re im armed b => exact h.answered hf ⟨rfl, rfl, rfl⟩
  | compute hcnt => exact h.answered hf (OnlySpectral.compute s).sameBursts
  | postprocess => exact h.answered hf (OnlySpectral.postprocess s).sameBursts
  | draw hi plots => exact h.perform hf ha hidle plots
  | pixelInside c p hp => exact h.answered (t := s.setPixel p) hf ⟨rfl, rfl, rfl⟩
  | pixelOutside x y c => exact h.respond hf _
  | setpal k col =>
    refine h.answered hf ⟨by simp, ?_, by simp⟩
    unfold State.beatsLeft
    rw [State.setPal_rb]
  | update => exact h.answered hf ⟨rfl, rfl, rfl⟩

theorem moved (h : BurstInv s) (hb : BlockInv s) (hm : Moved s t) : BurstInv t := by
  cases hm with
  | nothing => exact h
  | answeredErr j pick hf => exact of_stopped hf (forall_mem_modify _ (h.stopped hf) fun _ ha => ⟨ha.1, rfl⟩)
  | fault j pick w code hf => exact raiseFault _ w code
  | held j pick hf => exact (h.withEnv (e := (s.select j pick).env) rfl).onAgent hf fun _ _ => rfl
  | command ha hidle hfit hacc hc => exact completed hc (hb.select _ _) (h.withEnv rfl) hacc ha hidle
  | beat r => exact h.beat r
  | pixel j pick => exact h.pixelStep j pick
  | sched => exact h.sched
  | panel ok => exact h.complete ok
  | jump j pos => exact h.jump j pos
  | reset => exact hardReset s

end BurstInv

/-- Settles O19: a burst begins on a free port for an agent without one, a beat serves the port's only burst, fault
entry and reset end them all, and nothing else touches a burst or its port. -/
theorem stepKeepsBurstInv : Obligations.StepKeepsBurstInv := fun _ _ hb h hstep =>
  h.afterChoice.moved hb.afterChoice (moved_of_step hstep)

end Sys2Proof.Machine

namespace Sys2Proof.Machine

/-! ### The slots of a reader's unread elements (R49, R51)

The queue of a reader and the invariant that what is still to be read is written both speak of these slots, for unit
RB and for `SE.STG`; what each operation does to them is said here once. -/

namespace Ring

/-- The slots of reader `r`'s unread elements, oldest first. -/
def slots (cap : Nat) (g : Ring) (r : Nat) : List Nat :=
  (List.range (g.reader r).cnt).map fun j => (g.readAddr cap r + j) % cap

variable {cap r : Nat} {g g' : Ring}

@[simp] theorem slots_length : (g.slots cap r).length = (g.reader r).cnt := by
  simp [slots]

theorem slots_of_empty (h : (g.reader r).cnt = 0) : g.slots cap r = [] := by
  simp [slots, h]

/-- Counting from the oldest element is counting from the cursor. -/
theorem mem_slots (hc : (g.reader r).cnt ≤ cap) {a : Nat} :
    a ∈ g.slots cap r ↔ ∃ j < (g.reader r).cnt, a = (g.wr + (cap - (g.reader r).cnt) + j) % cap := by
  simp [slots, readAddr_eq g r hc, eq_comm]

/-- With the cursor unmoved, a reader that has no more to read has no other slots to read. -/
theorem slots_subset (hc : (g.reader r).cnt ≤ cap) (hwr : g'.wr = g.wr) (hle : (g'.reader r).cnt ≤ (g.reader r).cnt) :
    g'.slots cap r ⊆ g.slots cap r := by
  intro a ha
  obtain ⟨j, hj, rfl⟩ := (mem_slots (hle.trans hc)).1 ha
  refine (mem_slots hc).2 ⟨j + ((g.reader r).cnt - (g'.reader r).cnt), by omega, ?_⟩
  rw [hwr]
  congr 1
  omega

theorem slots_congr (hwr : g'.wr = g.wr) (hcnt : (g'.reader r).cnt = (g.reader r).cnt) :
    g'.slots cap r = g.slots cap r := by
  simp [slots, readAddr, hwr, hcnt]

/-- Removing the oldest element takes the slot at the read position from the front. -/
theorem slots_eq_cons (hc : (g.reader r).cnt ≤ cap) (hwr : g'.wr = g.wr)
    (hcnt : (g.reader r).cnt = (g'.reader r).cnt + 1) : g.slots cap r = g.readAddr cap r :: g'.slots cap r := by
  have hnext : g'.readAddr cap r = (g.readAddr cap r + 1) % cap := by
    rw [readAddr_eq g r hc, readAddr_eq g' r (by omega), hwr, Nat.mod_add_mod]
    congr 1
    omega
  unfold slots
  rw [hcnt, List.range_succ_eq_map, List.map_cons, List.map_map, Nat.add_zero,
    Nat.mod_eq_of_lt (readAddr_lt g r (by omega)), hnext]
  congr 1
  refine List.map_congr_left fun j _ => ?_
  simp only [Function.comp_apply, Nat.mod_add_mod]
  congr 1
  omega

theorem readAddr_mem_slots (hc : (g.reader r).cnt ≤ cap) (hpos : 0 < (g.reader r).cnt) :
    g.readAddr cap r ∈ g.slots cap r :=
  List.mem_map.2 ⟨0, List.mem_range.2 hpos, Nat.mod_eq_of_lt (readAddr_lt g r (hpos.trans_le hc))⟩

/-- A reader has no slot to read twice: it has at most `cap` of them, one after another. -/
theorem slots_nodup (hc : (g.reader r).cnt ≤ cap) : (g.slots cap r).Nodup := by
  refine List.Nodup.map_on (fun i hi j hj h => ?_) List.nodup_range
  rw [List.mem_range] at hi hj
  exact Nat.ModEq.eq_of_lt_of_lt (Nat.ModEq.add_left_cancel' _ h) (hi.trans_le hc) (hj.trans_le hc)

/-- After the slots still to be read comes the cursor. -/
theorem slots_concat_wr (hc : (g.reader r).cnt ≤ cap) (hwr : g.wr < cap) :
    g.slots cap r ++ [g.wr] = (List.range ((g.reader r).cnt + 1)).map fun j => (g.readAddr cap r + j) % cap := by
  have hend : (g.readAddr cap r + (g.reader r).cnt) % cap = g.wr := by
    have hround : g.wr + (cap - (g.reader r).cnt) + (g.reader r).cnt = g.wr + cap := by omega
    rw [readAddr_eq g r hc, Nat.mod_add_mod, hround, Nat.add_mod_right, Nat.mod_eq_of_lt hwr]
  rw [List.range_succ, List.map_append, List.map_singleton, hend]
  rfl

/-- APPEND adds the cursor's slot at the end and, when that makes one too many, drops the first (R185, R186). -/
theorem slots_append {p : RingParams} (hinv : ReaderInv p (g.reader r)) (hwr : g.wr < p.cap)
    (hatt : (g.reader r).att = true) :
    (g.append p).slots p.cap r = (g.slots p.cap r).drop ((g.reader r).cnt + 1 - p.cap) ++ [g.wr] := by
  have hc := hinv.cnt_le
  have hcnt' : ((g.append p).reader r).cnt =
      if (g.reader r).cnt < p.cap then (g.reader r).cnt + 1 else (g.reader r).cnt := by
    rw [reader_append, Reader.onAppend_cnt]
    simp [hatt]
  rw [← List.drop_append_of_le_length (by rw [slots_length]; omega), slots_concat_wr hc hwr]
  by_cases hfull : (g.reader r).cnt < p.cap
  · rw [if_pos hfull] at hcnt'
    have haddr : (g.append p).readAddr p.cap r = g.readAddr p.cap r := by
      rw [readAddr_eq _ _ (by omega), readAddr_eq g r hc, hcnt', append_wr, Nat.mod_add_mod]
      congr 1
      omega
    rw [show (g.reader r).cnt + 1 - p.cap = 0 by omega, List.drop_zero, slots, hcnt', haddr]
  · rw [if_neg hfull] at hcnt'
    have hcap : (g.reader r).cnt = p.cap := by omega
    have haddr : (g.append p).readAddr p.cap r = (g.readAddr p.cap r + 1) % p.cap := by
      rw [readAddr_eq _ _ (by omega), readAddr_eq g r hc, hcnt', append_wr, Nat.mod_add_mod, Nat.mod_add_mod]
      congr 1
      omega
    rw [show (g.reader r).cnt + 1 - p.cap = 1 by omega, List.range_succ_eq_map, List.map_cons, List.drop_one,
      List.tail_cons, List.map_map, slots, hcnt', haddr]
    refine List.map_congr_left fun j _ => ?_
    simp only [Function.comp_apply, Nat.mod_add_mod]
    congr 1
    omega

end Ring

/-! ### What is still to be read stays written (R51, R60)

`WrittenInv` through the slots; every step keeps it. -/

/-- Every slot that a reader of the ring `g` has still to read is written in the array `m`. -/
def SlotsWritten (cap : Nat) (g : Ring) (m : Cells Elem) (r : Nat) : Prop := ∀ a ∈ g.slots cap r, Written m a

/-- The bytes of the line converted so far are written (R60). -/
def LineWritten (f : DisplayRegs) (m : Cells Byte) : Prop := f.st = .tx → ∀ j, j < 2 * f.xp → Cells.find? m j ≠ none

theorem writtenInv_iff {s : State} : WrittenInv s ↔
    (∀ r, SlotsWritten s.cfg.rbN s.rb s.mem.rbData r) ∧ SlotsWritten s.cfg.seS s.se.stg s.mem.stgData 0 ∧
      LineWritten s.fb s.mem.line := by
  simp only [SlotsWritten, Ring.slots, List.forall_mem_map, List.mem_range]
  exact ⟨fun h => ⟨fun r j hj => h.rb r j hj, fun j hj => h.stg j hj, h.line⟩,
    fun ⟨hrb, hstg, hline⟩ => ⟨fun r j hj => hrb r j hj, fun j hj => hstg j hj, hline⟩⟩

theorem written_set {m : Cells Elem} {i a : Nat} {v : Elem} (h : a = i ∨ Written m a) :
    Written (Cells.set (unspecified 64) m i v) a := by
  unfold Written unspecified
  rw [Cells.find?_set_none]
  split_ifs with hai
  · simp
  · exact h.resolve_left hai

namespace SlotsWritten

variable {cap r : Nat} {g g' : Ring} {m : Cells Elem}

theorem of_le (h : SlotsWritten cap g m r) (hc : (g.reader r).cnt ≤ cap) (hwr : g'.wr = g.wr)
    (hle : (g'.reader r).cnt ≤ (g.reader r).cnt) : SlotsWritten cap g' m r :=
  fun _ ha => h _ (Ring.slots_subset hc hwr hle ha)

/-- An APPEND writes the one slot that it adds. -/
theorem append {p : RingParams} (h : SlotsWritten p.cap g m r) (hinv : ReaderInv p (g.reader r)) (hwr : g.wr < p.cap)
    (v : Elem) : SlotsWritten p.cap (g.append p) (Cells.set (unspecified 64) m g.wr v) r := by
  intro a ha
  cases hatt : (g.reader r).att with
  | true =>
    rw [Ring.slots_append hinv hwr hatt, List.mem_append, List.mem_singleton] at ha
    exact written_set (ha.symm.imp_right fun hold => h a (List.mem_of_mem_drop hold))
  | false =>
    have hnone : ((g.append p).reader r).cnt = 0 := by
      rw [Ring.reader_append, Reader.onAppend_cnt]
      simp [hatt, (hinv.unattached hatt).1]
    rw [Ring.slots_of_empty hnone] at ha
    exact absurd ha List.not_mem_nil

end SlotsWritten

theorem shiftWindow_se (s : State) : s.shiftWindow.se = s.se := by rw [s.shiftWindow_spec.1]

theorem window_se (s : State) : s.window.se = s.se := by rw [s.window_spec.1]

theorem transform_se (s : State) : s.transform.se = s.se := by rw [s.transform_spec.1]

theorem normalise_se (s : State) : s.normalise.se = s.se := by rw [s.normalise_spec.1]

theorem power_se (s : State) : s.power.se = s.se := by rw [s.power_spec.1]

/-- COMPUTE takes `SE_OV` samples from the staging ring and leaves its cursor alone (R241). -/
theorem compute_stg {s : State} (hb : BlockInv s) (hcnt : s.cfg.seOv ≤ (s.se.stg.reader 0).cnt) :
    s.compute.se.stg = s.se.stg.onReader 0 fun q => { q with cnt := q.cnt - s.cfg.seOv } := by
  have hse := shiftWindow_se s
  have hcfg := (OnlySpectral.shiftWindow s).cfg
  obtain ⟨-, hrefill, -, -⟩ := s.shiftWindow.refill_spec hb.shiftWindow.stg.ports
    (hb.shiftWindow.stg.reader 0).cnt_le (by rw [hse, hcfg]; exact hcnt)
  simp only [State.compute, transform_se, window_se, hrefill, hse, hcfg]

/-- POSTPROCESS leaves the registers of unit SE alone (R247). -/
theorem postprocess_se (s : State) : s.postprocess.se = s.se := by
  unfold State.postprocess
  split
  · rfl
  · exact normalise_se s
  · exact power_se s
  · exact (power_se _).trans (normalise_se s)

namespace WrittenInv

variable {s t : State}

theorem slots (h : WrittenInv s) (r : Nat) : SlotsWritten s.cfg.rbN s.rb s.mem.rbData r := (writtenInv_iff.1 h).1 r

theorem staged (h : WrittenInv s) : SlotsWritten s.cfg.seS s.se.stg s.mem.stgData 0 := (writtenInv_iff.1 h).2.1

theorem of_sameBlock (h : WrittenInv s) (ht : SameBlock s t) : WrittenInv t := by
  obtain ⟨hcfg, hmem, hrb, hse, hfb, -⟩ := ht
  rw [writtenInv_iff] at h ⊢
  rwa [hcfg, hmem, hrb, hse, hfb]

theorem respond (h : WrittenInv s) (x : Response) : WrittenInv (s.respond x) :=
  h.of_sameBlock ⟨rfl, rfl, rfl, rfl, rfl, rfl⟩

theorem select (h : WrittenInv s) (j pick : Nat) : WrittenInv (s.select j pick) :=
  h.of_sameBlock ⟨rfl, rfl, rfl, rfl, rfl, rfl⟩

theorem afterChoice (h : WrittenInv s) : WrittenInv s.afterChoice := by
  refine h.of_sameBlock ⟨?_, ?_, ?_, ?_, ?_, ?_⟩ <;> simp

/-- The ports change and no reader has more to read. -/
theorem withRb (h : WrittenInv s) (hb : BlockInv s) {g : Ring} (hwr : g.wr = s.rb.wr)
    (hle : ∀ r, (g.reader r).cnt ≤ (s.rb.reader r).cnt) : WrittenInv { s with rb := g } :=
  writtenInv_iff.2 ⟨fun r => (h.slots r).of_le (hb.rb.reader r).cnt_le hwr (hle r), h.staged, h.line⟩

/-- A change of one port after which its reader has no more to read. -/
theorem onReader (h : WrittenInv s) (hb : BlockInv s) (r : Nat) {f : Reader → Reader} (hf : ∀ q, (f q).cnt ≤ q.cnt) :
    WrittenInv { s with rb := s.rb.onReader r f } := by
  refine h.withRb hb rfl fun q => ?_
  by_cases hq : q = r
  · subst hq
    by_cases hlen : q < s.rb.readers.length
    · rw [Ring.reader_onReader_same _ _ _ hlen]; exact hf _
    · rw [Ring.reader_absent _ _ (by simpa using hlen)]; exact Nat.zero_le _
  · rw [Ring.reader_onReader_other _ _ _ _ hq]

theorem recordBurst (h : WrittenInv s) (hb : BlockInv s) (r k : Nat) :
    WrittenInv { s with rb := s.rb.onReader r fun q => { q with br := k } } :=
  h.onReader hb r fun _ => le_refl _

theorem appendElem (h : WrittenInv s) (hb : BlockInv s) (v : Elem) : WrittenInv (s.appendElem v) :=
  writtenInv_iff.2
    ⟨fun r => (h.slots r).append (p := rbParams s.cfg) (hb.rb.reader r) hb.rb.wr_lt v, h.staged, h.line⟩

theorem stage (h : WrittenInv s) (hb : BlockInv s) (e : Elem) : WrittenInv (s.stage e) :=
  writtenInv_iff.2
    ⟨h.slots, h.staged.append (p := stgParams s.cfg) (hb.stg.reader 0) hb.stg.wr_lt e, h.line⟩

/-- The computations of unit SE only take samples from the staging ring. -/
theorem onlySpectral (h : WrittenInv s) (hb : BlockInv s) (ht : OnlySpectral s t) (hwr : t.se.stg.wr = s.se.stg.wr)
    (hle : (t.se.stg.reader 0).cnt ≤ (s.se.stg.reader 0).cnt) : WrittenInv t := by
  refine writtenInv_iff.2 ⟨?_, ?_, ?_⟩
  · rw [ht.cfg, ht.rb, ht.mem]; exact h.slots
  · rw [ht.cfg, ht.mem]; exact h.staged.of_le (hb.stg.reader 0).cnt_le hwr hle
  · rw [ht.fb, ht.mem]; exact h.line

/-- The registers of unit FB change without a byte of the line being converted. -/
theorem withFb (h : WrittenInv s) {f : DisplayRegs} (hf : f.st = .tx → (s.fb.st = .tx ∧ f.xp = s.fb.xp) ∨ f.xp = 0) :
    WrittenInv { s with fb := f } := by
  refine writtenInv_iff.2 ⟨h.slots, h.staged, fun hst j hj => ?_⟩
  obtain ⟨hst', hxp⟩ | hxp := hf hst
  · exact h.line hst' j (hxp ▸ hj)
  · exact absurd hj (by simp [hxp])

/-- CONVERT writes the two bytes that it adds (R304). -/
theorem convertPixel (h : WrittenInv s) (hst : s.fb.st = .tx) : WrittenInv s.convertPixel := by
  refine writtenInv_iff.2 ⟨h.slots, h.staged, fun _ j hj => ?_⟩
  change j < 2 * (s.fb.xp + 1) at hj
  change Cells.find? (Cells.set none (Cells.set none s.mem.line (2 * s.fb.xp) _) (2 * s.fb.xp + 1) _) j ≠ none
  rw [Cells.find?_set_none, Cells.find?_set_none]
  split_ifs with h1 h0
  · simp
  · simp
  · exact h.line hst j (by omega)

theorem sched (h : WrittenInv s) : WrittenInv s.sched := by
  obtain ⟨-, heq⟩ | ⟨-, -, heq⟩ | ⟨-, -, -, heq⟩ | ⟨-, hst, -, -, heq⟩ | ⟨-, hst, -, -, heq⟩ := s.sched_cases
  · rw [heq]; exact h
  · rw [heq]; exact h.withFb fun _ => .inr rfl
  · rw [heq]
    refine h.withFb fun htx => ?_
    dsimp only at htx
    split_ifs at htx
  · rw [heq]; exact h.convertPixel hst
  · rw [heq]
    exact (h.withFb (f := { s.fb with ls := .wait }) fun _ => .inl ⟨hst, rfl⟩).of_sameBlock
      ⟨rfl, rfl, rfl, rfl, rfl, rfl⟩

theorem complete (h : WrittenInv s) (ok : Bool) : WrittenInv (s.complete ok) := by
  obtain ⟨-, heq⟩ | ⟨-, -, -, heq⟩ := s.complete_cases ok
  · rw [heq]; exact h
  · rw [heq]; exact h.withFb fun _ => .inr rfl

theorem update (h : WrittenInv s) : WrittenInv { s with fb := s.fb.update } := by
  refine h.withFb fun htx => ?_
  unfold DisplayRegs.update at htx ⊢
  split at htx
  · cases htx
  · simp [*] at htx
  · exact .inl ⟨‹_›, rfl⟩

theorem setPixel (h : WrittenInv s) (p : PixelWrite) : WrittenInv (s.setPixel p) :=
  writtenInv_iff.2 ⟨h.slots, h.staged, h.line⟩

theorem setPal (h : WrittenInv s) (i : Nat) (col : Color) : WrittenInv (s.setPal i col) := by
  unfold State.setPal
  split
  · exact h
  · exact writtenInv_iff.2 ⟨h.slots, h.staged, h.line⟩

theorem perform (h : WrittenInv s) (plots : List Plot) : WrittenInv (s.perform plots) := by
  obtain ⟨-, heq⟩ | ⟨p, -, rest, -, -, ⟨-, heq⟩ | ⟨-, heq⟩⟩ := s.perform_cases plots
  · rw [heq]; exact h.respond _
  · rw [heq]; exact (h.setPixel p).respond _
  · rw [heq]; exact (h.setPixel p).of_sameBlock ⟨rfl, rfl, rfl, rfl, rfl, rfl⟩

theorem pixelStep (h : WrittenInv s) (j pick : Nat) : WrittenInv (s.pixelStep j pick) := by
  have htake : ∀ todo, WrittenInv (takePixel pick todo s).1 := by
    intro todo
    obtain heq | ⟨p, -, heq⟩ := takePixel_state pick todo s
    · rw [heq]; exact h
    · rw [heq]; exact h.setPixel p
  obtain ⟨-, heq⟩ | ⟨a, todo, -, -, -, ⟨-, heq⟩ | ⟨-, heq⟩⟩ := s.pixelStep_cases j pick
  · rw [heq]; exact h
  · rw [heq]; exact (htake todo).of_sameBlock ⟨rfl, rfl, rfl, rfl, rfl, rfl⟩
  · rw [heq]; exact (htake todo).of_sameBlock ⟨rfl, rfl, rfl, rfl, rfl, rfl⟩

theorem beat (h : WrittenInv s) (hb : BlockInv s) (r : Nat) : WrittenInv (s.beat r) := by
  unfold State.beat
  split
  · exact (h.onReader hb r (f := Reader.afterBeat) fun q => Nat.sub_le _ _).of_sameBlock ⟨rfl, rfl, rfl, rfl, rfl, rfl⟩
  · exact h

theorem jump (h : WrittenInv s) (j pos : Nat) : WrittenInv (s.jump j pos) := by
  unfold State.jump
  split
  · exact h
  · split
    · exact h.of_sameBlock ⟨rfl, rfl, rfl, rfl, rfl, rfl⟩
    · exact h

theorem resetWith (c : Config) : WrittenInv (State.resetWith c) := by
  refine writtenInv_iff.2 ⟨fun r a ha => ?_, fun a ha => (nomatch ha), fun hst => nomatch hst⟩
  have hnone : ((State.resetWith c).rb.reader r).cnt = 0 := by
    simp [State.resetWith, Ring.reset, Ring.reader, Reader.reset]
  rw [Ring.slots_of_empty hnone] at ha
  exact absurd ha List.not_mem_nil

/-! #### COMPUTE and POSTPROCESS -/

theorem compute (h : WrittenInv s) (hb : BlockInv s) (hcnt : s.cfg.seOv ≤ (s.se.stg.reader 0).cnt) :
    WrittenInv s.compute := by
  have hstg := compute_stg hb hcnt
  refine h.onlySpectral hb (.compute s) (by rw [hstg]; rfl) ?_
  rw [hstg, Ring.reader_onReader_same _ _ _ (hb.stg.ports ▸ Nat.one_pos)]
  exact Nat.sub_le _ _

theorem postprocess (h : WrittenInv s) (hb : BlockInv s) : WrittenInv s.postprocess := by
  have hse := postprocess_se s
  exact h.onlySpectral hb (.postprocess s) (by rw [hse]) (by rw [hse])

/-! #### Every step -/

theorem completed {i : Instr} (hc : Completed i s t) (hb : BlockInv s) (h : WrittenInv s) : WrittenInv t := by
  cases hc with
  | answer hi x => exact h.respond x
  | append v => exact (h.appendElem hb v).respond _
  | attach hr => exact (h.onReader hb _ fun _ => Nat.zero_le _).respond _
  | read hr hatt hcnt => exact (h.onReader hb _ fun _ => Nat.sub_le _ _).respond _
  | consumeNone hr hatt hcnt => exact (h.recordBurst hb _ _).respond _
  | consume hr hatt hcnt =>
    exact (h.recordBurst hb _ _).of_sameBlock ⟨rfl, rfl, rfl, rfl, rfl, rfl⟩
  | feed re im armed b =>
    have hstage := h.stage hb (packSample re im)
    exact writtenInv_iff.2 ⟨hstage.slots, hstage.staged, hstage.line⟩
  | compute hcnt => exact (h.compute hb hcnt).respond _
  | postprocess => exact (h.postprocess hb).respond _
  | draw hi plots => exact h.perform plots
  | pixelInside c p hp => exact (h.setPixel p).respond _
  | pixelOutside x y c => exact h.respond _
  | setpal k col => exact (h.setPal _ col).respond _
  | update => exact h.update.respond _

/-- The fault record is no part of what is to be read. -/
theorem raiseFault (h : WrittenInv s) (w : CmdWord) (code : FaultCode) : WrittenInv (s.raiseFault w code) :=
  writtenInv_iff.2 ⟨h.slots, h.staged, h.line⟩

theorem moved (h : WrittenInv s) (hb : BlockInv s) (hm : Moved s t) : WrittenInv t := by
  cases hm with
  | nothing => exact h
  | answeredErr j pick hf => exact (h.select j pick).respond _
  | fault j pick w code hf => exact (h.select j pick).raiseFault w code
  | held j pick hf => exact (h.select j pick).of_sameBlock ⟨rfl, rfl, rfl, rfl, rfl, rfl⟩
  | command ha hidle hfit hacc hc => exact completed hc (hb.select _ _) (h.select _ _)
  | beat r => exact h.beat hb r
  | pixel j pick => exact h.pixelStep j pick
  | sched => exact h.sched
  | panel ok => exact h.complete ok
  | jump j pos => exact h.jump j pos
  | reset => exact (resetWith s.cfg).of_sameBlock ⟨rfl, rfl, rfl, rfl, rfl, rfl⟩

end WrittenInv

end Sys2Proof.Machine

namespace Sys2Proof.Machine

/-! ### No step reads what reset left unspecified (R381)

Each operation does the same in a state and in the same state a different number of resets after power-on: it commutes
with `State.withResets`. -/

/-- The outcome in the same state, `n` resets after power-on. -/
def resultWithResets (n : Nat) : Result → Result
  | .next t => .next (t.withResets n)
  | .fault r => .fault r
  | .refused r => .refused r

section
variable {n : Nat} {i : Instr} {s : State} {rule rule' : Result}

theorem accept_withResets (h : rule' = resultWithResets n rule) :
    accept i (s.withResets n) rule' = resultWithResets n (accept i s rule) := by
  subst h
  change (if s.blk.faulted then .next (s.respondErr.withResets n)
    else if !i.present s.cfg then raise i .illegalCommand (s.withResets n)
    else if heldIn i s then .next (s.hold.withResets n) else resultWithResets n rule) = _
  unfold accept
  split_ifs <;> rfl

theorem checkReader_withResets {r : Nat} (h : rule' = resultWithResets n rule) :
    checkReader i r (s.withResets n) rule' = resultWithResets n (checkReader i r s rule) := by
  subst h
  change (if s.cfg.rbR ≤ r then raise i .badReader (s.withResets n)
    else if !(s.rb.reader r).att then raise i .notAttached (s.withResets n) else resultWithResets n rule) = _
  unfold checkReader
  split_ifs <;> rfl

theorem respond_withResets (x : Response) (s : State) :
    Host.Outcome.next ((s.withResets n).respond x) = resultWithResets n (.next (s.respond x)) := rfl

theorem ite_withResets {p : Prop} [Decidable p] {x x' y y' : Result} (hx : p → x' = resultWithResets n x)
    (hy : ¬p → y' = resultWithResets n y) :
    (if p then x' else y') = resultWithResets n (if p then x else y) := by
  split_ifs with hp
  · exact hx hp
  · exact hy hp

end

section
variable {n : Nat} {s : State}

/-- A counted loop commutes when every pass does. -/
theorem forUpTo_withResets {P : Nat → State → Prop} {m : Nat} {body : Nat → State → State} (h0 : P 0 s)
    (hP : ∀ k t, k < m → P k t → P (k + 1) (body k t))
    (hbody : ∀ k t, k < m → P k t → body k (t.withResets n) = (body k t).withResets n) :
    forUpTo m body (s.withResets n) = (forUpTo m body s).withResets n := by
  induction m with
  | zero => rfl
  | succ m ih =>
    rw [forUpTo_succ, forUpTo_succ, ih (fun k t hk => hP k t (by omega)) fun k t hk => hbody k t (by omega)]
    exact hbody m _ (Nat.lt_succ_self m) (forUpTo_induct body s m h0 fun k t hk => hP k t (by omega))

theorem forUpTo_withResets_of_body {m : Nat} (body : Nat → State → State)
    (hbody : ∀ k t, body k (t.withResets n) = (body k t).withResets n) (s : State) :
    forUpTo m body (s.withResets n) = (forUpTo m body s).withResets n :=
  forUpTo_withResets (P := fun _ _ => True) trivial (fun _ _ _ _ => trivial) fun k t _ _ => hbody k t

/-! #### Unit RB -/

theorem oldest_withResets (hb : BlockInv s) (h : WrittenInv s) {r : Nat} (hpos : 0 < (s.rb.reader r).cnt) :
    (s.withResets n).oldest r = s.oldest r :=
  State.rbElem_withResets (h.slots r _ (Ring.readAddr_mem_slots (hb.rb.reader r).cnt_le hpos))

theorem beat_withResets (hb : BlockInv s) (h : WrittenInv s) (r : Nat) :
    (s.withResets n).beat r = (s.beat r).withResets n := by
  by_cases hen : s.beatEnabled r = true
  · have hbr : 0 < (s.rb.reader r).br := by
      simp only [State.beatEnabled, Bool.and_eq_true, decide_eq_true_eq] at hen
      exact hen.2
    have hen' : (s.withResets n).beatEnabled r = true := hen
    unfold State.beat
    rw [if_pos hen, if_pos hen', oldest_withResets hb h (hbr.trans_le (hb.rb.reader r).br_le)]
    rfl
  · have hen' : ¬ (s.withResets n).beatEnabled r = true := hen
    unfold State.beat
    rw [if_neg hen, if_neg hen']

/-! #### Unit SE -/

theorem shiftWindow_withResets (s : State) : (s.withResets n).shiftWindow = s.shiftWindow.withResets n :=
  forUpTo_withResets_of_body (fun i t => t.setX i (t.xElem (i + 2 * s.cfg.seOv))) (fun _ _ => rfl) s

/-- The staging ring during the refill: the cursor stands still and `k` samples have been taken (R241). -/
structure Taken (s : State) (k : Nat) (t : State) : Prop where
  cfg : t.cfg = s.cfg
  stgData : t.mem.stgData = s.mem.stgData
  wr : t.se.stg.wr = s.se.stg.wr
  ports : t.se.stg.readers.length = 1
  cnt : (t.se.stg.reader 0).cnt + k = (s.se.stg.reader 0).cnt

theorem Taken.next {k : Nat} {t : State} (h : Taken s k t) (hk : k < (s.se.stg.reader 0).cnt) :
    Taken s (k + 1) (State.refillOne k t) where
  cfg := h.cfg
  stgData := h.stgData
  wr := h.wr
  ports := by simpa [State.refillOne, Ring.dropOldest] using h.ports
  cnt := by
    have hcnt := h.cnt
    simp only [State.refillOne, State.setX_se]
    rw [Ring.reader_dropOldest_same _ _ (by rw [h.ports]; exact Nat.one_pos)]
    dsimp only
    omega

/-- The refill reads samples that have been staged (R241). -/
theorem refill_withResets (hb : BlockInv s) (h : WrittenInv s) (hcnt : s.cfg.seOv ≤ (s.se.stg.reader 0).cnt) :
    (s.withResets n).refill = s.refill.withResets n := by
  refine forUpTo_withResets (P := Taken s) (m := s.cfg.seOv) ⟨rfl, rfl, rfl, hb.stg.ports, rfl⟩
    (fun k t hk ht => ht.next (by omega)) fun k t hk ht => ?_
  have hle := (hb.stg.reader 0).cnt_le
  have htcnt := ht.cnt
  have hslot : t.se.stg.readAddr t.cfg.seS 0 ∈ s.se.stg.slots s.cfg.seS 0 := by
    rw [ht.cfg]
    exact Ring.slots_subset hle ht.wr (by omega)
      (Ring.readAddr_mem_slots (le_trans (by omega) hle) (by omega))
  have hsample : (t.withResets n).oldestSample = t.oldestSample :=
    State.stgElem_withResets (ht.stgData ▸ h.staged _ hslot)
  simp only [State.refillOne, hsample]
  rfl

theorem windowOne_withResets (k : Nat) (s : State) :
    (s.withResets n).windowOne k = (s.windowOne k).withResets n := by
  simp only [State.windowOne]
  rfl

theorem window_withResets (s : State) : (s.withResets n).window = s.window.withResets n :=
  congrArg (State.useNaNs _) (forUpTo_withResets_of_body State.windowOne windowOne_withResets s)

theorem transform_withResets (s : State) : (s.withResets n).transform = s.transform.withResets n :=
  forUpTo_withResets_of_body (fun k t => (t.setWork (2 * k) (s.cfg.seFft s.workSamples k).1).setWork (2 * k + 1)
    (s.cfg.seFft s.workSamples k).2) (fun _ _ => rfl) s

theorem compute_withResets (hb : BlockInv s) (h : WrittenInv s) (hcnt : s.cfg.seOv ≤ (s.se.stg.reader 0).cnt) :
    (s.withResets n).compute = s.compute.withResets n := by
  have hse := shiftWindow_se s
  have hshift : WrittenInv s.shiftWindow := h.onlySpectral hb (.shiftWindow s) (by rw [hse]) (by rw [hse])
  have hrefill := refill_withResets (n := n) hb.shiftWindow hshift
    (by rw [(OnlySpectral.shiftWindow s).cfg, hse]; exact hcnt)
  unfold State.compute
  rw [shiftWindow_withResets, hrefill, window_withResets, transform_withResets]
  generalize s.shiftWindow.refill.window.transform = t
  rfl

theorem normalise_withResets (s : State) : (s.withResets n).normalise = s.normalise.withResets n :=
  congrArg (State.useNaNs _) (forUpTo_withResets_of_body (fun i t => t.setWork i
    (f32DivPow2 (freeNaN (s.env.nanDraws + i)) (t.workElem i) s.cfg.seN.log2)) (fun _ _ => rfl) s)

theorem power_withResets (s : State) : (s.withResets n).power = s.power.withResets n :=
  congrArg (State.useNaNs _) (forUpTo_withResets_of_body (fun k t => t.setWork k
    (powerOf (s.env.nanDraws + 3 * k) (t.workElem (2 * k)) (t.workElem (2 * k + 1)))) (fun _ _ => rfl) s)

theorem postprocess_withResets (s : State) : (s.withResets n).postprocess = s.postprocess.withResets n := by
  unfold State.postprocess
  rw [State.withResets_cfg]
  split
  · rfl
  · exact normalise_withResets s
  · exact power_withResets s
  · rw [normalise_withResets, power_withResets]

/-! #### Unit FB -/

theorem takePixel_withResets (pick : Nat) (todo : List PixelWrite) (s : State) :
    takePixel pick todo (s.withResets n) =
      ((takePixel pick todo s).1.withResets n, (takePixel pick todo s).2) := by
  unfold takePixel
  split <;> rfl

theorem perform_withResets (plots : List Plot) (s : State) :
    (s.withResets n).perform plots = (s.perform plots).withResets n := by
  have hwrites : (s.withResets n).pixelWrites plots = s.pixelWrites plots := rfl
  unfold State.perform
  rw [hwrites, State.withResets_env, takePixel_withResets]
  dsimp only
  split_ifs <;> rfl

theorem pixelStep_withResets (t pick : Nat) (s : State) :
    (s.withResets n).pixelStep t pick = (s.pixelStep t pick).withResets n := by
  have hdraw : (s.withResets n).drawing? t = s.drawing? t := rfl
  unfold State.pixelStep
  rw [hdraw, State.withResets_blk]
  split_ifs
  · rfl
  · cases s.drawing? t with
    | none => rfl
    | some todo =>
      dsimp only
      rw [takePixel_withResets]
      dsimp only
      split_ifs <;> rfl

/-- PIXEL writes its pixel if it lies in the framebuffer (R285). -/
theorem setPixelIf_withResets (inside : Bool) (p : PixelWrite) (s : State) :
    (if inside then (s.withResets n).setPixel p else s.withResets n) =
      (if inside then s.setPixel p else s).withResets n := by
  cases inside <;> rfl

/-- SEND transmits a line that has been converted whole (R305). -/
theorem lineBytes_withResets (hb : BlockInv s) (h : WrittenInv s) (hst : s.fb.st = .tx) (hls : s.fb.ls = .send) :
    (s.withResets n).lineBytes = s.lineBytes := by
  refine List.map_congr_left fun j hj => State.lineByte_withResets (h.line hst j ?_)
  rw [(hb.display.sending hls).1]
  exact List.mem_range.1 hj

/-- SEND is enabled only in its own phase of a line (R305). -/
theorem sending_of_schedEnabled (h : s.schedEnabled = some .send) : s.fb.st = .tx ∧ s.fb.ls = .send := by
  unfold State.schedEnabled at h
  split at h
  · cases h
  split at h
  · cases h
  · cases h
  split at h
  · cases h
  split at h
  · split at h <;> cases h
  · exact ⟨‹_›, ‹_›⟩
  · cases h

theorem sched_withResets (hb : BlockInv s) (h : WrittenInv s) : (s.withResets n).sched = s.sched.withResets n := by
  have hen : (s.withResets n).schedEnabled = s.schedEnabled := rfl
  unfold State.sched
  rw [hen]
  cases hstep : s.schedEnabled with
  | none => rfl
  | some step =>
    cases step with
    | start => rfl
    | convert => rfl
    | finish => rfl
    | send =>
      obtain ⟨hst, hls⟩ := sending_of_schedEnabled hstep
      simp only [State.sendLine, lineBytes_withResets hb h hst hls]
      rfl

theorem complete_withResets (ok : Bool) (s : State) : (s.withResets n).complete ok = (s.complete ok).withResets n := by
  have hen : (s.withResets n).panelEnabled = s.panelEnabled := rfl
  unfold State.complete
  rw [hen]
  split_ifs <;> rfl

/-! #### The agents -/

theorem jump_withResets (t pos : Nat) (s : State) : (s.withResets n).jump t pos = (s.jump t pos).withResets n := by
  unfold State.jump
  rw [State.withResets_env]
  cases s.env.agents[t]? with
  | none => rfl
  | some a =>
    dsimp only
    split_ifs <;> rfl

theorem afterChoice_withResets (s : State) : (s.withResets n).afterChoice = s.afterChoice.withResets n := by
  unfold State.afterChoice
  rw [State.withResets_env]
  cases s.env.agenda <;> rfl

/-! #### Every step -/

theorem exec_withResets (i : Instr) (hb : BlockInv s) (h : WrittenInv s) :
    exec i (s.withResets n) = resultWithResets n (exec i s) := by
  cases i with
  | append v => exact accept_withResets rfl
  | attach r => exact accept_withResets (ite_withResets (fun _ => rfl) fun _ => rfl)
  | count r => exact accept_withResets (checkReader_withResets rfl)
  | read r =>
    refine accept_withResets (checkReader_withResets (ite_withResets (fun _ => rfl) fun hcnt => ?_))
    rw [oldest_withResets hb h (Nat.pos_of_ne_zero hcnt)]
    exact respond_withResets _ { s with rb := _ }
  | consume r => exact accept_withResets (checkReader_withResets (ite_withResets (fun _ => rfl) fun _ => rfl))
  | drops r => exact accept_withResets (checkReader_withResets rfl)
  | feed re im => exact accept_withResets rfl
  | compute =>
    refine accept_withResets (ite_withResets (fun _ => rfl) fun _ => ite_withResets (fun _ => rfl) fun hcnt => ?_)
    rw [compute_withResets hb h (not_lt.1 hcnt), respond_withResets]
  | postprocess => exact accept_withResets (by rw [postprocess_withResets, respond_withResets])
  | copyfft l => exact accept_withResets (ite_withResets (fun _ => rfl) fun _ => rfl)
  | clear => exact accept_withResets (by rw [perform_withResets]; rfl)
  | pixel x y c =>
    exact accept_withResets <|
      congrArg (fun t => Host.Outcome.next (State.respond .ack t)) (setPixelIf_withResets (Plot.inside s.cfg _) _ s)
  | hline x y len c => exact accept_withResets (by rw [perform_withResets]; rfl)
  | vline x y len c => exact accept_withResets (by rw [perform_withResets]; rfl)
  | circle xc yc rad c => exact accept_withResets (by rw [perform_withResets]; rfl)
  | blit x y bw bh data => exact accept_withResets (by rw [perform_withResets]; rfl)
  | vscroll => exact accept_withResets (by rw [perform_withResets]; rfl)
  | setpal k col =>
    refine accept_withResets (ite_withResets (fun _ => rfl) fun _ => ?_)
    unfold State.setPal
    split_ifs
    rfl
  | update => exact accept_withResets rfl
  | ready => exact accept_withResets rfl

theorem issue_withResets (p : Packet) (hb : BlockInv s) (h : WrittenInv s) :
    issue p (s.withResets n) = resultWithResets n (issue p s) := by
  unfold issue
  rw [State.withResets_blk, State.withResets_cfg]
  split_ifs
  · rfl
  · cases decode s.cfg p with
    | illegal why => rfl
    | instr i => exact exec_withResets i hb h

theorem runMove_withResets {m : Move} (hm : m ≠ .reset) (hb : BlockInv s) (h : WrittenInv s) :
    runMove m (s.withResets n) = resultWithResets n (runMove m s) := by
  cases m with
  | issue t pick =>
    have hfetch : (s.withResets n).fetch t = s.fetch t := rfl
    have hselect : (s.withResets n).select t pick = (s.select t pick).withResets n := rfl
    simp only [runMove, hfetch, hselect]
    cases s.fetch t with
    | none => rfl
    | some p => exact issue_withResets p (hb.select t pick) (h.select t pick)
  | beat r => simp only [runMove, resultWithResets, beat_withResets hb h r]
  | pixel t pick => simp only [runMove, resultWithResets, pixelStep_withResets]
  | sched => simp only [runMove, resultWithResets, sched_withResets hb h]
  | panel ok => simp only [runMove, resultWithResets, complete_withResets]
  | jump t pos => simp only [runMove, resultWithResets, jump_withResets]
  | reset => exact absurd rfl hm

end

/-- Settles O20: every slot that a step reads is one that is still to be read, and so is written; the operations on
written slots commute with the number of resets. -/
theorem stepKeepsWrittenInv : Obligations.StepKeepsWrittenInv := by
  intro s t hb h hstep
  refine ⟨h.afterChoice.moved hb.afterChoice (moved_of_step hstep), fun hm n => ?_⟩
  obtain ⟨hvalid, howned, hrun⟩ := step_cases hstep
  rw [step_of_valid (s := s.withResets n) hvalid howned, afterChoice_withResets]
  exact (runMove_withResets hm hb.afterChoice h.afterChoice).trans (by rw [hrun]; rfl)

end Sys2Proof.Machine

namespace Sys2Proof.Machine

/-! ### The queue of a reader under each operation (R51, R186, R193, R194) -/

theorem State.pending_eq (s : State) (r : Nat) : s.pending r = (s.rb.slots s.cfg.rbN r).map s.rbElem := by
  simp [State.pending, Ring.slots, Function.comp_def]

@[simp] theorem State.pending_length (s : State) (r : Nat) : (s.pending r).length = (s.rb.reader r).cnt := by
  simp [State.pending]

@[simp] theorem State.pending_respond (x : Response) (s : State) (r : Nat) :
    (s.respond x).pending r = s.pending r := rfl

@[simp] theorem State.pending_beginWork (w : Work) (s : State) (r : Nat) :
    (s.beginWork w).pending r = s.pending r := rfl

@[simp] theorem State.pending_onAgents (f : Agent → Agent) (s : State) (r : Nat) :
    (s.onAgents f).pending r = s.pending r := rfl

/-- Unit RB, and what its elements read as, are the same. -/
structure SameRb (s t : State) : Prop where
  cfg : t.cfg = s.cfg
  rb : t.rb = s.rb
  rbData : t.mem.rbData = s.mem.rbData
  resets : t.env.resets = s.env.resets

theorem SameRb.pending {s t : State} (h : SameRb s t) (q : Nat) : t.pending q = s.pending q := by
  unfold State.pending State.rbElem
  rw [h.cfg, h.rb, h.rbData, h.resets]

/-- The ports change and reader `q` has as much to read as before. -/
theorem pending_withRb {s : State} {g : Ring} {q : Nat} (hwr : g.wr = s.rb.wr)
    (hcnt : (g.reader q).cnt = (s.rb.reader q).cnt) : { s with rb := g }.pending q = s.pending q := by
  rw [State.pending_eq, State.pending_eq]
  exact congrArg (List.map s.rbElem) (Ring.slots_congr hwr hcnt)

theorem pending_onReader_other {s : State} {r q : Nat} (f : Reader → Reader) (hq : q ≠ r) :
    { s with rb := s.rb.onReader r f }.pending q = s.pending q :=
  pending_withRb rfl (by rw [Ring.reader_onReader_other _ _ _ _ hq])

/-- The ring of unit RB meets its invariant (R50). -/
def RbInv (s : State) : Prop := RingInv (rbParams s.cfg) s.cfg.rbR s.rb

section
variable {s : State} {r : Nat}

theorem RbInv.lt_ports (h : RbInv s) (hr : r < s.cfg.rbR) : r < s.rb.readers.length := h.ports.symm ▸ hr

theorem RbInv.cnt_le (h : RbInv s) (r : Nat) : (s.rb.reader r).cnt ≤ s.cfg.rbN := (h.reader r).cnt_le

theorem RbInv.rbN_pos (h : RbInv s) : 0 < s.cfg.rbN := Nat.zero_lt_of_lt h.wr_lt

/-- A change of one port that takes one element of its reader takes the oldest (R193, R196). -/
theorem pending_take (h : RbInv s) {f : Reader → Reader} (hr : r < s.cfg.rbR)
    (hf : (f (s.rb.reader r)).cnt = (s.rb.reader r).cnt - 1) (hpos : 0 < (s.rb.reader r).cnt) :
    s.pending r = s.oldest r :: { s with rb := s.rb.onReader r f }.pending r := by
  have hcnt : (s.rb.reader r).cnt = ((s.rb.onReader r f).reader r).cnt + 1 := by
    rw [Ring.reader_onReader_same _ _ _ (h.lt_ports hr), hf]
    omega
  rw [State.pending_eq, State.pending_eq, Ring.slots_eq_cons (g' := s.rb.onReader r f) (h.cnt_le r) rfl hcnt,
    List.map_cons]
  rfl

/-- APPEND adds at the end and drops from the front what no longer fits (R185, R186). -/
theorem pending_appendElem (h : RbInv s) (v : Elem) (hatt : (s.rb.reader r).att = true) :
    (s.appendElem v).pending r = (s.pending r ++ [v]).drop ((s.pending r).length + 1 - s.cfg.rbN) := by
  have hc := h.cnt_le r
  have hcap := h.rbN_pos
  have hslots : (s.appendElem v).rb.slots s.cfg.rbN r =
      (s.rb.slots s.cfg.rbN r).drop ((s.rb.reader r).cnt + 1 - s.cfg.rbN) ++ [s.rb.wr] :=
    Ring.slots_append (h.reader r) h.wr_lt hatt
  have hnew : ∀ a, (s.appendElem v).rbElem a = if a = s.rb.wr then v else s.rbElem a :=
    fun a => s.rbElem_setRbElem s.rb.wr a v
  -- the cursor's slot is none of the others that are still to be read
  have hnodup : ((s.appendElem v).rb.slots s.cfg.rbN r).Nodup := Ring.slots_nodup ((RingInv.append h).reader r).cnt_le
  rw [hslots, List.nodup_append] at hnodup
  obtain ⟨-, -, hdisjoint⟩ := hnodup
  rw [State.pending_eq, State.appendElem_cfg, hslots, List.map_append, List.map_singleton, hnew, if_pos rfl,
    State.pending_length, List.drop_append_of_le_length (by rw [State.pending_length]; omega),
    State.pending_eq, ← List.map_drop]
  congr 1
  refine List.map_congr_left fun a ha => ?_
  rw [hnew, if_neg (hdisjoint a ha _ (List.mem_singleton_self _))]

theorem pending_of_empty (h : (s.rb.reader r).cnt = 0) : s.pending r = [] :=
  List.eq_nil_of_length_eq_zero (by rw [State.pending_length, h])

end

/-! #### Which commands touch unit RB -/

/-- The commands that change unit RB (R185, R189, R193, R195). -/
def changesRb : Instr → Bool
  | .append _ | .attach _ | .read _ | .consume _ => true
  | .count _ | .drops _ | .feed _ _ | .compute | .postprocess | .copyfft _ | .clear | .pixel _ _ _ | .hline _ _ _ _
  | .vline _ _ _ _ | .circle _ _ _ _ | .blit _ _ _ _ _ | .vscroll | .setpal _ _ | .update | .ready => false

namespace SameRb

variable {s t : State}

theorem refl (s : State) : SameRb s s := ⟨rfl, rfl, rfl, rfl⟩

theorem onlySpectral (h : OnlySpectral s t) : SameRb s t := ⟨h.cfg, h.rb, by rw [h.mem], by rw [h.env]⟩

theorem perform (s : State) (plots : List Plot) : SameRb s (s.perform plots) := by
  obtain ⟨-, heq⟩ | ⟨p, -, rest, -, -, ⟨-, heq⟩ | ⟨-, heq⟩⟩ := s.perform_cases plots <;> rw [heq]
  all_goals exact ⟨rfl, rfl, rfl, rfl⟩

theorem pixelStep (s : State) (j pick : Nat) : SameRb s (s.pixelStep j pick) := by
  have htake : ∀ todo, SameRb s (takePixel pick todo s).1 := by
    intro todo
    obtain heq | ⟨p, -, heq⟩ := takePixel_state pick todo s <;> rw [heq]
    all_goals exact ⟨rfl, rfl, rfl, rfl⟩
  obtain ⟨-, heq⟩ | ⟨a, todo, -, -, -, ⟨-, heq⟩ | ⟨-, heq⟩⟩ := s.pixelStep_cases j pick <;> rw [heq]
  · exact .refl s
  · exact ⟨(htake todo).cfg, (htake todo).rb, (htake todo).rbData, (htake todo).resets⟩
  · exact ⟨(htake todo).cfg, (htake todo).rb, (htake todo).rbData, (htake todo).resets⟩

theorem sched (s : State) : SameRb s s.sched := by
  obtain ⟨-, heq⟩ | ⟨-, -, heq⟩ | ⟨-, -, -, heq⟩ | ⟨-, -, -, -, heq⟩ | ⟨-, -, -, -, heq⟩ := s.sched_cases <;> rw [heq]
  all_goals exact ⟨rfl, rfl, rfl, rfl⟩

theorem complete (s : State) (ok : Bool) : SameRb s (s.complete ok) := by
  obtain ⟨-, heq⟩ | ⟨-, -, -, heq⟩ := s.complete_cases ok <;> rw [heq]
  all_goals exact ⟨rfl, rfl, rfl, rfl⟩

theorem setPal (s : State) (k : Nat) (col : Color) : SameRb s (s.setPal k col) := by
  unfold State.setPal
  split <;> exact ⟨rfl, rfl, rfl, rfl⟩

theorem respond (h : SameRb s t) (x : Response) : SameRb s (t.respond x) := ⟨h.cfg, h.rb, h.rbData, h.resets⟩

theorem completed {i : Instr} (hc : Completed i s t) (hi : changesRb i = false) : SameRb s t := by
  cases hc with
  | answer _ x => exact (refl s).respond x
  | append | attach | read | consumeNone | consume => cases hi
  | feed re im armed b => exact ⟨rfl, rfl, rfl, rfl⟩
  | compute _ => exact (onlySpectral (.compute s)).respond _
  | postprocess => exact (onlySpectral (.postprocess s)).respond _
  | draw _ plots => exact perform s plots
  | pixelInside c p _ => exact ⟨rfl, rfl, rfl, rfl⟩
  | pixelOutside x y c => exact (refl s).respond _
  | setpal k col => exact (setPal s _ col).respond _
  | update => exact ⟨rfl, rfl, rfl, rfl⟩

end SameRb

/-- APPEND is never held and never faults (R112, R342). -/
theorem exec_append {s : State} (hf : s.blk.faulted = false) (v : Elem) :
    exec (.append v) s = .next ((s.appendElem v).respond .ack) :=
  accept_of_accepted ⟨hf, rfl, rfl⟩

/-- What a command that raises no fault can do. -/
theorem completed_or_held {i : Instr} {s t : State} (h : exec i s = .next t) (hf : t.blk.faulted = false) :
    (heldIn i s = true ∧ t = s.hold) ∨ (Accepted i s ∧ Completed i s t) := by
  obtain ⟨hf', rfl⟩ | ⟨-, w, code, rfl⟩ | ⟨-, hh, rfl⟩ | hacc := exec_cases h
  · exact absurd (hf.symm.trans hf') (by simp)
  · cases hf
  · exact .inl ⟨hh, rfl⟩
  · exact .inr hacc

/-- A command that names a free port and raises no fault is performed (R112). -/
theorem completed_of_free {i : Instr} {s t : State} {r : Nat} (h : exec i s = .next t) (hf : t.blk.faulted = false)
    (hi : i.reader? = some r) (hbr : (s.rb.reader r).br = 0) : Completed i s t := by
  obtain ⟨hheld, -⟩ | ⟨-, hc⟩ := completed_or_held h hf
  · simp [heldIn, hi, State.portBusy, hbr] at hheld
  · exact hc

/-- CONSUME records how much is pending and takes nothing (R195). -/
theorem pending_recordBurst (s : State) (r k q : Nat) :
    { s with rb := s.rb.onReader r fun p => { p with br := k } }.pending q = s.pending q := by
  refine pending_withRb rfl ?_
  by_cases hq : q = r
  · subst hq
    by_cases hlen : q < s.rb.readers.length
    · rw [Ring.reader_onReader_same _ _ _ hlen]
    · rw [Ring.reader_absent _ _ (by simpa using hlen), Ring.reader_absent _ _ (not_lt.1 hlen)]
  · rw [Ring.reader_onReader_other _ _ _ _ hq]

/-- READ takes the oldest element of its reader's queue (R193). -/
theorem pending_read {s t : State} {r : BitVec 8} (h : RbInv s) (hc : Completed (.read r) s t) :
    s.pending r.toNat = s.oldest r.toNat :: t.pending r.toNat ∧ ∀ q, q ≠ r.toNat → t.pending q = s.pending q := by
  cases hc with
  | read hr hatt hcnt =>
    simp only [State.pending_respond]
    exact ⟨pending_take h hr rfl (Nat.pos_of_ne_zero hcnt), fun q hq => pending_onReader_other _ hq⟩
  | answer hi => cases hi
  | draw hi => cases hi

/-- ATTACH empties its reader's queue (R189). -/
theorem pending_attach {s t : State} {r : BitVec 8} (h : RbInv s) (hc : Completed (.attach r) s t) :
    t.pending r.toNat = [] ∧ ∀ q, q ≠ r.toNat → t.pending q = s.pending q := by
  cases hc with
  | attach hr =>
    simp only [State.pending_respond]
    refine ⟨pending_of_empty ?_, fun q hq => pending_onReader_other _ hq⟩
    simp only [Ring.reader_onReader_same _ _ _ (h.lt_ports hr), Reader.attached]
  | answer hi => cases hi
  | draw hi => cases hi

/-- CONSUME takes nothing in its issue step (R195). -/
theorem pending_consume {s t : State} {r : BitVec 8} (hc : Completed (.consume r) s t) (q : Nat) :
    t.pending q = s.pending q := by
  cases hc with
  | consumeNone => rw [State.pending_respond, pending_recordBurst]
  | consume => rw [State.pending_beginWork, pending_recordBurst]
  | answer hi => cases hi
  | draw hi => cases hi

/-- A beat takes the oldest element of its reader's queue (R196). -/
theorem pending_beat {s : State} {r : Nat} (h : RbInv s) (hen : s.beatEnabled r = true) :
    s.pending r = s.oldest r :: (s.beat r).pending r ∧ ∀ q, q ≠ r → (s.beat r).pending q = s.pending q := by
  have hbr : 0 < (s.rb.reader r).br := by
    simp only [State.beatEnabled, Bool.and_eq_true, decide_eq_true_eq] at hen
    exact hen.2
  have hr : r < s.cfg.rbR := h.ports ▸ Ring.lt_of_br_pos hbr
  unfold State.beat
  simp only [if_pos hen, State.pending_onAgents]
  exact ⟨pending_take h hr rfl (hbr.trans_le (h.reader r).br_le), fun q hq => pending_onReader_other _ hq⟩

/-- Settles O30: each operation, seen through the slots of the readers' unread elements. -/
theorem readerIsABoundedQueue : Obligations.ReaderIsABoundedQueue := by
  intro s hb hf
  have hrb : RbInv s := hb.rb
  refine ⟨fun v t q h => ?_, fun r t hbr h hft => ?_, fun r hbr => ?_, fun r t hbr h hft => ?_,
    fun i t q happend hread hattach h => ?_⟩
  · rw [exec_append hf] at h
    cases h
    rw [State.pending_respond]
    split_ifs with hatt
    · exact pending_appendElem hrb v hatt
    · refine pending_of_empty ?_
      rw [State.appendElem_rb, Ring.reader_append, Reader.onAppend_cnt, if_neg (by simp [hatt])]
      exact ((hrb.reader q).unattached (by simpa using hatt)).1
  · exact pending_read hrb (completed_of_free (i := .read r) h hft rfl hbr)
  · exact pending_beat hrb (by simp [State.beatEnabled, hf, hbr])
  · exact pending_attach hrb (completed_of_free (i := .attach r) h hft rfl hbr)
  · obtain ⟨hf', -⟩ | ⟨-, w, code, rfl⟩ | ⟨-, -, rfl⟩ | ⟨-, hc⟩ := exec_cases h
    · simp [hf] at hf'
    · exact SameRb.pending ⟨rfl, rfl, rfl, rfl⟩ q
    · exact SameRb.pending ⟨rfl, rfl, rfl, rfl⟩ q
    · cases hi : changesRb i with
      | false => exact (SameRb.completed hc hi).pending q
      | true =>
        cases i with
        | append v => exact absurd rfl (happend v)
        | attach r => exact absurd rfl (hattach r)
        | read r => exact absurd rfl (hread r)
        | consume r => exact pending_consume hc q
        | _ => cases hi

end Sys2Proof.Machine

namespace Sys2Proof.Machine

/-! ### FIFO under every interleaving (R51, R116) -/

/-- With `before` to read at first and `appended` appended, a reader has received `received` and has still to read
`after`: in order and without repetition they are among what there was to read, and `after` are the last of it. -/
def FifoOrder (before appended received after : List Elem) : Prop :=
  (received ++ after).Sublist (before ++ appended) ∧ after <:+ before ++ appended

namespace FifoOrder

variable {before appended received after : List Elem}

theorem refl (before : List Elem) : FifoOrder before [] [] before := by
  rw [FifoOrder, List.append_nil]
  exact ⟨List.Sublist.refl _, List.suffix_refl _⟩

theorem take (x : Elem) (after : List Elem) : FifoOrder (x :: after) [] [x] after := by
  rw [FifoOrder, List.append_nil]
  exact ⟨List.Sublist.refl _, List.suffix_cons x after⟩

theorem append (before : List Elem) (v : Elem) (k : Nat) : FifoOrder before [v] [] ((before ++ [v]).drop k) :=
  ⟨List.drop_sublist k _, List.drop_suffix k _⟩

theorem trans {appended' received' last : List Elem} (h : FifoOrder before appended received after)
    (h' : FifoOrder after appended' received' last) :
    FifoOrder before (appended ++ appended') (received ++ received') last := by
  obtain ⟨hsub, hsuffix⟩ := h
  obtain ⟨hsub', hsuffix'⟩ := h'
  constructor
  · have hfirst : (received ++ (received' ++ last)).Sublist (received ++ (after ++ appended')) := hsub'.append_left _
    have hsecond : ((received ++ after) ++ appended').Sublist ((before ++ appended) ++ appended') :=
      hsub.append_right _
    simpa only [List.append_assoc] using hfirst.trans (by simpa only [List.append_assoc] using hsecond)
  · obtain ⟨dropped, hdropped⟩ := hsuffix
    refine hsuffix'.trans ⟨dropped, ?_⟩
    rw [← List.append_assoc, hdropped, List.append_assoc]

end FifoOrder

theorem changesRb_of_onlyAnswers {i : Instr} (h : onlyAnswers i = true) : changesRb i = false := by
  cases i <;> simp_all [onlyAnswers, changesRb]

theorem changesRb_of_multiPixel {i : Instr} (h : multiPixel i = true) : changesRb i = false := by
  cases i <;> simp_all [multiPixel, changesRb]

/-! #### A fault stays (R348) -/

theorem Event.run_faulted (e : Event) {s : State} (h : s.blk.faulted = true) : (e.run s).blk.faulted = true := by
  cases e with
  | command t pick i =>
    have hrun := Event.run_command t pick i s
    rw [exec_of_faulted (s := s.select t pick) h] at hrun
    rw [← Host.Outcome.next.inj hrun]
    exact h
  | beat r => simp [Event.run, State.beat, State.beatEnabled, h]
  | pixel t pick => simp [Event.run, State.pixelStep, h]
  | sched => simp [Event.run, State.sched, State.schedEnabled, h]
  | panel ok => simp [Event.run, State.complete, State.panelEnabled, h]

theorem runEvents_faulted (events : List Event) {s : State} (h : s.blk.faulted = true) :
    (runEvents events s).blk.faulted = true := by
  induction events generalizing s with
  | nil => exact h
  | cons e rest ih => exact ih (e.run_faulted h)

/-- A run that ends without a fault has met none. -/
theorem not_faulted_of_runEvents {events : List Event} {s : State} (h : (runEvents events s).blk.faulted = false) :
    s.blk.faulted = false := by
  cases hs : s.blk.faulted with
  | false => rfl
  | true => exact absurd (h.symm.trans (runEvents_faulted events hs)) (by simp)

/-! #### One event, seen from a reader -/

/-- What the run needs of unit RB and reader `r` at every event: the ring's invariant, and that `r` is attached. A
command of the run need not fit `RB_TW`, so the block's whole invariant is too much to ask. -/
structure Reading (r : Nat) (s : State) : Prop where
  rb : RbInv s
  att : (s.rb.reader r).att = true

/-- The elements that the event gives reader `r`. -/
def Event.given (r : BitVec 8) (e : Event) (s : State) : List Elem := if e.takes r s then [s.oldest r.toNat] else []

namespace Reading

variable {r : Nat} {s t : State}

theorem sameRb (h : Reading r s) (ht : SameRb s t) : Reading r t := by
  obtain ⟨hrb, hatt⟩ := h
  refine ⟨?_, by rwa [ht.rb]⟩
  unfold RbInv
  rw [ht.cfg, ht.rb]
  exact hrb

theorem lt_ports (h : Reading r s) : r < s.rb.readers.length := by
  by_contra hr
  have hatt := h.att
  rw [Ring.reader_absent _ _ (not_lt.1 hr)] at hatt
  cases hatt

/-- A change of one port that keeps its invariant and detaches no reader. -/
theorem onReader (h : Reading r s) (q : Nat) {f : Reader → Reader}
    (hf : ReaderInv (rbParams s.cfg) (f (s.rb.reader q)))
    (hatt : (s.rb.reader q).att = true → (f (s.rb.reader q)).att = true) :
    Reading r { s with rb := s.rb.onReader q f } := by
  refine ⟨RingInv.onReader h.rb q f fun _ => hf, ?_⟩
  by_cases hq : r = q
  · subst hq
    rw [Ring.reader_onReader_same _ _ _ h.lt_ports]
    exact hatt h.att
  · rw [Ring.reader_onReader_other _ _ _ _ hq]
    exact h.att

/-- A performed command keeps the ring's invariant and every reader attached. -/
theorem completed {i : Instr} (hc : Completed i s t) (hacc : Accepted i s) (h : Reading r s) : Reading r t := by
  have hsame : changesRb i = false → Reading r t := fun hi => h.sameRb (.completed hc hi)
  cases hc with
  | answer hi => exact hsame (changesRb_of_onlyAnswers hi)
  | append v => exact ⟨RingInv.append h.rb, by simpa [Ring.reader_append] using h.att⟩
  | attach hr =>
    exact (h.onReader _ ((h.rb.reader _).attached (BlockInv.port_free hacc rfl hr)) fun _ => rfl).sameRb
      ⟨rfl, rfl, rfl, rfl⟩
  | read hr hatt hcnt =>
    exact (h.onReader _ ((h.rb.reader _).dropOldest (BlockInv.port_free hacc rfl hr)) id).sameRb ⟨rfl, rfl, rfl, rfl⟩
  | consumeNone hr hatt hcnt => exact (h.onReader _ (h.rb.reader _).consume id).sameRb ⟨rfl, rfl, rfl, rfl⟩
  | consume hr hatt hcnt => exact (h.onReader _ (h.rb.reader _).consume id).sameRb ⟨rfl, rfl, rfl, rfl⟩
  | draw hi => exact hsame (changesRb_of_multiPixel hi)
  | _ => exact hsame rfl

theorem beat (h : Reading r s) (q : Nat) : Reading r (s.beat q) := by
  unfold State.beat
  split
  · exact (h.onReader q (h.rb.reader q).afterBeat id).sameRb ⟨rfl, rfl, rfl, rfl⟩
  · exact h

end Reading

/-- APPEND is the only command that appends, and it changes unit RB. -/
theorem appendedBy_of_not_changesRb {i : Instr} (h : changesRb i = false) : appendedBy i = none := by
  cases i with
  | append v => cases h
  | _ => rfl

/-- A held command appends nothing and gives the reader nothing (R112). -/
theorem held_quiet {r : BitVec 8} {t pick : Nat} {i : Instr} {s : State} (h : heldIn i s = true) :
    appendedBy i = none ∧ (Event.command t pick i).takes r s = false := by
  cases i with
  | append v => cases h
  | read q =>
    have hbusy : s.portBusy q.toNat = true := h
    refine ⟨rfl, ?_⟩
    by_cases hq : q = r
    · subst hq; simp [Event.takes, hbusy]
    · simp [Event.takes, hq]
  | _ => exact ⟨rfl, rfl⟩

theorem takes_command {r : BitVec 8} {t pick : Nat} {i : Instr} {s : State} (hi : i ≠ .read r) :
    Event.given r (.command t pick i) s = [] := by
  simp [Event.given, Event.takes, hi]

/-- A performed command, seen from a reader that it does not attach. -/
theorem fifoOrder_of_completed {r : BitVec 8} {t pick : Nat} {i : Instr} {s u : State}
    (h : Reading r.toNat s) (hacc : Accepted i s) (hc : Completed i (s.select t pick) u) (hi : i ≠ .attach r) :
    FifoOrder (s.pending r.toNat) (appendedBy i).toList (Event.given r (.command t pick i) s)
      (u.pending r.toNat) := by
  have hrb : RbInv (s.select t pick) := h.rb
  have quiet : u.pending r.toNat = s.pending r.toNat → i ≠ .read r → appendedBy i = none →
      FifoOrder (s.pending r.toNat) (appendedBy i).toList (Event.given r (.command t pick i) s)
        (u.pending r.toNat) := by
    intro hpending hread happend
    rw [hpending, takes_command hread, happend]
    exact .refl _
  cases hch : changesRb i with
  | false =>
    exact quiet ((SameRb.completed hc hch).pending _) (by rintro rfl; cases hch) (appendedBy_of_not_changesRb hch)
  | true =>
    cases i with
    | append v =>
      obtain rfl : u = ((s.select t pick).appendElem v).respond .ack := by
        cases hc with
        | append => rfl
        | answer ho => cases ho
        | draw ho => cases ho
      rw [takes_command (by simp), State.pending_respond, pending_appendElem hrb v h.att]
      exact .append _ v _
    | read q =>
      obtain ⟨htake, hother⟩ := pending_read hrb hc
      by_cases hq : q = r
      · subst hq
        have hgiven : Event.given q (.command t pick (.read q)) s = [s.oldest q.toNat] := by
          obtain ⟨hf, -, hheld⟩ := hacc
          have hpos : 0 < (s.rb.reader q.toNat).cnt := by
            rw [← State.pending_length]
            exact (congrArg List.length htake).symm ▸ Nat.succ_pos _
          have hbusy : s.portBusy q.toNat = false := hheld
          simp [Event.given, Event.takes, hf, hbusy, h.att, hpos]
        rw [hgiven]
        exact (congrArg (FifoOrder · _ _ _) htake).mpr (.take _ _)
      · exact quiet (hother _ fun hn => hq (BitVec.eq_of_toNat_eq hn.symm)) (by simpa using hq) rfl
    | consume q => exact quiet (pending_consume hc _) (by simp) rfl
    | attach q =>
      refine quiet ((pending_attach hrb hc).2 _ fun hn => hi ?_) (by simp) rfl
      rw [BitVec.eq_of_toNat_eq hn.symm]
    | _ => cases hch

/-- One event, seen from a reader: what it gives the reader, what it appends, what it leaves to read. -/
theorem fifoOrder_of_event {r : BitVec 8} {e : Event} {s : State} (h : Reading r.toNat s)
    (he : e.instr? ≠ some (.attach r)) (hf : (e.run s).blk.faulted = false) :
    Reading r.toNat (e.run s) ∧
    FifoOrder (s.pending r.toNat) (e.instr?.bind appendedBy).toList (e.given r s) ((e.run s).pending r.toNat) := by
  have quiet : ∀ u, SameRb s u → e.takes r s = false → e.instr?.bind appendedBy = none → Reading r.toNat u ∧
      FifoOrder (s.pending r.toNat) (e.instr?.bind appendedBy).toList (e.given r s) (u.pending r.toNat) := by
    intro u hu htakes happend
    rw [hu.pending, Event.given, htakes, happend]
    exact ⟨h.sameRb hu, .refl _⟩
  cases e with
  | command t pick i =>
    have hselect : Reading r.toNat (s.select t pick) := h.sameRb ⟨rfl, rfl, rfl, rfl⟩
    obtain ⟨hheld, heq⟩ | ⟨hacc, hc⟩ := completed_or_held (Event.run_command t pick i s) hf
    · obtain ⟨happend, htakes⟩ := held_quiet (r := r) (t := t) (pick := pick) (s := s) hheld
      rw [heq]
      exact quiet _ ⟨rfl, rfl, rfl, rfl⟩ htakes happend
    · exact ⟨hselect.completed hc hacc, fifoOrder_of_completed h hacc hc (by simpa [Event.instr?] using he)⟩
  | beat q =>
    by_cases hen : s.beatEnabled q = true
    · refine ⟨h.beat q, ?_⟩
      obtain ⟨htake, hother⟩ := pending_beat h.rb hen
      by_cases hq : q = r.toNat
      · subst hq
        have hgiven : Event.given r (.beat r.toNat) s = [s.oldest r.toNat] := by
          simp [Event.given, Event.takes, hen]
        rw [hgiven, htake]
        exact .take _ _
      · have hgiven : Event.given r (.beat q) s = [] := by simp [Event.given, Event.takes, hq]
        have hsame : ((Event.beat q).run s).pending r.toNat = s.pending r.toNat := hother _ (Ne.symm hq)
        rw [hgiven, hsame]
        exact .refl _
    · have hrun : (Event.beat q).run s = s := by simp only [Event.run, State.beat, if_neg hen]
      exact quiet _ (by rw [hrun]; exact .refl s) (by simp [Event.takes, hen]) rfl
  | pixel t pick => exact quiet _ (.pixelStep s t pick) rfl rfl
  | sched => exact quiet _ (.sched s) rfl rfl
  | panel ok => exact quiet _ (.complete s ok) rfl rfl

/-- A run without a further ATTACH of the reader and without a fault. -/
theorem fifoOrder_of_run {r : BitVec 8} {events : List Event} {s : State} (hs : Reading r.toNat s)
    (he : ∀ e ∈ events, e.instr? ≠ some (.attach r)) (hf : (runEvents events s).blk.faulted = false) :
    FifoOrder (s.pending r.toNat) (appendedValues events) (receivedValues r events s)
      ((runEvents events s).pending r.toNat) := by
  induction events generalizing s with
  | nil => exact .refl _
  | cons e rest ih =>
    obtain ⟨hnext, horder⟩ := fifoOrder_of_event hs (he e List.mem_cons_self) (not_faulted_of_runEvents hf)
    have hrest := ih hnext (fun e' he' => he e' (List.mem_cons_of_mem _ he')) hf
    have happended : appendedValues (e :: rest) = (e.instr?.bind appendedBy).toList ++ appendedValues rest := by
      unfold appendedValues
      rw [List.filterMap_cons]
      cases e.instr?.bind appendedBy <;> rfl
    rw [happended]
    exact horder.trans hrest

/-- Settles O32, by induction on the events. -/
theorem fifoUnderEveryInterleaving : Obligations.FifoUnderEveryInterleaving := by
  intro r events s hb hatt he hf
  obtain ⟨hsub, hsuffix⟩ := fifoOrder_of_run ⟨hb.rb, hatt⟩ he hf
  refine ⟨hsub, ?_⟩
  rw [← State.pending_length]
  exact List.suffix_iff_eq_drop.1 hsuffix

/-! ### The drop counter (R47, R200) -/

/-- Any number of counted losses, saturating (R21). -/
theorem min_satInc_add (w c n : Nat) : min (satInc w c + n) (2 ^ w - 1) = min (c + (n + 1)) (2 ^ w - 1) := by
  unfold satInc
  split <;> omega

/-- An APPEND that finds the reader full leaves it full and counts one loss (R186). -/
theorem onAppend_full {p : RingParams} {q : Reader} (hdrops : p.hasDrops = true) (hatt : q.att = true)
    (hfull : q.cnt = p.cap) : Reader.onAppend p q = { q with drops := satInc p.dropW q.drops } := by
  simp [Reader.onAppend, hdrops, hatt, hfull]

/-- Settles O34, by induction on the APPENDs. -/
theorem dropCounterSaturates : Obligations.DropCounterSaturates := by
  intro vs r s hb hf hdrops hatt hfull
  have hlt : (s.rb.reader r).drops < 2 ^ s.cfg.rbDropW := (hb.rb.reader r).drops_lt
  clear hb
  induction vs generalizing s with
  | nil => exact ⟨s, rfl, hfull, by simp only [List.length_nil]; omega⟩
  | cons v rest ih =>
    have hnext : ((s.appendElem v).rb.reader r) =
        { s.rb.reader r with drops := satInc s.cfg.rbDropW (s.rb.reader r).drops } := by
      rw [State.appendElem_rb, Ring.reader_append]
      exact onAppend_full hdrops hatt hfull
    obtain ⟨t, hrun, hcnt, hcount⟩ := ih ((s.appendElem v).respond .ack) hf hdrops
      (by rw [State.respond_rb, hnext]; exact hatt) (by rw [State.respond_rb, hnext]; exact hfull)
      (by rw [State.respond_rb, hnext]; exact satInc_lt hlt)
    refine ⟨t, ?_, hcnt, ?_⟩
    · simp only [List.map_cons, execAll, exec_append hf]
      exact hrun
    · rw [hcount, State.respond_rb, hnext, List.length_cons]
      exact min_satInc_add ..

end Sys2Proof.Machine

namespace Sys2Proof.Machine

/-! ### The state after reset (R381) -/

/-- No port is busy and no agent has a burst, because there are no agents. -/
theorem BurstInv.resetWith (c : Config) : BurstInv (State.resetWith c) := by
  have hleft : ∀ r, ((State.resetWith c).rb.reader r).br = 0 := by
    simp [State.resetWith, Ring.reset, Ring.reader, Reader.reset]
  exact {
    counted := fun _ a ha => (nomatch ha)
    owned := fun _ r hr => absurd hr (by simp [hleft])
    single := fun t u a b r k l vs ws ha => by simp [State.resetWith, Env.reset] at ha
    stopped := fun hf => nomatch hf }

/-- Settles O17: at reset nothing is listed, nothing is pending and nothing is in progress. -/
theorem resetMeetsTheInvariants : Obligations.ResetMeetsTheInvariants := fun c hc =>
  ⟨.resetWith hc, .resetWith c, .resetWith c⟩

/-! ### The packed status views (R69) -/

/-- A number that fits its field reads back whole. -/
theorem toNat_field {w n : Nat} (h : n < 2 ^ w) : (BitVec.ofNat w n).toNat = n := by
  rw [BitVec.toNat_ofNat, Nat.mod_eq_of_lt h]

section
variable {s : State}

/-- The cursor, the line position and the drop counters fill their views alone. -/
theorem numberViews (h : BlockInv s) : s.wrView.toNat = s.rb.wr ∧ s.fbXposView.toNat = s.fb.xp ∧
    ∀ r, (s.dropsView r).toNat = (s.rb.reader r).drops := by
  have hwr : s.rb.wr < s.cfg.rbN := h.rb.wr_lt
  have hrbN := h.bounds.rbN_le
  have hxp := h.display.xp_le
  have hline := h.bounds.lineLen_le
  exact ⟨toNat_field (by omega), toNat_field (by omega), fun r => toNat_field (h.rb.reader r).drops_lt⟩

/-- A count is at most `RB_N`, which fits its 16 bits. -/
theorem rstatView_fields (h : BlockInv s) (r : Nat) :
    (s.rstatView r).extractLsb' 31 1 = BitVec.ofBool (s.rb.reader r).att ∧
    (s.rstatView r).extractLsb' 30 1 = BitVec.ofBool (decide (0 < (s.rb.reader r).br)) ∧
    ((s.rstatView r).extractLsb' 0 16).toNat = (s.rb.reader r).cnt := by
  have hcnt : (s.rb.reader r).cnt ≤ s.cfg.rbN := (h.rb.reader r).cnt_le
  have hrbN := h.bounds.rbN_le
  unfold State.rstatView flagBit
  simp (disch := omega) only [BitVec.extractLsb'_append_eq_of_le, BitVec.extractLsb'_append_eq_of_add_le,
    Nat.reduceSub, BitVec.extractLsb'_eq_self, true_and]
  exact toNat_field (by omega)

/-- The phase is below `SE_OV`, which fits its 15 bits. -/
theorem seCtrlView_fields (h : BlockInv s) :
    s.seCtrlView.extractLsb' 31 1 = BitVec.ofBool s.se.armed ∧ (s.seCtrlView.extractLsb' 0 15).toNat = s.se.phase := by
  have hphase := h.phase_lt
  have hov := h.bounds.seOv_lt
  have hn := h.bounds.seN_le
  unfold State.seCtrlView flagBit
  simp (disch := omega) only [BitVec.extractLsb'_append_eq_of_le, BitVec.extractLsb'_append_eq_of_add_le,
    Nat.reduceSub, BitVec.extractLsb'_eq_self, true_and]
  exact toNat_field (by omega)

/-- The current line is at most the number of lines, which fits its 15 bits. -/
theorem fbCtrlView_fields (h : BlockInv s) :
    s.fbCtrlView.extractLsb' 0 2 = s.fb.st.code ∧ s.fbCtrlView.extractLsb' 2 1 = BitVec.ofBool s.fb.pend ∧
    s.fbCtrlView.extractLsb' 4 2 = s.fb.ls.code ∧ (s.fbCtrlView.extractLsb' 16 15).toNat = s.fb.cur := by
  have hcur := h.display.cur_le
  have hlines := h.bounds.lineCount_le
  unfold State.fbCtrlView flagBit
  simp (disch := omega) only [BitVec.extractLsb'_append_eq_of_le, BitVec.extractLsb'_append_eq_of_add_le,
    Nat.reduceSub, BitVec.extractLsb'_eq_self, true_and]
  exact toNat_field (by omega)

theorem fstatView_fields (s : State) :
    s.fstatView.extractLsb' 31 1 = BitVec.ofBool s.blk.faulted ∧ s.fstatView.extractLsb' 8 16 = s.blk.fcmd ∧
    s.fstatView.extractLsb' 0 8 = s.blk.fcode := by
  unfold State.fstatView flagBit
  simp (disch := omega) only [BitVec.extractLsb'_append_eq_of_le, BitVec.extractLsb'_append_eq_of_add_le,
    Nat.reduceSub, BitVec.extractLsb'_eq_self, and_self]

end

/-- Settles O60: each view is a concatenation of its fields, and the invariant bounds every number by its field. -/
theorem statusViewFields : Obligations.StatusViewFields := by
  intro s h
  obtain ⟨hwr, hxp, hdrops⟩ := numberViews h
  obtain ⟨harmed, hphase⟩ := seCtrlView_fields h
  obtain ⟨hst, hpend, hls, hcur⟩ := fbCtrlView_fields h
  have hstcode : s.fb.st.code = (match s.fb.st with
      | .idle => 0#2
      | .treq => 1#2
      | .tx => 2#2) := by cases s.fb.st <;> rfl
  have hlscode : s.fb.ls.code = (match s.fb.ls with
      | .convert => 0#2
      | .send => 1#2
      | .wait => 2#2) := by cases s.fb.ls <;> rfl
  exact ⟨hwr, hxp, rstatView_fields h, fun _ => hdrops, harmed, hphase, hst.trans hstcode, hpend, hls.trans hlscode,
    hcur, rfl, rfl, fun _ => rfl, fstatView_fields s⟩

end Sys2Proof.Machine

namespace Sys2Proof.Machine

/-! ### Each unit works alone (R115)

A step of a unit does the same whatever the other units hold: it commutes with `State.withOthers`. That it leaves the
other units alone is the special case in which they hold what they held. -/

/-- The state with unit `u`, the parameters, the fault record and the environment of `s`, and the other units of `o`. -/
def State.withOthers (u : BlockUnit) (s o : State) : State :=
  match u with
  | .rb => { s with se := o.se, fb := o.fb, mem := { o.mem with rbData := s.mem.rbData } }
  | .se =>
    { s with rb := o.rb, fb := o.fb, mem := { o.mem with stgData := s.mem.stgData, x := s.mem.x, work := s.mem.work } }
  | .fb =>
    { s with rb := o.rb, se := o.se, mem := { o.mem with pix := s.mem.pix, pal := s.mem.pal, line := s.mem.line } }

/-- The outcome amid the other units of `o`. -/
def resultWithOthers (u : BlockUnit) (o : State) : Result → Result
  | .next t => .next (t.withOthers u o)
  | .fault r => .fault r
  | .refused r => .refused r

section
variable {s t o : State}

@[simp] theorem withOthers_cfg (u : BlockUnit) : (s.withOthers u o).cfg = s.cfg := by cases u <;> rfl

@[simp] theorem withOthers_blk (u : BlockUnit) : (s.withOthers u o).blk = s.blk := by cases u <;> rfl

@[simp] theorem withOthers_env (u : BlockUnit) : (s.withOthers u o).env = s.env := by cases u <;> rfl

theorem withOthers_self (u : BlockUnit) (s : State) : s.withOthers u s = s := by cases u <;> rfl

/-! #### What is the same in two states that agree on a unit -/

theorem AgreeRb.withOthers_eq (h : AgreeRb s o) : s.withOthers .rb o = o := by
  obtain ⟨hcfg, hrb, hdata, hblk, henv⟩ := h
  simp only [State.withOthers, ← hcfg, ← hrb, ← hdata, ← hblk, ← henv]

theorem AgreeSe.withOthers_eq (h : AgreeSe s o) : s.withOthers .se o = o := by
  obtain ⟨hcfg, hse, hstg, hx, hwork, hblk, henv⟩ := h
  simp only [State.withOthers, ← hcfg, ← hse, ← hstg, ← hx, ← hwork, ← hblk, ← henv]

theorem AgreeFb.withOthers_eq (h : AgreeFb s o) : s.withOthers .fb o = o := by
  obtain ⟨hcfg, hfb, hpix, hpal, hline, hblk, henv⟩ := h
  simp only [State.withOthers, ← hcfg, ← hfb, ← hpix, ← hpal, ← hline, ← hblk, ← henv]

theorem agreeRb_withOthers (s o : State) : AgreeRb s (s.withOthers .rb o) := ⟨rfl, rfl, rfl, rfl, rfl⟩

theorem agreeSe_withOthers (s o : State) : AgreeSe s (s.withOthers .se o) := ⟨rfl, rfl, rfl, rfl, rfl, rfl, rfl⟩

theorem agreeFb_withOthers (s o : State) : AgreeFb s (s.withOthers .fb o) := ⟨rfl, rfl, rfl, rfl, rfl, rfl, rfl⟩

/-! #### What a step leaves alone that gives the others back as they were -/

theorem frame_of_rb (h : t = t.withOthers .rb s) :
    t.se = s.se ∧ t.fb = s.fb ∧ t.mem = { s.mem with rbData := t.mem.rbData } :=
  ⟨(congrArg State.se h :), (congrArg State.fb h :), (congrArg State.mem h :)⟩

theorem frame_of_se (h : t = t.withOthers .se s) :
    t.rb = s.rb ∧ t.fb = s.fb ∧
      t.mem = { s.mem with stgData := t.mem.stgData, x := t.mem.x, work := t.mem.work } :=
  ⟨(congrArg State.rb h :), (congrArg State.fb h :), (congrArg State.mem h :)⟩

theorem frame_of_fb (h : t = t.withOthers .fb s) :
    t.rb = s.rb ∧ t.se = s.se ∧
      t.mem = { s.mem with pix := t.mem.pix, pal := t.mem.pal, line := t.mem.line } :=
  ⟨(congrArg State.rb h :), (congrArg State.se h :), (congrArg State.mem h :)⟩

end

/-! #### Command entry -/

section
variable {i : Instr} {u : BlockUnit} {s o : State} {rule rule' : Result}

theorem respond_withOthers (x : Response) (s o : State) :
    (s.withOthers u o).respond x = (s.respond x).withOthers u o := by
  cases u <;> rfl

theorem next_respond_withOthers {t t' : State} (x : Response) (h : t' = t.withOthers u o) :
    Host.Outcome.next (t'.respond x) = resultWithOthers u o (.next (t.respond x)) :=
  congrArg Host.Outcome.next (h ▸ respond_withOthers x t o)

theorem raise_withOthers (i : Instr) (code : FaultCode) (s o : State) :
    raise i code (s.withOthers u o) = resultWithOthers u o (raise i code s) := by
  cases u <;> rfl

/-- Only the commands of unit RB are held, on a port of that unit (R112). -/
theorem heldIn_withOthers (i : Instr) (s o : State) : heldIn i (s.withOthers (blockUnit i) o) = heldIn i s := by
  cases i <;> rfl

theorem accept_withOthers (hu : blockUnit i = u) (h : rule' = resultWithOthers u o rule) :
    accept i (s.withOthers u o) rule' = resultWithOthers u o (accept i s rule) := by
  subst hu h
  have herr : (s.withOthers (blockUnit i) o).respondErr = s.respondErr.withOthers (blockUnit i) o := by
    cases blockUnit i <;> rfl
  have hhold : (s.withOthers (blockUnit i) o).hold = s.hold.withOthers (blockUnit i) o := by
    cases blockUnit i <;> rfl
  unfold accept
  rw [withOthers_blk, withOthers_cfg, heldIn_withOthers, herr, hhold, raise_withOthers]
  split_ifs <;> rfl

theorem ite_withOthers {p : Prop} [Decidable p] {x x' y y' : Result} (hx : p → x' = resultWithOthers u o x)
    (hy : ¬p → y' = resultWithOthers u o y) :
    (if p then x' else y') = resultWithOthers u o (if p then x else y) := by
  split_ifs with hp
  · exact hx hp
  · exact hy hp

theorem checkReader_withOthers {r : Nat} (h : rule' = resultWithOthers .rb o rule) :
    checkReader i r (s.withOthers .rb o) rule' = resultWithOthers .rb o (checkReader i r s rule) :=
  ite_withOthers (fun _ => rfl) fun _ => ite_withOthers (fun _ => rfl) fun _ => h

end

section
variable {s o : State}

/-! #### Unit RB -/

theorem beat_withOthers (r : Nat) (s o : State) : (s.withOthers .rb o).beat r = (s.beat r).withOthers .rb o := by
  have hen : (s.withOthers .rb o).beatEnabled r = s.beatEnabled r := rfl
  unfold State.beat
  rw [hen]
  split_ifs <;> rfl

/-- A beat takes its element from the port and leaves it in the array (R196). -/
theorem beat_mem (r : Nat) (s : State) : (s.beat r).mem = s.mem := by
  unfold State.beat
  split_ifs <;> rfl

/-! #### Unit SE -/

theorem forUpTo_withOthers {u : BlockUnit} (n : Nat) (body : Nat → State → State)
    (hbody : ∀ k t, body k (t.withOthers u o) = (body k t).withOthers u o) (s : State) :
    forUpTo n body (s.withOthers u o) = (forUpTo n body s).withOthers u o := by
  induction n with
  | zero => rfl
  | succ n ih => rw [forUpTo_succ, forUpTo_succ, ih, hbody]

theorem shiftWindow_withOthers (s : State) :
    (s.withOthers .se o).shiftWindow = s.shiftWindow.withOthers .se o :=
  forUpTo_withOthers _ (fun i t => t.setX i (t.xElem (i + 2 * s.cfg.seOv))) (fun _ _ => rfl) s

theorem refill_withOthers (s : State) : (s.withOthers .se o).refill = s.refill.withOthers .se o :=
  forUpTo_withOthers _ State.refillOne (fun _ _ => rfl) s

theorem windowOne_withOthers (k : Nat) (s : State) :
    (s.withOthers .se o).windowOne k = (s.windowOne k).withOthers .se o := by
  simp only [State.windowOne]
  rfl

theorem window_withOthers (s : State) : (s.withOthers .se o).window = s.window.withOthers .se o :=
  congrArg (State.useNaNs _) (forUpTo_withOthers _ State.windowOne windowOne_withOthers s)

theorem transform_withOthers (s : State) : (s.withOthers .se o).transform = s.transform.withOthers .se o :=
  forUpTo_withOthers _ (fun k t => (t.setWork (2 * k) (s.cfg.seFft s.workSamples k).1).setWork (2 * k + 1)
    (s.cfg.seFft s.workSamples k).2) (fun _ _ => rfl) s

theorem compute_withOthers (s : State) : (s.withOthers .se o).compute = s.compute.withOthers .se o := by
  unfold State.compute
  rw [shiftWindow_withOthers, refill_withOthers, window_withOthers, transform_withOthers]
  generalize s.shiftWindow.refill.window.transform = t
  rfl

theorem normalise_withOthers (s : State) : (s.withOthers .se o).normalise = s.normalise.withOthers .se o :=
  congrArg (State.useNaNs _) (forUpTo_withOthers _ (fun i t => t.setWork i
    (f32DivPow2 (freeNaN (s.env.nanDraws + i)) (t.workElem i) s.cfg.seN.log2)) (fun _ _ => rfl) s)

theorem power_withOthers (s : State) : (s.withOthers .se o).power = s.power.withOthers .se o :=
  congrArg (State.useNaNs _) (forUpTo_withOthers _ (fun k t => t.setWork k
    (powerOf (s.env.nanDraws + 3 * k) (t.workElem (2 * k)) (t.workElem (2 * k + 1)))) (fun _ _ => rfl) s)

theorem postprocess_withOthers (s : State) : (s.withOthers .se o).postprocess = s.postprocess.withOthers .se o := by
  unfold State.postprocess
  rw [withOthers_cfg]
  split
  · rfl
  · exact normalise_withOthers s
  · exact power_withOthers s
  · rw [normalise_withOthers, power_withOthers]

/-! #### Unit FB -/

theorem takePixel_withOthers (pick : Nat) (todo : List PixelWrite) (s : State) :
    takePixel pick todo (s.withOthers .fb o) =
      ((takePixel pick todo s).1.withOthers .fb o, (takePixel pick todo s).2) := by
  unfold takePixel
  split <;> rfl

theorem perform_withOthers (plots : List Plot) (s : State) :
    (s.withOthers .fb o).perform plots = (s.perform plots).withOthers .fb o := by
  have hwrites : (s.withOthers .fb o).pixelWrites plots = s.pixelWrites plots := rfl
  unfold State.perform
  rw [hwrites, withOthers_env, takePixel_withOthers]
  dsimp only
  split_ifs <;> rfl

theorem pixelStep_withOthers (t pick : Nat) (s : State) :
    (s.withOthers .fb o).pixelStep t pick = (s.pixelStep t pick).withOthers .fb o := by
  have hdraw : (s.withOthers .fb o).drawing? t = s.drawing? t := rfl
  unfold State.pixelStep
  rw [hdraw, withOthers_blk]
  split_ifs
  · rfl
  · cases s.drawing? t with
    | none => rfl
    | some todo =>
      dsimp only
      rw [takePixel_withOthers]
      dsimp only
      split_ifs <;> rfl

/-- PIXEL writes its pixel if it lies in the framebuffer (R285). -/
theorem setPixelIf_withOthers (inside : Bool) (p : PixelWrite) (s : State) :
    (if inside then (s.withOthers .fb o).setPixel p else s.withOthers .fb o) =
      (if inside then s.setPixel p else s).withOthers .fb o := by
  cases inside <;> rfl

theorem setPal_withOthers (i : Nat) (col : Color) (s : State) :
    (s.withOthers .fb o).setPal i col = (s.setPal i col).withOthers .fb o := by
  unfold State.setPal
  split_ifs <;> rfl

theorem sched_withOthers (s o : State) : (s.withOthers .fb o).sched = s.sched.withOthers .fb o := by
  have hen : (s.withOthers .fb o).schedEnabled = s.schedEnabled := rfl
  unfold State.sched
  rw [hen]
  cases s.schedEnabled with
  | none => rfl
  | some step => cases step <;> rfl

theorem complete_withOthers (ok : Bool) (s : State) :
    (s.withOthers .fb o).complete ok = (s.complete ok).withOthers .fb o := by
  have hen : (s.withOthers .fb o).panelEnabled = s.panelEnabled := rfl
  unfold State.complete
  rw [hen]
  split_ifs <;> rfl

/-! #### Every command -/

theorem exec_withOthers (i : Instr) (s o : State) :
    exec i (s.withOthers (blockUnit i) o) = resultWithOthers (blockUnit i) o (exec i s) := by
  cases i with
  | append v => exact accept_withOthers rfl rfl
  | attach r => exact accept_withOthers rfl (ite_withOthers (fun _ => rfl) fun _ => rfl)
  | count r => exact accept_withOthers rfl (checkReader_withOthers rfl)
  | read r => exact accept_withOthers rfl (checkReader_withOthers (ite_withOthers (fun _ => rfl) fun _ => rfl))
  | consume r => exact accept_withOthers rfl (checkReader_withOthers (ite_withOthers (fun _ => rfl) fun _ => rfl))
  | drops r => exact accept_withOthers rfl (checkReader_withOthers rfl)
  | feed re im => exact accept_withOthers rfl rfl
  | compute =>
    refine accept_withOthers rfl (ite_withOthers (fun _ => rfl) fun _ => ite_withOthers (fun _ => rfl) fun _ => ?_)
    exact next_respond_withOthers .ack (compute_withOthers s)
  | postprocess => exact accept_withOthers rfl (next_respond_withOthers .ack (postprocess_withOthers s))
  | copyfft l => exact accept_withOthers rfl (ite_withOthers (fun _ => rfl) fun _ => rfl)
  | clear => exact accept_withOthers rfl (congrArg Host.Outcome.next (perform_withOthers _ s))
  | pixel x y c =>
    exact accept_withOthers rfl
      (next_respond_withOthers .ack (setPixelIf_withOthers (Plot.inside s.cfg _) _ s))
  | hline x y len c => exact accept_withOthers rfl (congrArg Host.Outcome.next (perform_withOthers _ s))
  | vline x y len c => exact accept_withOthers rfl (congrArg Host.Outcome.next (perform_withOthers _ s))
  | circle xc yc rad c => exact accept_withOthers rfl (congrArg Host.Outcome.next (perform_withOthers _ s))
  | blit x y bw bh data => exact accept_withOthers rfl (congrArg Host.Outcome.next (perform_withOthers _ s))
  | vscroll => exact accept_withOthers rfl (congrArg Host.Outcome.next (perform_withOthers _ s))
  | setpal k col =>
    refine accept_withOthers rfl (ite_withOthers (fun _ => rfl) fun _ => ?_)
    exact next_respond_withOthers .ack (setPal_withOthers _ col s)
  | update => exact accept_withOthers rfl rfl
  | ready => exact accept_withOthers rfl rfl

/-- A command amid other units makes the same of its own unit, and nothing of the others. -/
theorem exec_amid {i : Instr} {u : BlockUnit} {s s' t t' : State} (hu : blockUnit i = u) (h : exec i s = .next t)
    (h' : exec i s' = .next t') (hs : s.withOthers u s' = s') : t' = t.withOthers u s' ∧ t = t.withOthers u s := by
  subst hu
  constructor
  · have hexec := exec_withOthers i s s'
    rw [hs, h', h] at hexec
    exact Host.Outcome.next.inj hexec
  · have hexec := exec_withOthers i s s
    rw [withOthers_self, h] at hexec
    exact Host.Outcome.next.inj hexec

end

/-! #### The internal steps of unit FB -/

/-- The internal steps of unit FB (R282, R302, R306). -/
def DisplayStep (f : State → State) : Prop :=
  f = State.sched ∨ (∃ ok, f = State.complete ok) ∨ ∃ t pick, f = State.pixelStep t pick

theorem DisplayStep.withOthers {f : State → State} (h : DisplayStep f) (s o : State) :
    f (s.withOthers .fb o) = (f s).withOthers .fb o := by
  obtain rfl | ⟨ok, rfl⟩ | ⟨t, pick, rfl⟩ := h
  · exact sched_withOthers s o
  · exact complete_withOthers ok s
  · exact pixelStep_withOthers t pick s

/-- Only SETPAL writes the palette (R297). -/
theorem DisplayStep.pal {f : State → State} (h : DisplayStep f) (s : State) : (f s).mem.pal = s.mem.pal := by
  obtain rfl | ⟨ok, rfl⟩ | ⟨t, pick, rfl⟩ := h
  · obtain ⟨-, heq⟩ | ⟨-, -, heq⟩ | ⟨-, -, -, heq⟩ | ⟨-, -, -, -, heq⟩ | ⟨-, -, -, -, heq⟩ := s.sched_cases <;>
      rw [heq] <;> rfl
  · obtain ⟨-, heq⟩ | ⟨-, -, -, heq⟩ := s.complete_cases ok <;> rw [heq]
  · have htake (todo : List PixelWrite) : (takePixel pick todo s).1.mem.pal = s.mem.pal := by
      obtain heq | ⟨p, -, heq⟩ := takePixel_state pick todo s <;> rw [heq]
      rfl
    obtain ⟨-, heq⟩ | ⟨a, todo, -, -, -, ⟨-, heq⟩ | ⟨-, heq⟩⟩ := s.pixelStep_cases t pick <;> rw [heq]
    · exact htake todo
    · exact htake todo

/-- Settles O57: every step commutes with replacing the other units, so it neither reads nor writes them. -/
theorem unitsShareNoState : Obligations.UnitsShareNoState := by
  refine ⟨fun i s s' t t' h h' => ⟨fun hu hs => ?_, fun hu hs => ?_, fun hu hs => ?_⟩, fun s s' r hs => ?_,
    fun s s' f hs hf => ?_⟩
  · obtain ⟨ht', ht⟩ := exec_amid hu h h' hs.withOthers_eq
    exact ⟨ht' ▸ agreeRb_withOthers t s', frame_of_rb ht⟩
  · obtain ⟨ht', ht⟩ := exec_amid hu h h' hs.withOthers_eq
    exact ⟨ht' ▸ agreeSe_withOthers t s', frame_of_se ht⟩
  · obtain ⟨ht', ht⟩ := exec_amid hu h h' hs.withOthers_eq
    exact ⟨ht' ▸ agreeFb_withOthers t s', frame_of_fb ht⟩
  · obtain ⟨hse, hfb, -⟩ := frame_of_rb (beat_withOthers r s s)
    rw [← hs.withOthers_eq, beat_withOthers]
    exact ⟨agreeRb_withOthers _ s', hse, hfb, beat_mem r s⟩
  · obtain ⟨hrb, hse, hmem⟩ := frame_of_fb (DisplayStep.withOthers hf s s)
    rw [DisplayStep.pal hf] at hmem
    rw [← hs.withOthers_eq, DisplayStep.withOthers hf]
    exact ⟨agreeFb_withOthers _ s', hrb, hse, hmem⟩

end Sys2Proof.Machine

namespace Sys2Proof.Machine

/-! ### An agent's move runs the decoded command (R113, R344) -/

/-- Using up a choice of the agenda leaves the agents and unit RB as they are. -/
@[simp] theorem fetch_afterChoice (t : Nat) (s : State) : s.afterChoice.fetch t = s.fetch t := by
  unfold State.afterChoice
  split <;> rfl

theorem issue_of_decode {s : State} {p : Packet} {i : Instr} (hf : s.blk.faulted = false)
    (hp : decode s.cfg p = .instr i) : issue p s = exec i s := by
  simp [issue, hf, hp]

theorem runMove_issue {s : State} {t pick : Nat} {p : Packet} (h : s.fetch t = some p) :
    runMove (.issue t pick) s = issue p (s.select t pick) := by
  simp [runMove, h]

/-- Settles O6: the check of R355 passes, the fetch sees the same agents once the choice is used up, and command entry
hands the decoded command to `exec`. -/
theorem stepRunsTheDecodedCommand : Obligations.StepRunsTheDecodedCommand := by
  intro s t pick p i hvalid howned hf hmove hfetch hp
  calc step s = runMove (.issue t pick) s.afterChoice := by rw [step_of_valid hvalid howned, hmove]
    _ = issue p (s.afterChoice.select t pick) := runMove_issue (by rw [fetch_afterChoice, hfetch])
    _ = exec i (s.afterChoice.select t pick) := issue_of_decode (by simpa using hf) (by simpa using hp)

end Sys2Proof.Machine

namespace Sys2Proof.Machine

/-! ### Ownership (R123, R124) -/

/-! #### No move is refused -/

theorem issue_next (p : Packet) (s : State) : ∃ t, issue p s = .next t := by
  unfold issue
  split
  · exact ⟨_, rfl⟩
  · split
    · exact ⟨_, rfl⟩
    · exact exec_next _ s

theorem runMove_next (m : Move) (s : State) : ∃ t, runMove m s = .next t := by
  cases m with
  | issue t pick =>
    unfold runMove
    dsimp only
    split
    · exact ⟨_, rfl⟩
    · exact issue_next _ _
  | beat r => exact ⟨_, rfl⟩
  | pixel t pick => exact ⟨_, rfl⟩
  | sched => exact ⟨_, rfl⟩
  | panel ok => exact ⟨_, rfl⟩
  | jump t pos => exact ⟨_, rfl⟩
  | reset => exact ⟨_, rfl⟩

/-- The program of a valid configuration is refused by the check of the scripts alone (R355). -/
theorem step_refused_iff {s : State} (hvalid : s.cfg.valid = true) :
    step s = .refused .ownershipBroken ↔ s.owned = false := by
  cases howned : s.owned with
  | false => simp [step, hvalid, howned]
  | true =>
    obtain ⟨t, ht⟩ := runMove_next s.nextMove s.afterChoice
    simp [step, hvalid, howned, ht]

/-! #### The role of a command -/

theorem role_eq_producer_iff {i : Instr} : i.role = .producer ↔ ∃ v, i = .append v := by
  cases i <;> simp [Instr.role]

theorem role_eq_consumer_iff {i : Instr} {r : Nat} : i.role = .consumer r ↔ i.reader? = some r := by
  cases i <;> simp [Instr.role, Instr.reader?]

theorem role_eq_spectral_iff {i : Instr} : i.role = .spectral ↔ blockUnit i = .se := by
  cases i <;> simp [Instr.role, blockUnit]

theorem role_eq_display_iff {i : Instr} : i.role = .display ↔ blockUnit i = .fb := by
  cases i <;> simp [Instr.role, blockUnit]

/-- The four ways in which two commands have one role (R124). -/
theorem role_eq_role_iff {i j : Instr} : i.role = j.role ↔
    ((∃ v, i = .append v) ∧ ∃ v, j = .append v) ∨ (∃ r, i.reader? = some r ∧ j.reader? = some r) ∨
      (blockUnit i = .se ∧ blockUnit j = .se) ∨ (blockUnit i = .fb ∧ blockUnit j = .fb) := by
  simp only [← role_eq_producer_iff, ← role_eq_consumer_iff, ← role_eq_spectral_iff, ← role_eq_display_iff]
  constructor
  · intro h
    rw [h]
    cases j.role <;> simp
  · rintro (⟨hi, hj⟩ | ⟨r, hi, hj⟩ | ⟨hi, hj⟩ | ⟨hi, hj⟩) <;> rw [hi, hj]

/-! #### The roles of an agent -/

theorem roleOfWord_eq_some_iff {c : Config} {w : CmdWord} {ρ : Role} :
    roleOfWord c w = some ρ ↔ ∃ i, decode c ⟨w, 0⟩ = .instr i ∧ i.role = ρ := by
  unfold roleOfWord
  split <;> simp [*]

theorem mem_roles_iff {c : Config} {a : Agent} {ρ : Role} :
    ρ ∈ a.roles c ↔ ∃ p ∈ a.script, ∃ i, decode c ⟨p.word, 0⟩ = .instr i ∧ i.role = ρ := by
  simp only [Agent.roles, List.mem_filterMap, roleOfWord_eq_some_iff]

/-- Some role is played by both agents. -/
def ShareRole (c : Config) (a b : Agent) : Prop := ∃ ρ, ρ ∈ a.roles c ∧ ρ ∈ b.roles c

theorem ShareRole.symm {c : Config} {a b : Agent} : ShareRole c a b → ShareRole c b a :=
  fun ⟨ρ, ha, hb⟩ => ⟨ρ, hb, ha⟩

theorem rolesDisjoint_iff {c : Config} {a b : Agent} :
    rolesDisjoint (a.roles c) (b.roles c) = true ↔ ¬ ShareRole c a b := by
  simp [rolesDisjoint, ShareRole]

/-- The check of the scripts looks at every pair of agents. -/
theorem ownedAgents_iff {c : Config} {l : List Agent} :
    ownedAgents c l = true ↔ l.Pairwise fun a b => ¬ ShareRole c a b := by
  induction l with
  | nil => simp [ownedAgents]
  | cons a rest ih => simp [ownedAgents, ih, rolesDisjoint_iff]

theorem owned_eq_false_iff {s : State} :
    s.owned = false ↔ ∃ (t u : Nat) (a b : Agent), t ≠ u ∧ s.env.agents[t]? = some a ∧ s.env.agents[u]? = some b ∧
      ShareRole s.cfg a b := by
  rw [← Bool.not_eq_true, State.owned, ownedAgents_iff, List.pairwise_iff_getElem]
  push Not
  constructor
  · rintro ⟨t, u, ht, hu, htu, h⟩
    exact ⟨t, u, _, _, htu.ne, List.getElem?_eq_getElem ht, List.getElem?_eq_getElem hu, h⟩
  · rintro ⟨t, u, a, b, htu, ha, hb, h⟩
    obtain ⟨ht, rfl⟩ := List.getElem?_eq_some_iff.1 ha
    obtain ⟨hu, rfl⟩ := List.getElem?_eq_some_iff.1 hb
    obtain hlt | hlt := Nat.lt_or_gt_of_ne htu
    · exact ⟨t, u, ht, hu, hlt, h⟩
    · exact ⟨u, t, hu, ht, hlt, h.symm⟩

/-- Settles O9: the check compares the roles of every two agents, and a role is one of the four kinds. -/
theorem ownershipIsOneAgentPerRole : Obligations.OwnershipIsOneAgentPerRole := by
  intro s hvalid
  rw [step_refused_iff hvalid, owned_eq_false_iff]
  simp only [← role_eq_role_iff]
  constructor
  · rintro ⟨t, u, a, b, htu, ha, hb, ρ, hρa, hρb⟩
    obtain ⟨p, hp, i, hi, hiρ⟩ := mem_roles_iff.1 hρa
    obtain ⟨q, hq, j, hj, hjρ⟩ := mem_roles_iff.1 hρb
    exact ⟨t, u, a, b, p, q, i, j, htu, ha, hb, hp, hq, hi, hj, hiρ.trans hjρ.symm⟩
  · rintro ⟨t, u, a, b, p, q, i, j, htu, ha, hb, hp, hq, hi, hj, hrole⟩
    exact ⟨t, u, a, b, htu, ha, hb, j.role, mem_roles_iff.2 ⟨p, hp, i, hi, hrole⟩, mem_roles_iff.2 ⟨q, hq, j, hj, rfl⟩⟩

end Sys2Proof.Machine

namespace Sys2Proof.Machine

/-! ### Which commands are held (R112) -/

theorem heldIn_iff {i : Instr} {s : State} :
    heldIn i s = true ↔ ∃ r, i.reader? = some r ∧ r < s.cfg.rbR ∧ 0 < (s.rb.reader r).br := by
  unfold heldIn
  split <;> simp [*, State.portBusy]

/-- The agent is past its command, which is not held. -/
def Agent.Past (a b : Agent) : Prop := b.pos = a.pos + 1 ∧ b.held = false

theorem Agent.past_answer (a : Agent) (x : Response) : a.Past (a.answer x) := ⟨rfl, rfl⟩

theorem Agent.past_begin (a : Agent) (w : Work) : a.Past (a.begin w) := ⟨rfl, rfl⟩

/-- The issuer is past its command in `t`. -/
def IssuerPast (s t : State) : Prop :=
  ∀ a, s.env.agents[s.env.issuer]? = some a → ∃ b, t.env.agents[s.env.issuer]? = some b ∧ a.Past b

namespace IssuerPast

variable {s t : State}

theorem respond (hi : t.env.issuer = s.env.issuer) (ha : t.env.agents = s.env.agents) (x : Response) :
    IssuerPast s (t.respond x) := by
  intro a hs
  refine ⟨a.answer x, ?_, a.past_answer x⟩
  rw [State.agents_respond, if_pos hi, ha, hs, Option.map_some]

theorem beginWork (hi : t.env.issuer = s.env.issuer) (ha : t.env.agents = s.env.agents) (w : Work) :
    IssuerPast s (t.beginWork w) := by
  intro a hs
  refine ⟨a.begin w, ?_, a.past_begin w⟩
  rw [State.agents_beginWork, if_pos hi, ha, hs, Option.map_some]

/-- Fault entry answers the issuer, and then finds nothing of it held (R346). -/
theorem raiseFault (s : State) (w : CmdWord) (code : FaultCode) : IssuerPast s (s.raiseFault w code) := by
  intro a hs
  rw [State.agents_raiseFault, if_pos rfl, hs]
  refine ⟨_, rfl, ?_, Agent.closeHeld_held _ _⟩
  dsimp only
  rw [Agent.closeHeld_of_not_held _ _ (Agent.closeWork_held _ _), Agent.closeWork_pos]
  rfl

theorem perform (s : State) (plots : List Plot) : IssuerPast s (s.perform plots) := by
  obtain ⟨-, heq⟩ | ⟨p, -, rest, -, -, ⟨-, heq⟩ | ⟨-, heq⟩⟩ := s.perform_cases plots <;> rw [heq]
  · exact respond rfl rfl _
  · exact respond rfl rfl _
  · exact beginWork rfl rfl _

theorem onlySpectral (h : OnlySpectral s t) (x : Response) : IssuerPast s (t.respond x) :=
  respond (by rw [h.env]) h.agents x

theorem completed {i : Instr} (hc : Completed i s t) : IssuerPast s t := by
  cases hc with
  | answer _ x => exact respond rfl rfl _
  | append v => exact respond rfl rfl _
  | attach _ => exact respond rfl rfl _
  | read _ _ _ => exact respond rfl rfl _
  | consumeNone _ _ _ => exact respond rfl rfl _
  | consume _ _ _ => exact beginWork rfl rfl _
  | feed re im armed b => exact respond rfl rfl _
  | compute _ => exact onlySpectral (.compute s) _
  | postprocess => exact onlySpectral (.postprocess s) _
  | draw _ plots => exact perform s plots
  | pixelInside c p _ => exact respond rfl rfl _
  | pixelOutside x y c => exact respond rfl rfl _
  | setpal k col =>
    have henv := State.setPal_env k.toNat col s
    exact respond (congrArg Env.issuer henv) (congrArg Env.agents henv) _
  | update => exact respond rfl rfl _

end IssuerPast

/-- A command that is not held is dealt with in its step. -/
theorem issuerPast_of_exec {i : Instr} {s t : State} (h : exec i s = .next t) (hfree : heldIn i s = false) :
    IssuerPast s t := by
  obtain ⟨-, rfl⟩ | ⟨-, w, code, rfl⟩ | ⟨-, hheld, -⟩ | ⟨-, hc⟩ := exec_cases h
  · exact .respond rfl rfl _
  · exact .raiseFault s w code
  · exact absurd (hfree.symm.trans hheld) (by simp)
  · exact .completed hc

/-- Settles O29: by what a command can do, and what each outcome makes of the issuer. -/
theorem onlyBusyReadersHold : Obligations.OnlyBusyReadersHold := by
  refine ⟨fun i r s hf hp hi hr hbr => ⟨?_, ⟨rfl, rfl, rfl, rfl, rfl, rfl⟩, fun a ha => ?_⟩,
    fun i s t a hfree h ha => issuerPast_of_exec h ?_ a ha⟩
  · exact exec_of_held hf hp (heldIn_iff.2 ⟨r, hi, hr, hbr⟩)
  · rw [State.agents_hold, if_pos rfl, ha]
    rfl
  · rw [← Bool.not_eq_true, heldIn_iff]
    rintro ⟨r, hi, hr, hbr⟩
    exact hbr.ne' (hfree r hi hr)

end Sys2Proof.Machine

namespace Sys2Proof.Machine

/-! ### The commands that only answer (R107) -/

section
variable {i : Instr} {s t : State}

/-- The block of `s` in the environment `e`. -/
def State.withEnv (e : Env) (s : State) : State := { s with env := e }

theorem Accepted.withEnv (h : Accepted i s) (e : Env) : Accepted i (s.withEnv e) := h

/-- The command gives the response `x` whatever the environment of the block. -/
def AnswersAlways (i : Instr) (s : State) (x : Response) : Prop :=
  ∀ e : Env, exec i (s.withEnv e) = .next ((s.withEnv e).respond x)

/-- A command that leaves the record of an unfaulted block alone has raised no fault. -/
theorem Accepted.not_raised (hacc : Accepted i s) (hblk : t.blk = s.blk) (w : CmdWord) (code : FaultCode) :
    t ≠ s.raiseFault w code := by
  rintro rfl
  have hf : (s.raiseFault w code).blk.faulted = false := hblk ▸ hacc.1
  cases hf

/-- A query of a reader, for one that exists and is attached (R181). -/
theorem answersAlways_of_checkReader (r : Nat) (x : Response) (hacc : Accepted i s) (hblk : t.blk = s.blk)
    (hexec : ∀ e, exec i (s.withEnv e) =
      accept i (s.withEnv e) (checkReader i r (s.withEnv e) (.next ((s.withEnv e).respond x))))
    (h : exec i s = .next t) : AnswersAlways i s x := by
  have hrule : checkReader i r s (.next (s.respond x)) = .next t :=
    calc checkReader i r s (.next (s.respond x)) = accept i s (checkReader i r s (.next (s.respond x))) :=
          (accept_of_accepted hacc).symm
      _ = exec i s := (hexec s.env).symm
      _ = .next t := h
  obtain ⟨-, ht⟩ | ⟨-, -, ht⟩ | ⟨hr, hatt, -⟩ := checkReader_cases hrule
  · exact absurd ht (hacc.not_raised hblk _ _)
  · exact absurd ht (hacc.not_raised hblk _ _)
  · intro e
    rw [hexec, accept_of_accepted (hacc.withEnv e)]
    exact checkReader_of_attached hr hatt

/-- A command that only answers reads nothing of the environment. -/
theorem answersAlways_of_query (hi : (∃ r, i = .count r) ∨ (∃ r, i = .drops r) ∨ i = .ready ∨ ∃ l, i = .copyfft l)
    (hacc : Accepted i s) (h : exec i s = .next t) (hblk : t.blk = s.blk) : ∃ x, AnswersAlways i s x := by
  obtain ⟨r, rfl⟩ | ⟨r, rfl⟩ | rfl | ⟨l, rfl⟩ := hi
  · exact ⟨_, answersAlways_of_checkReader r.toNat (.num 16 (s.rb.reader r.toNat).cnt) hacc hblk (fun _ => rfl) h⟩
  · exact ⟨_, answersAlways_of_checkReader r.toNat (.num s.cfg.rbDropW (s.rb.reader r.toNat).drops) hacc hblk
      (fun _ => rfl) h⟩
  · exact ⟨.bool (!s.inFlight), fun e => accept_of_accepted (hacc.withEnv e)⟩
  · by_cases hl : u32 l = 2 * s.cfg.seN
    · exact ⟨.words s.exportWork, fun e => (accept_of_accepted (hacc.withEnv e)).trans (if_neg (not_not.2 hl))⟩
    · have hraise : exec (.copyfft l) s = raise (.copyfft l) .copySize s := (accept_of_accepted hacc).trans (if_pos hl)
      exact absurd (Host.Outcome.next.inj (h.symm.trans hraise)) (hacc.not_raised hblk _ _)

end

/-- Settles O58: the first response is the one that the command gives in every environment, the second one's among them. -/
theorem readsAreIdempotent : Obligations.ReadsAreIdempotent := by
  intro i s t hi hacc h hblk
  obtain ⟨x, hx⟩ := answersAlways_of_query hi hacc h hblk
  obtain rfl : s.respond x = t := Host.Outcome.next.inj ((hx s.env).symm.trans h)
  exact ⟨⟨rfl, rfl, rfl, rfl, rfl, rfl⟩, x, _, rfl, hx (s.respond x).env, ⟨rfl, rfl, rfl, rfl, rfl, rfl⟩, rfl⟩

end Sys2Proof.Machine

namespace Sys2Proof.Machine

/-! ### The fields of a command word (R141) -/

section
variable (u op : BitVec 4) (sel : BitVec 8)

@[simp] theorem unit_fields : CmdWord.unit (u ++ op ++ sel) = u :=
  calc (u ++ op ++ sel).extractLsb' 12 4 = (u ++ op).extractLsb' 4 4 := BitVec.extractLsb'_append_eq_of_le (by decide)
    _ = u := BitVec.extractLsb'_append_eq_left

@[simp] theorem op_fields : CmdWord.op (u ++ op ++ sel) = op :=
  calc (u ++ op ++ sel).extractLsb' 8 4 = (u ++ op).extractLsb' 0 4 := BitVec.extractLsb'_append_eq_of_le (by decide)
    _ = op := BitVec.extractLsb'_append_eq_right

@[simp] theorem sel_fields : CmdWord.sel (u ++ op ++ sel) = sel :=
  BitVec.extractLsb'_append_eq_right

end

/-- A command word is its three fields, so a statement about every word is one about every choice of them. -/
theorem exists_fields (w : CmdWord) : ∃ (u op : BitVec 4) (sel : BitVec 8), w = u ++ op ++ sel := by
  refine ⟨CmdWord.unit w, CmdWord.op w, CmdWord.sel w, ?_⟩
  have hhigh : CmdWord.unit w ++ CmdWord.op w = w.extractLsb' 8 8 :=
    BitVec.extractLsb'_append_extractLsb'_eq_extractLsb' rfl
  rw [hhigh]
  exact (BitVec.extractLsb'_append_extractLsb' (w := 8) (len := 8)).symm

theorem unit_cases (u : BitVec 4) : u = 0#4 ∨ u = 1#4 ∨ u = 2#4 ∨ 3 ≤ u.toNat := by bv_omega

/-! ### The decoder, unit by unit (R143 to R147) -/

section
variable (c : Config) (op : BitVec 4) (sel : BitVec 8) (ops : Nat)

theorem decode_rb : decode c ⟨0#4 ++ op ++ sel, ops⟩ = decodeRb c op sel ops := by simp [decode]

theorem decode_se :
    decode c ⟨1#4 ++ op ++ sel, ops⟩ = if sel = 0 then decodeSe c op ops else .illegal .selNotZero := by
  simp [decode]

theorem decode_fb :
    decode c ⟨2#4 ++ op ++ sel, ops⟩ =
      if op = 7 then .instr (.setpal sel (operandField 16 0 ops))
      else if sel = 0 then decodeFb op ops else .illegal .selNotZero := by
  simp [decode]

theorem decode_reservedUnit {u : BitVec 4} (hu : 3 ≤ u.toNat) :
    decode c ⟨u ++ op ++ sel, ops⟩ = .illegal .reservedUnit := by
  rw [decode, unit_fields]
  split
  case h_4 => rfl
  all_goals omega

end

/-! ### The operand tuple (R148, assumption 7) -/

section
variable {w : Nat} (v : BitVec w)

/-- A field is read back from the lowest bits, whatever lies above it. -/
theorem ofNat_add_mul (k : Nat) : BitVec.ofNat w (v.toNat + 2 ^ w * k) = v := by
  apply BitVec.eq_of_toNat_eq
  rw [BitVec.toNat_ofNat, Nat.add_mul_mod_self_left, Nat.mod_eq_of_lt v.isLt]

theorem add_mul_shiftRight (k : Nat) : (v.toNat + 2 ^ w * k) >>> w = k := by
  rw [Nat.shiftRight_eq_div_pow, Nat.add_mul_div_left _ _ (Nat.two_pow_pos w), Nat.div_eq_of_lt v.isLt, Nat.zero_add]

@[simp] theorem operandField_toNat : operandField w 0 v.toNat = v := ofNat_add_mul v 0

/-- The first field of a tuple lies in its lowest bits. -/
@[simp] theorem operandField_packFields_head (rest : List (Nat × Nat)) :
    operandField w 0 (packFields ((w, v.toNat) :: rest)) = v := ofNat_add_mul v (packFields rest)

/-- Past its first field, a tuple reads as the rest of it. -/
@[simp] theorem packFields_shiftRight {lo : Nat} (h : w ≤ lo) (rest : List (Nat × Nat)) :
    packFields ((w, v.toNat) :: rest) >>> lo = packFields rest >>> (lo - w) := by
  obtain ⟨k, rfl⟩ := Nat.exists_eq_add_of_le h
  rw [Nat.add_sub_cancel_left, Nat.shiftRight_add, packFields, add_mul_shiftRight]

@[simp] theorem operandField_packFields_tail {n lo : Nat} (h : w ≤ lo) (rest : List (Nat × Nat)) :
    operandField n lo (packFields ((w, v.toNat) :: rest)) = operandField n (lo - w) (packFields rest) :=
  congrArg (BitVec.ofNat n) (packFields_shiftRight v h rest)

end

theorem unpackBytes_packBytes (data : List Byte) : unpackBytes data.length (packBytes data) = data := by
  induction data with
  | nil => rfl
  | cons b rest ih =>
    have hpack : packBytes (b :: rest) = b.toNat + 2 ^ 8 * packBytes rest := rfl
    rw [hpack, List.length_cons, unpackBytes, ofNat_add_mul, add_mul_shiftRight, ih]

/-! ### Decoding what the encoder writes (R153, R157) -/

theorem decodeFb_blit {x y bw bh : BitVec 16} {data : List Byte} (h : data.length = bw.toNat * bh.toNat) :
    decodeFb 5#4 (Instr.blit x y bw bh data).operandBits = .instr (.blit x y bw bh data) := by
  have hdata : packFields [(8 * data.length, packBytes data)] = packBytes data := by simp [packFields]
  simp [decodeFb, Instr.operandBits, hdata, ← h, unpackBytes_packBytes]

/-- Settles O1: the fields of each command's word select its row of the decoder, and the operand tuple is read back
field by field; the checks of presence and of widths that remain are the command's well-formedness. -/
theorem decodeOfEncodeIsInstruction : Obligations.DecodeOfEncodeIsInstruction := by
  intro c i hwf
  obtain ⟨hpresent, hfit⟩ := Bool.and_eq_true_iff.mp hwf
  cases i with
  | append v =>
    have hv : v.toNat < 2 ^ c.rbTw := of_decide_eq_true hfit
    exact (decode_rb c 0#4 0#8 v.toNat).trans (by simp [decodeRb, Nat.mod_eq_of_lt hv])
  | attach r => exact decode_rb c 1#4 r 0
  | count r => exact decode_rb c 2#4 r 0
  | read r => exact decode_rb c 3#4 r 0
  | consume r => exact decode_rb c 4#4 r 0
  | drops r => exact (decode_rb c 5#4 r 0).trans (if_pos hpresent)
  | feed re im => exact (decode_se c 0#4 0#8 _).trans (by simp [decodeSe, Instr.operandBits])
  | compute => rfl
  | postprocess => exact (decode_se c 2#4 0#8 0).trans (if_neg (of_decide_eq_true hpresent))
  | copyfft l => exact (decode_se c 3#4 0#8 _).trans (by simp [decodeSe, Instr.operandBits])
  | clear => rfl
  | pixel x y k => exact (decode_fb c 1#4 0#8 _).trans (by simp [decodeFb, Instr.operandBits])
  | hline x y len k => exact (decode_fb c 2#4 0#8 _).trans (by simp [decodeFb, Instr.operandBits])
  | vline x y len k => exact (decode_fb c 3#4 0#8 _).trans (by simp [decodeFb, Instr.operandBits])
  | circle xc yc rad k => exact (decode_fb c 4#4 0#8 _).trans (by simp [decodeFb, Instr.operandBits])
  | blit x y bw bh data => exact (decode_fb c 5#4 0#8 _).trans (decodeFb_blit (of_decide_eq_true hfit))
  | vscroll => rfl
  | setpal k col => exact (decode_fb c 7#4 k _).trans (by simp [Instr.operandBits])
  | update => rfl
  | ready => rfl

/-- Settles O4 from the round trip: the first seven packets are the encoder's, and the last one's unit is reserved. -/
theorem wordsOfTheOpcodeMapDecode : Obligations.WordsOfTheOpcodeMapDecode :=
  ⟨decodeOfEncodeIsInstruction _ (.append 0x40A00000#64) (by decide), decodeOfEncodeIsInstruction _ (.read 1#8) rfl,
    decodeOfEncodeIsInstruction _ (.feed 0x3F000000#32 0x3F800000#32) rfl,
    decodeOfEncodeIsInstruction _ (.copyfft 8#32) rfl,
    decodeOfEncodeIsInstruction _ (.pixel 0xFFFF#16 0#16 2#8) rfl,
    decodeOfEncodeIsInstruction _ (.setpal 254#8 0xF800#16) rfl,
    decodeOfEncodeIsInstruction _ .update rfl, decode_reservedUnit _ 0#4 0#8 0 (u := 3#4) (by decide)⟩

/-! ### What the decoder accepts (R151, R153) -/

/-- The bits that a field's value names. -/
theorem eq_ofNat_of_toNat {w n : Nat} {v : BitVec w} (h : v.toNat = n) : v = BitVec.ofNat w n := by
  rw [← h, BitVec.ofNat_toNat, BitVec.setWidth_eq]

section
variable {c : Config} {op : BitVec 4} {sel : BitVec 8} {ops : Nat} {i : Instr}

theorem decodeRb_instr (h : decodeRb c op sel ops = .instr i) :
    i.word = 0#4 ++ op ++ sel ∧ i.present c = true := by
  unfold decodeRb at h
  split at h
  case h_1 hop =>
    split_ifs at h with hsel
    cases h
    rw [eq_ofNat_of_toNat hop, hsel]
    exact ⟨rfl, rfl⟩
  case h_6 hop =>
    split_ifs at h with hdrops
    cases h
    rw [eq_ofNat_of_toNat hop]
    exact ⟨rfl, hdrops⟩
  case h_7 => cases h
  all_goals
    rename_i hop
    cases h
    rw [eq_ofNat_of_toNat hop]
    exact ⟨rfl, rfl⟩

theorem decodeSe_instr (h : decodeSe c op ops = .instr i) : i.word = 1#4 ++ op ++ 0#8 ∧ i.present c = true := by
  unfold decodeSe at h
  split at h
  case h_3 hop =>
    split_ifs at h with hvariant
    cases h
    rw [eq_ofNat_of_toNat hop]
    exact ⟨rfl, decide_eq_true hvariant⟩
  case h_5 => cases h
  all_goals
    rename_i hop
    cases h
    rw [eq_ofNat_of_toNat hop]
    exact ⟨rfl, rfl⟩

theorem decodeFb_instr (c : Config) (h : decodeFb op ops = .instr i) :
    i.word = 2#4 ++ op ++ 0#8 ∧ i.present c = true := by
  unfold decodeFb at h
  split at h <;> cases h
  all_goals
    rename_i hop
    rw [eq_ofNat_of_toNat hop]
    exact ⟨rfl, rfl⟩

/-- A word that decodes is that of the command it stands for, which the configuration has. -/
theorem decode_instr {p : Packet} (h : decode c p = .instr i) : i.word = p.word ∧ i.present c = true := by
  obtain ⟨w, ops⟩ := p
  obtain ⟨u, op, sel, rfl⟩ := exists_fields w
  obtain rfl | rfl | rfl | hu := unit_cases u
  · rw [decode_rb] at h
    exact decodeRb_instr h
  · rw [decode_se] at h
    split_ifs at h with hsel
    subst hsel
    exact decodeSe_instr h
  · rw [decode_fb] at h
    split_ifs at h with hop hsel
    · subst hop
      cases h
      exact ⟨rfl, rfl⟩
    · subst hsel
      exact decodeFb_instr c h
  · rw [decode_reservedUnit c op sel ops hu] at h
    cases h

/-- Settles O2: each row of the decoder fixes the unit, the `OP` and, where the command does not use it, the `SEL` of
the word; presence and widths are checked in the row. -/
theorem decodedCommandHasThePacketsWord : Obligations.DecodedCommandHasThePacketsWord := by
  intro c p i h
  obtain ⟨hword, hpresent⟩ := decode_instr h
  exact ⟨hword, Bool.and_eq_true_iff.mpr ⟨hpresent, decode_operandsFit h⟩⟩

end

/-! ### Which words are illegal (R151) -/

theorem eq_zero_iff_toNat (sel : BitVec 8) : sel = 0 ↔ sel.toNat = 0 := BitVec.toNat_inj.symm

/-- A choice rejects where the alternative taken does. -/
theorem ite_illegal {p : Prop} [Decidable p] (d e : Decoded) :
    (∃ why, (if p then d else e) = .illegal why) ↔
      (p ∧ ∃ why, d = .illegal why) ∨ (¬ p ∧ ∃ why, e = .illegal why) := by
  split_ifs with hp <;> simp [hp]

section
variable (c : Config) (op : BitVec 4) (sel : BitVec 8) (ops : Nat)

theorem decodeRb_illegal_iff : (∃ why, decodeRb c op sel ops = .illegal why) ↔
    6 ≤ op.toNat ∨ (op.toNat = 5 ∧ c.rbHasDrops = false) ∨ (op.toNat = 0 ∧ sel ≠ 0) := by
  unfold decodeRb
  split
  case h_7 =>
    have hop : 6 ≤ op.toNat := by
      simp only [imp_false] at *
      omega
    simp [hop]
  all_goals
    rename_i hop
    simp [hop, ite_illegal]

theorem decodeSe_illegal_iff : (∃ why, decodeSe c op ops = .illegal why) ↔
    4 ≤ op.toNat ∨ (op.toNat = 2 ∧ c.seVariant = .none) := by
  unfold decodeSe
  split
  case h_5 =>
    have hop : 4 ≤ op.toNat := by
      simp only [imp_false] at *
      omega
    simp [hop]
  all_goals
    rename_i hop
    simp [hop, ite_illegal]

theorem decodeFb_illegal_iff : (∃ why, decodeFb op ops = .illegal why) ↔ 10 ≤ op.toNat ∨ op.toNat = 7 := by
  unfold decodeFb
  split
  case h_10 =>
    have hop : 10 ≤ op.toNat ∨ op.toNat = 7 := by
      simp only [imp_false] at *
      omega
    simp [hop]
  all_goals
    rename_i hop
    simp [hop]

theorem decode_rb_illegal_iff : (∃ why, decode c ⟨0#4 ++ op ++ sel, ops⟩ = .illegal why) ↔
    6 ≤ op.toNat ∨ (op.toNat = 5 ∧ c.rbHasDrops = false) ∨ (op.toNat = 0 ∧ sel.toNat ≠ 0) := by
  rw [decode_rb, decodeRb_illegal_iff, Ne, eq_zero_iff_toNat]

theorem decode_se_illegal_iff : (∃ why, decode c ⟨1#4 ++ op ++ sel, ops⟩ = .illegal why) ↔
    4 ≤ op.toNat ∨ (op.toNat = 2 ∧ c.seVariant = .none) ∨ sel.toNat ≠ 0 := by
  rw [decode_se, ite_illegal, decodeSe_illegal_iff, eq_zero_iff_toNat]
  simp only [Decoded.illegal.injEq, exists_eq', and_true]
  tauto

theorem decode_fb_illegal_iff : (∃ why, decode c ⟨2#4 ++ op ++ sel, ops⟩ = .illegal why) ↔
    10 ≤ op.toNat ∨ (op.toNat ≠ 7 ∧ sel.toNat ≠ 0) := by
  have hop : op = 7 ↔ op.toNat = 7 := BitVec.toNat_inj.symm
  rw [decode_fb, ite_illegal, ite_illegal, decodeFb_illegal_iff, eq_zero_iff_toNat, hop]
  simp only [reduceCtorEq, exists_false, and_false, false_or, Decoded.illegal.injEq, exists_eq', and_true]
  omega

end

/-- An illegal word is rejected before any command runs (R344). -/
theorem issue_of_illegal {s : State} {p : Packet} {why : IllegalWord} (hf : s.blk.faulted = false)
    (hp : decode s.cfg p = .illegal why) : issue p s = .next (s.rejectWord p.word) := by
  simp [issue, hf, hp]

/-- Settles O3: the decoder's rejections, collected unit by unit; command entry raises the fault for each of them. -/
theorem illegalWordsFault : Obligations.IllegalWordsFault := by
  refine ⟨?_, ?_⟩
  · rintro c ⟨w, ops⟩
    obtain ⟨u, op, sel, rfl⟩ := exists_fields w
    have hunit : (u ++ op ++ sel).extractLsb' 12 4 = u := unit_fields u op sel
    have hop : (u ++ op ++ sel).extractLsb' 8 4 = op := op_fields u op sel
    have hsel : (u ++ op ++ sel).extractLsb' 0 8 = sel := sel_fields u op sel
    simp only [hunit, hop, hsel]
    obtain rfl | rfl | rfl | hu := unit_cases u
    · rw [decode_rb_illegal_iff]
      simp
    · rw [decode_se_illegal_iff]
      simp
    · rw [decode_fb_illegal_iff]
      simp
    · rw [decode_reservedUnit c op sel ops hu]
      simp [hu]
  · intro p s why hf hp
    exact ⟨s.rejectWord p.word, issue_of_illegal hf hp, rfl, rfl, rfl, rfl, rfl, rfl⟩

end Sys2Proof.Machine

namespace Sys2Proof.Machine

/-! ### The checks of the reader commands (R181, R112) -/

/-- Port `r` exists, its reader is attached and no burst is in progress on it, in a block that is not faulted: what the
rules of COUNT, READ, CONSUME and DROPS find. -/
structure ReaderReady (r : Nat) (s : State) : Prop where
  unfaulted : s.blk.faulted = false
  port_lt : r < s.cfg.rbR
  free : (s.rb.reader r).br = 0
  att : (s.rb.reader r).att = true

section
variable {i : Instr} {r : Nat} {s : State}

theorem portBusy_of_free (hbr : (s.rb.reader r).br = 0) : s.portBusy r = false := by
  simp [State.portBusy, hbr]

theorem portBusy_of_absent (hr : s.cfg.rbR ≤ r) : s.portBusy r = false := by
  simp [State.portBusy, hr]

/-- A reader's command passes command entry where its port is not busy. -/
theorem accepted_of_not_busy (hf : s.blk.faulted = false) (hp : i.present s.cfg = true) (hi : i.reader? = some r)
    (hbusy : s.portBusy r = false) : Accepted i s :=
  ⟨hf, hp, by simpa [heldIn, hi] using hbusy⟩

theorem ReaderReady.accepted (h : ReaderReady r s) (hp : i.present s.cfg = true) (hi : i.reader? = some r) :
    Accepted i s :=
  accepted_of_not_busy h.unfaulted hp hi (portBusy_of_free h.free)

/-- A reader's command is held while its port is busy (R112). -/
theorem exec_of_busy (hf : s.blk.faulted = false) (hp : i.present s.cfg = true) (hi : i.reader? = some r)
    (hr : r < s.cfg.rbR) (hbr : 0 < (s.rb.reader r).br) : exec i s = .next s.hold :=
  exec_of_held hf hp (heldIn_iff.2 ⟨r, hi, hr, hbr⟩)

/-- Every reader's command but ATTACH begins with `check_reader`. -/
theorem exec_eq_checkReader (hi : i.reader? = some r) (hattach : ∀ n, i ≠ .attach n) (s : State) :
    ∃ rule, exec i s = accept i s (checkReader i r s rule) := by
  cases i with
  | attach n => exact absurd rfl (hattach n)
  | count n | read n | consume n | drops n => cases hi; exact ⟨_, rfl⟩
  | _ => cases hi

/-- The range check, which ATTACH has too. -/
theorem exec_of_badReader (hf : s.blk.faulted = false) (hp : i.present s.cfg = true) (hi : i.reader? = some r)
    (hr : s.cfg.rbR ≤ r) : exec i s = .next (s.raiseFault i.word .badReader) := by
  have hacc : Accepted i s := accepted_of_not_busy hf hp hi (portBusy_of_absent hr)
  by_cases hattach : ∃ n, i = .attach n
  · obtain ⟨n, rfl⟩ := hattach
    cases hi
    exact (accept_of_accepted hacc).trans (if_pos hr)
  · obtain ⟨rule, hrule⟩ := exec_eq_checkReader hi (not_exists.1 hattach) s
    rw [hrule, accept_of_accepted hacc]
    exact if_pos hr

theorem exec_of_notAttached (hf : s.blk.faulted = false) (hp : i.present s.cfg = true) (hi : i.reader? = some r)
    (hattach : ∀ n, i ≠ .attach n) (hr : r < s.cfg.rbR) (hbr : (s.rb.reader r).br = 0)
    (hatt : (s.rb.reader r).att = false) : exec i s = .next (s.raiseFault i.word .notAttached) := by
  obtain ⟨rule, hrule⟩ := exec_eq_checkReader hi hattach s
  rw [hrule, accept_of_accepted (accepted_of_not_busy hf hp hi (portBusy_of_free hbr))]
  simp [checkReader, Nat.not_le.2 hr, hatt, raise]

end

/-! ### Each reader command past its checks (R189 to R199) -/

section
variable {r : BitVec 8} {s : State}

theorem exec_attach (hf : s.blk.faulted = false) (hr : r.toNat < s.cfg.rbR) (hbr : (s.rb.reader r.toNat).br = 0) :
    exec (.attach r) s =
      .next ({ s with rb := s.rb.onReader r.toNat (Reader.attached (rbParams s.cfg)) }.respond .ack) :=
  (accept_of_accepted (accepted_of_not_busy hf rfl rfl (portBusy_of_free hbr))).trans (if_neg (not_le.2 hr))

/-- Past `check_reader`, the command's own rule decides. -/
theorem exec_of_ready {i : Instr} {rule : Result} (h : ReaderReady r.toNat s) (hp : i.present s.cfg = true)
    (hi : i.reader? = some r.toNat) (hexec : exec i s = accept i s (checkReader i r.toNat s rule)) :
    exec i s = rule :=
  hexec.trans ((accept_of_accepted (h.accepted hp hi)).trans (checkReader_of_attached h.port_lt h.att))

theorem exec_count (h : ReaderReady r.toNat s) :
    exec (.count r) s = .next (s.respond (.num 16 (s.rb.reader r.toNat).cnt)) :=
  exec_of_ready h rfl rfl rfl

theorem exec_drops (h : ReaderReady r.toNat s) (hdrops : s.cfg.rbHasDrops = true) :
    exec (.drops r) s = .next (s.respond (.num s.cfg.rbDropW (s.rb.reader r.toNat).drops)) :=
  exec_of_ready h hdrops rfl rfl

theorem exec_read_empty (h : ReaderReady r.toNat s) (hcnt : (s.rb.reader r.toNat).cnt = 0) :
    exec (.read r) s = .next (s.raiseFault (0x03#8 ++ r) .readEmpty) :=
  (exec_of_ready h rfl rfl rfl).trans (if_pos hcnt)

/-- Reader `r`'s oldest unread element is the answer, and is removed (R193). -/
def State.takeOldest (r : Nat) (s : State) : State :=
  { s with rb := s.rb.dropOldest r }.respond (.val (s.oldest r))

theorem reader_takeOldest {r : Nat} (hr : r < s.rb.readers.length) :
    (s.takeOldest r).rb.reader r = { s.rb.reader r with cnt := (s.rb.reader r).cnt - 1 } :=
  Ring.reader_dropOldest_same _ _ hr

theorem exec_read (h : ReaderReady r.toNat s) (hcnt : (s.rb.reader r.toNat).cnt ≠ 0) :
    exec (.read r) s = .next (s.takeOldest r.toNat) :=
  (exec_of_ready h rfl rfl rfl).trans (if_neg hcnt)

/-- Reader `r`'s port asks for everything that is pending (R195). -/
def State.startBurst (r : Nat) (s : State) : State :=
  { s with rb := s.rb.onReader r fun q => { q with br := (s.rb.reader r).cnt } }

theorem reader_startBurst {r : Nat} (hr : r < s.rb.readers.length) :
    (s.startBurst r).rb.reader r = { s.rb.reader r with br := (s.rb.reader r).cnt } :=
  Ring.reader_onReader_same _ _ _ hr

theorem exec_consume_empty (h : ReaderReady r.toNat s) (hcnt : (s.rb.reader r.toNat).cnt = 0) :
    exec (.consume r) s = .next ((s.startBurst r.toNat).respond (.burst 0 [])) :=
  (exec_of_ready h rfl rfl rfl).trans (if_pos hcnt)

theorem exec_consume (h : ReaderReady r.toNat s) (hcnt : (s.rb.reader r.toNat).cnt ≠ 0) :
    exec (.consume r) s =
      .next ((s.startBurst r.toNat).beginWork (.burst r.toNat (s.rb.reader r.toNat).cnt [])) :=
  (exec_of_ready h rfl rfl rfl).trans (if_neg hcnt)

end

/-! ### What a change of one port leaves alone -/

theorem onlyReader_of_onReader {s t : State} {r : Nat} {f : Reader → Reader} (ht : t.rb = s.rb.onReader r f) :
    OnlyReader r s t := by
  rw [OnlyReader, ht]
  exact ⟨rfl, Ring.onReader_length .., fun q hq => Ring.reader_onReader_other _ _ _ _ hq⟩

/-! ### The reader commands, outcome by outcome -/

/-- Settles O28: `check_reader` stands before every rule but ATTACH's, which only tests the range. -/
theorem readerChecksInOrder : Obligations.ReaderChecksInOrder := by
  intro i r s hf hp hi
  refine ⟨exec_of_badReader hf hp hi, fun hr hbr hatt =>
    ⟨fun hattach => exec_of_notAttached hf hp hi hattach hr hbr hatt, ?_⟩⟩
  rintro n t rfl h
  cases hi
  rw [exec_attach hf hr hbr] at h
  cases h
  rfl

/-- Settles O22: `BR` is not written, and is 0 where the command is not held. -/
theorem attachClearsTheReader : Obligations.AttachClearsTheReader := by
  intro r s hf
  refine ⟨exec_of_badReader (i := .attach r) hf rfl rfl, exec_of_busy hf rfl rfl, fun hr hports hbr =>
    ⟨_, exec_attach hf hr hbr, rfl, ⟨rfl, rfl, rfl, rfl, rfl⟩, rfl, onlyReader_of_onReader rfl, ?_⟩⟩
  rw [State.respond_rb, Ring.reader_onReader_same _ _ _ (hports ▸ hr)]
  rw [Reader.attached, hbr]
  rfl

/-- Settles O23: the checks, then an answer that reads the port only. -/
theorem countAnswersThePendingCount : Obligations.CountAnswersThePendingCount := by
  intro r s hf
  exact ⟨exec_of_badReader (i := .count r) hf rfl rfl, exec_of_busy hf rfl rfl,
    exec_of_notAttached (i := .count r) hf rfl rfl nofun,
    fun hr hbr hatt => ⟨_, exec_count ⟨hf, hr, hbr, hatt⟩, ⟨rfl, rfl, rfl, rfl, rfl, rfl⟩, rfl⟩⟩

/-- Settles O27: without counters the configuration does not have the command. -/
theorem dropsAnswersTheCounter : Obligations.DropsAnswersTheCounter := by
  intro r s hf
  refine ⟨exec_of_absent (i := .drops r) hf, fun hdrops => ?_⟩
  exact ⟨exec_of_badReader (i := .drops r) hf hdrops rfl, exec_of_busy hf hdrops rfl,
    exec_of_notAttached (i := .drops r) hf hdrops rfl nofun,
    fun hr hbr hatt => ⟨_, exec_drops ⟨hf, hr, hbr, hatt⟩ hdrops, ⟨rfl, rfl, rfl, rfl, rfl, rfl⟩, rfl⟩⟩

/-- Settles O24: the checks, then READ's own one, then the effect on the one port. -/
theorem readRemovesTheOldest : Obligations.ReadRemovesTheOldest := by
  intro r s hf hports
  exact ⟨exec_of_badReader (i := .read r) hf rfl rfl, exec_of_busy hf rfl rfl,
    exec_of_notAttached (i := .read r) hf rfl rfl nofun,
    fun hr hbr hatt => exec_read_empty ⟨hf, hr, hbr, hatt⟩,
    fun hr hbr hatt hcnt => ⟨_, exec_read ⟨hf, hr, hbr, hatt⟩ hcnt.ne', rfl, ⟨rfl, rfl, rfl, rfl, rfl⟩, rfl,
      onlyReader_of_onReader rfl, reader_takeOldest (hports.symm ▸ hr)⟩⟩

/-- Settles O25: the port is the same whether or not something is pending; the environment tells the cases apart. -/
theorem consumeStartsABurst : Obligations.ConsumeStartsABurst := by
  intro r s hf hports
  refine ⟨exec_of_badReader (i := .consume r) hf rfl rfl, exec_of_busy hf rfl rfl,
    exec_of_notAttached (i := .consume r) hf rfl rfl nofun, fun hr hbr hatt => ?_⟩
  have hready : ReaderReady r.toNat s := ⟨hf, hr, hbr, hatt⟩
  have hport := reader_startBurst (hports.symm ▸ hr)
  by_cases hcnt : (s.rb.reader r.toNat).cnt = 0
  · exact ⟨_, exec_consume_empty hready hcnt, ⟨rfl, rfl, rfl, rfl, rfl⟩, rfl, onlyReader_of_onReader rfl, hport,
      fun _ => rfl, fun hpos => absurd hcnt hpos.ne'⟩
  · exact ⟨_, exec_consume hready hcnt, ⟨rfl, rfl, rfl, rfl, rfl⟩, rfl, onlyReader_of_onReader rfl, hport,
      fun hzero => absurd hzero hcnt, fun _ => rfl⟩

end Sys2Proof.Machine

namespace Sys2Proof.Machine

/-! ### The beat (R196) -/

theorem beatEnabled_iff {s : State} {r : Nat} :
    s.beatEnabled r = true ↔ s.blk.faulted = false ∧ 0 < (s.rb.reader r).br := by
  simp [State.beatEnabled]

theorem beat_of_disabled {s : State} {r : Nat} (h : s.beatEnabled r ≠ true) : s.beat r = s := if_neg h

theorem beat_of_enabled {s : State} {r : Nat} (h : s.beatEnabled r = true) :
    s.beat r = { s with rb := s.rb.onReader r Reader.afterBeat }.onAgents
      (Agent.deliver r (s.oldest r) (decide ((s.rb.reader r).br = 1))) := if_pos h

theorem reader_beat {s : State} {r : Nat} (h : s.beatEnabled r = true) :
    (s.beat r).rb.reader r = (s.rb.reader r).afterBeat := by
  rw [beat_of_enabled h]
  exact Ring.reader_onReader_same _ _ _ (Ring.lt_of_br_pos (beatEnabled_iff.1 h).2)

/-- A beat gives the agent of the burst the oldest element, and the end marker with the last one. -/
theorem agents_beat_of_burst {s : State} {r j k : Nat} {vs : List Elem} {a : Agent} (h : s.beatEnabled r = true)
    (ha : s.env.agents[j]? = some a) (hw : a.work = .burst r k vs) :
    (s.beat r).env.agents[j]? = some
      (if (s.rb.reader r).br = 1 then { a with work := .idle, inbox := a.inbox ++ [.burst k (vs ++ [s.oldest r])] }
        else { a with work := .burst r k (vs ++ [s.oldest r]) }) := by
  rw [State.agents_beat s j r h, ha, Option.map_some, Agent.deliver_of_burst a _ _ hw]
  simp only [decide_eq_true_eq]

/-- Settles O26: an enabled beat modifies port `r`, and each agent by whether its burst is on reader `r`. -/
theorem beatDeliversTheOldest : Obligations.BeatDeliversTheOldest := by
  intro r s
  refine ⟨fun hoff => beat_of_disabled fun h => ?_, fun hf hbr => ?_⟩
  · obtain ⟨hf, hbr⟩ := beatEnabled_iff.1 h
    exact hoff.elim (fun hfaulted => by simp [hf] at hfaulted) hbr.ne'
  · have h : s.beatEnabled r = true := beatEnabled_iff.2 ⟨hf, hbr⟩
    have hframe := beat_of_enabled h
    refine ⟨?_, by rw [hframe]; rfl, onlyReader_of_onReader (by rw [hframe]; rfl), reader_beat h, by rw [hframe]; rfl,
      fun j a ha => ⟨fun k vs hw => agents_beat_of_burst h ha hw, fun hother => ?_⟩⟩
    · rw [hframe]
      exact ⟨rfl, rfl, rfl, rfl, rfl⟩
    · rw [State.agents_beat s j r h, ha, Option.map_some, Agent.deliver_of_other a _ _ hother]

end Sys2Proof.Machine

namespace Sys2Proof.Machine

/-! ### APPEND (R185, R186) -/

/-- Settles O21: APPEND is never held and never faults, and treats every port alike. -/
theorem appendWritesCountsAndAdvances : Obligations.AppendWritesCountsAndAdvances := by
  intro v s hf
  refine ⟨_, exec_append hf v, rfl, ⟨rfl, rfl, rfl, rfl, rfl⟩, fun i => s.rbElem_setRbElem s.rb.wr i v, rfl,
    Ring.append_length .., fun r => ?_⟩
  rw [State.respond_rb, State.appendElem_rb, Ring.reader_append]
  rfl

/-- An APPEND that finds a reader full moves its read position to the element after the one overwritten. -/
theorem Ring.readAddr_append_full {p : RingParams} {g : Ring} {r : Nat} (hfull : (g.reader r).cnt = p.cap) :
    (g.append p).readAddr p.cap r = (g.readAddr p.cap r + 1) % p.cap := by
  have hcnt : ((g.append p).reader r).cnt = p.cap := by
    rw [Ring.reader_append, Reader.onAppend_cnt, if_neg (by omega), hfull]
  rw [Ring.readAddr_eq _ _ hcnt.le, Ring.readAddr_eq _ _ hfull.le, hcnt, hfull, Nat.sub_self, Nat.add_zero,
    Nat.add_zero, Ring.append_wr, Nat.mod_mod, Nat.mod_add_mod]

/-- An APPEND that finds a reader full takes the oldest element of its queue (R186). -/
theorem pending_appendElem_full {s : State} {r : Nat} (h : RbInv s) (v : Elem) (hatt : (s.rb.reader r).att = true)
    (hfull : (s.rb.reader r).cnt = s.cfg.rbN) : (s.appendElem v).pending r = (s.pending r).tail ++ [v] := by
  have hone : (s.pending r).length + 1 - s.cfg.rbN = 1 := by rw [State.pending_length]; omega
  have hpos : 1 ≤ (s.pending r).length := by rw [State.pending_length, hfull]; exact h.rbN_pos
  rw [pending_appendElem h v hatt, hone, List.drop_append_of_le_length hpos, List.drop_one]

/-- An APPEND that finds room adds to the queue (R185). -/
theorem pending_appendElem_room {s : State} {r : Nat} (h : RbInv s) (v : Elem) (hatt : (s.rb.reader r).att = true)
    (hroom : (s.rb.reader r).cnt < s.cfg.rbN) : (s.appendElem v).pending r = s.pending r ++ [v] := by
  have hzero : (s.pending r).length + 1 - s.cfg.rbN = 0 := by rw [State.pending_length]; omega
  rw [pending_appendElem h v hatt, hzero, List.drop_zero]

/-- Settles O31: by what APPEND makes of a full port and its queue, and of a port with room. -/
theorem overwriteOnFullDropsTheOldest : Obligations.OverwriteOnFullDropsTheOldest := by
  intro v s t r hb hf hatt hfull h
  rw [exec_append hf] at h
  cases h
  have hport : ∀ q, (s.appendElem v).rb.reader q = Reader.onAppend (rbParams s.cfg) (s.rb.reader q) :=
    fun q => Ring.reader_append ..
  simp only [State.respond_rb, State.pending_respond]
  refine ⟨rfl, ?_, Ring.readAddr_append_full hfull, pending_appendElem_full hb.rb v hatt hfull, fun hdrops => ?_,
    fun q _ hq hroom => ⟨pending_appendElem_room hb.rb v hq hroom, ?_⟩⟩
  · rw [hport, Reader.onAppend_cnt, if_neg fun hlt => hlt.2.ne hfull, hfull]
  · rw [hport, onAppend_full hdrops hatt hfull]
    rfl
  · rw [hport]
    simp [Reader.onAppend, hq, rbParams, hroom]

end Sys2Proof.Machine

namespace Sys2Proof.Machine

/-! ### A burst and as many READs (R197) -/

/-- A burst on reader `r` of `k` elements with `n` beats left, as long as no APPEND comes between: agent `j`, which is
`a` but for the burst, has been delivered `vs`, and just `n` elements are pending. -/
structure Bursting (r j k n : Nat) (a : Agent) (vs : List Elem) (s : State) : Prop where
  reading : Reading r s
  unfaulted : s.blk.faulted = false
  cnt : (s.rb.reader r).cnt = n
  br : (s.rb.reader r).br = n
  agent : s.env.agents[j]? = some { a with work := .burst r k vs }

namespace Bursting

variable {r j k n : Nat} {a : Agent} {vs : List Elem} {s : State}

theorem enabled (h : Bursting r j k (n + 1) a vs s) : s.beatEnabled r = true :=
  beatEnabled_iff.2 ⟨h.unfaulted, h.br ▸ n.succ_pos⟩

theorem pending (h : Bursting r j k (n + 1) a vs s) : s.pending r = s.oldest r :: (s.beat r).pending r :=
  (pending_beat h.reading.rb h.enabled).1

theorem beat_port (h : Bursting r j k (n + 1) a vs s) :
    ((s.beat r).rb.reader r).cnt = n ∧ ((s.beat r).rb.reader r).br = n := by
  rw [reader_beat h.enabled, Reader.afterBeat, h.cnt, h.br]
  exact ⟨rfl, rfl⟩

theorem beat (h : Bursting r j k (n + 2) a vs s) :
    Bursting r j k (n + 1) a (vs ++ [s.oldest r]) (s.beat r) where
  reading := h.reading.beat r
  unfaulted := by rw [beat_of_enabled h.enabled]; exact h.unfaulted
  cnt := h.beat_port.1
  br := h.beat_port.2
  agent := by rw [agents_beat_of_burst h.enabled h.agent rfl, if_neg (by rw [h.br]; omega)]

/-- The rest of the burst: the agent's one response holds what was pending after what had been delivered. -/
theorem beats (h : Bursting r j k (n + 1) a vs s) :
    ((beats r (n + 1) s).rb.reader r).cnt = 0 ∧ ((beats r (n + 1) s).rb.reader r).br = 0 ∧
      (beats r (n + 1) s).env.agents[j]? =
        some { a with work := .idle, inbox := a.inbox ++ [.burst k (vs ++ s.pending r)] } := by
  induction n generalizing s vs with
  | zero =>
    obtain ⟨hcnt, hbr⟩ := h.beat_port
    refine ⟨hcnt, hbr, ?_⟩
    rw [h.pending, pending_of_empty hcnt]
    exact (agents_beat_of_burst h.enabled h.agent rfl).trans (by rw [if_pos h.br])
  | succ n ih =>
    rw [h.pending, List.append_cons vs]
    exact ih h.beat

end Bursting

section
variable {s : State} {a : Agent} (ha : s.env.agents[s.env.issuer]? = some a)
include ha

theorem issuer_respond (x : Response) : (s.respond x).env.agents[s.env.issuer]? = some (a.answer x) := by
  rw [State.agents_respond, if_pos rfl, ha, Option.map_some]

theorem issuer_beginWork (w : Work) : (s.beginWork w).env.agents[s.env.issuer]? = some (a.begin w) := by
  rw [State.agents_beginWork, if_pos rfl, ha, Option.map_some]

/-- CONSUME with something pending begins a burst of all of it. -/
theorem bursting_of_startBurst {r : Nat} (hrb : RbInv s) (h : ReaderReady r s) :
    Bursting r s.env.issuer (s.rb.reader r).cnt (s.rb.reader r).cnt (a.begin (.burst r (s.rb.reader r).cnt [])) []
      ((s.startBurst r).beginWork (.burst r (s.rb.reader r).cnt [])) := by
  have hport := reader_startBurst (hrb.lt_ports h.port_lt)
  have hreading : Reading r (s.startBurst r) := Reading.onReader ⟨hrb, h.att⟩ r (hrb.reader r).consume id
  exact ⟨hreading.sameRb ⟨rfl, rfl, rfl, rfl⟩, h.unfaulted, by rw [State.beginWork_rb, hport],
    by rw [State.beginWork_rb, hport], issuer_beginWork (s := s.startBurst r) ha _⟩

/-- A CONSUME and as many beats as there are elements pending. -/
theorem consume_beats {r : BitVec 8} {t : State} (hrb : RbInv s) (h : ReaderReady r.toNat s) (hidle : a.work = .idle)
    (ht : exec (.consume r) s = .next t) :
    ((beats r.toNat (s.rb.reader r.toNat).cnt t).rb.reader r.toNat).cnt = 0 ∧
    ((beats r.toNat (s.rb.reader r.toNat).cnt t).rb.reader r.toNat).br = 0 ∧
    ∃ b, (beats r.toNat (s.rb.reader r.toNat).cnt t).env.agents[s.env.issuer]? = some b ∧ b.work = .idle ∧
      b.inbox = a.inbox ++ [.burst (s.rb.reader r.toNat).cnt (s.pending r.toNat)] := by
  by_cases hzero : (s.rb.reader r.toNat).cnt = 0
  · obtain rfl := Host.Outcome.next.inj ((exec_consume_empty h hzero).symm.trans ht)
    have hport := reader_startBurst (hrb.lt_ports h.port_lt)
    rw [pending_of_empty hzero, hzero]
    exact ⟨(congrArg Reader.cnt hport).trans hzero, (congrArg Reader.br hport).trans hzero, _,
      issuer_respond (s := s.startBurst r.toNat) ha _, hidle, rfl⟩
  · obtain rfl := Host.Outcome.next.inj ((exec_consume h hzero).symm.trans ht)
    have hstart := bursting_of_startBurst ha hrb h
    obtain ⟨n, hn⟩ := Nat.exists_eq_succ_of_ne_zero hzero
    rw [hn] at hstart ⊢
    obtain ⟨hcnt, hbr, hagent⟩ := hstart.beats
    refine ⟨hcnt, hbr, _, hagent, rfl, ?_⟩
    rw [State.pending_beginWork, State.startBurst, pending_recordBurst]
    rfl

end

theorem ReaderReady.takeOldest {r : Nat} {s : State} (h : ReaderReady r s) (hr : r < s.rb.readers.length) :
    ReaderReady r (s.takeOldest r) where
  unfaulted := h.unfaulted
  port_lt := h.port_lt
  free := by rw [reader_takeOldest hr]; exact h.free
  att := by rw [reader_takeOldest hr]; exact h.att

/-- As many READs as there are elements pending. -/
theorem reads_deliver {r : BitVec 8} {n : Nat} {s : State} {a : Agent} (ha : s.env.agents[s.env.issuer]? = some a)
    (hrb : RbInv s) (h : ReaderReady r.toNat s) (hcnt : (s.rb.reader r.toNat).cnt = n) :
    ∃ u, execAll (List.replicate n (.read r)) s = some u ∧ (u.rb.reader r.toNat).cnt = 0 ∧
      ∃ b, u.env.agents[s.env.issuer]? = some b ∧ b.inbox = a.inbox ++ (s.pending r.toNat).map .val := by
  induction n generalizing s a with
  | zero => exact ⟨s, rfl, hcnt, a, ha, by rw [pending_of_empty hcnt, List.map_nil, List.append_nil]⟩
  | succ n ih =>
    have hne : (s.rb.reader r.toNat).cnt ≠ 0 := by omega
    have hr := hrb.lt_ports h.port_lt
    have hread : Completed (.read r) s (s.takeOldest r.toNat) := .read h.port_lt h.att hne
    have hrb' := (Reading.completed hread (h.accepted rfl rfl) ⟨hrb, h.att⟩).rb
    have hcnt' : ((s.takeOldest r.toNat).rb.reader r.toNat).cnt = n := by
      rw [reader_takeOldest hr, hcnt, Nat.add_sub_cancel]
    have hagent : (s.takeOldest r.toNat).env.agents[s.env.issuer]? = some (a.answer (.val (s.oldest r.toNat))) :=
      issuer_respond (s := s) ha _
    obtain ⟨u, hrun, hempty, b, hb, hinbox⟩ := ih hagent hrb' (h.takeOldest hr) hcnt'
    refine ⟨u, ?_, hempty, b, hb, ?_⟩
    · rw [List.replicate_succ, execAll, exec_read h hne]
      exact hrun
    · rw [hinbox, (pending_read hrb hread).1, List.map_cons, List.append_cons a.inbox]
      rfl

/-- Settles O33: both deliver the pending list, by induction on the beats and on the READs. -/
theorem consumeDeliversWhatReadsWould : Obligations.ConsumeDeliversWhatReadsWould := by
  intro r s t a hb hf hr hatt hbr ha hidle ht
  have h : ReaderReady r.toNat s := ⟨hf, hr, hbr, hatt⟩
  exact ⟨consume_beats ha hb.rb h hidle ht, reads_deliver ha hb.rb h rfl⟩

end Sys2Proof.Machine

namespace Sys2Proof.Machine

/-! ### The commands of unit SE (R232 to R253) -/

section
variable {s : State}

/-- Unit SE after a FEED, before the answer (R232). -/
def State.feedSample (re im : F32) (s : State) : State :=
  { s.stage (packSample re im) with
    se := { (s.stage (packSample re im)).se with
      phase := s.nextPhase, armed := s.se.armed || decide (s.nextPhase = 0) } }

/-- FEED is never held and never faults (R112, R342). -/
theorem exec_feed (hf : s.blk.faulted = false) (re im : F32) :
    exec (.feed re im) s = .next ((s.feedSample re im).respond (.bool (decide (s.nextPhase = 0)))) :=
  accept_of_accepted ⟨hf, rfl, rfl⟩

theorem exec_compute_notArmed (hf : s.blk.faulted = false) (harmed : s.se.armed = false) :
    exec .compute s = .next (s.raiseFault 0x1100#16 .computeNotArmed) :=
  (accept_of_accepted ⟨hf, rfl, rfl⟩).trans (if_pos (by rw [harmed]; rfl))

theorem exec_compute_underrun (hf : s.blk.faulted = false) (harmed : s.se.armed = true)
    (hcnt : (s.se.stg.reader 0).cnt < s.cfg.seOv) :
    exec .compute s = .next (s.raiseFault 0x1100#16 .seUnderrun) :=
  (accept_of_accepted ⟨hf, rfl, rfl⟩).trans ((if_neg (by simp [harmed])).trans (if_pos hcnt))

theorem exec_compute (hf : s.blk.faulted = false) (harmed : s.se.armed = true)
    (hcnt : s.cfg.seOv ≤ (s.se.stg.reader 0).cnt) : exec .compute s = .next (s.compute.respond .ack) :=
  (accept_of_accepted ⟨hf, rfl, rfl⟩).trans ((if_neg (by simp [harmed])).trans (if_neg (not_lt.2 hcnt)))

theorem exec_postprocess (hf : s.blk.faulted = false) (hv : s.cfg.seVariant ≠ .none) :
    exec .postprocess s = .next (s.postprocess.respond .ack) :=
  accept_of_accepted ⟨hf, decide_eq_true hv, rfl⟩

theorem exec_copyfft_wrongSize (hf : s.blk.faulted = false) {l : BitVec 32} (hl : l.toNat ≠ 2 * s.cfg.seN) :
    exec (.copyfft l) s = .next (s.raiseFault 0x1300#16 .copySize) :=
  (accept_of_accepted ⟨hf, rfl, rfl⟩).trans (if_pos hl)

theorem exec_copyfft (hf : s.blk.faulted = false) {l : BitVec 32} (hl : l.toNat = 2 * s.cfg.seN) :
    exec (.copyfft l) s = .next (s.respond (.words s.exportWork)) :=
  (accept_of_accepted ⟨hf, rfl, rfl⟩).trans (if_neg (not_not.2 hl))

end

/-- The port of `SE.STG` under a FEED: with no drop counter, a full port stays as it is (R55, R186). -/
theorem Reader.onAppend_stg (c : Config) (q : Reader) : Reader.onAppend (stgParams c) q =
    if q.att = true ∧ q.cnt < c.seS then { q with cnt := q.cnt + 1 } else q := by
  by_cases hatt : q.att = true
  · simp [Reader.onAppend, stgParams, hatt]
  · simp [Reader.onAppend, hatt]

/-- Settles O35: FEED completes, and each conjunct is one write of `State.stage`. -/
theorem feedStagesOneSample : Obligations.FeedStagesOneSample := by
  intro re im s hf
  refine ⟨_, exec_feed hf re im, rfl, ⟨rfl, rfl, rfl, rfl, rfl⟩, rfl, rfl,
    fun i => s.stgElem_setStgElem s.se.stg.wr i (packSample re im), rfl, Ring.append_length .., fun r => ?_, rfl, rfl⟩
  exact (Ring.reader_append ..).trans (Reader.onAppend_stg ..)

/-- Settles O37: the two checks of COMPUTE come before its first write, and fault entry writes only the record. -/
theorem computePreconditions : Obligations.ComputePreconditions := fun _ hf =>
  ⟨exec_compute_notArmed hf, exec_compute_underrun hf, fun _ => ⟨rfl, rfl, rfl, rfl, rfl⟩⟩

/-- Settles O41: COPYFFT answers the list of the elements of `SE.WORK`, and only answers. -/
theorem copyfftExportsTheTransform : Obligations.CopyfftExportsTheTransform := by
  intro l s hf
  refine ⟨exec_copyfft_wrongSize hf, fun hl => ⟨_, exec_copyfft hf hl, ⟨rfl, rfl, rfl, rfl, rfl, rfl⟩,
    s.exportWork, rfl, ?_, fun i hi => ?_⟩⟩
  · simp [State.exportWork]
  · simp [State.exportWork, hi]

end Sys2Proof.Machine

namespace Sys2Proof.Machine

/-! ### POSTPROCESS (R247 to R250) -/

/-- A computation of unit SE that then answers changes unit SE only, and no staged sample. -/
theorem OnlySpectral.onlySe {s t : State} (h : OnlySpectral s t) (x : Response) :
    OnlySe s (t.respond x) ∧ (t.respond x).mem.stgData = s.mem.stgData := by
  have hstg : t.mem.stgData = s.mem.stgData := by rw [h.mem]
  refine ⟨⟨h.cfg, h.rb, h.fb, h.blk, ?_⟩, hstg⟩
  rw [State.respond_mem, hstg]
  exact h.mem

/-- The environment after a computation that has drawn `n` NaN payloads and then answers. -/
theorem respond_env_of_draws {s t : State} {n : Nat} (h : t.env = (s.useNaNs n).env) (x : Response) :
    (t.respond x).env = ((s.useNaNs n).respond x).env := by
  rw [State.respond_env, State.respond_env, h]

theorem normalise_env (s : State) : s.normalise.env = (s.useNaNs (2 * s.cfg.seN)).env := by rw [s.normalise_spec.1]; rfl

theorem power_env (s : State) : s.power.env = (s.useNaNs (3 * s.cfg.seN)).env := by rw [s.power_spec.1]; rfl

theorem normalise_power_env (s : State) : s.normalise.power.env = (s.useNaNs (5 * s.cfg.seN)).env := by
  rw [power_env, State.useNaNs_env, normalise_env, (OnlySpectral.normalise s).cfg]
  simp only [State.useNaNs_env, Env.mk.injEq, true_and, and_true]
  omega

theorem normalise_x (s : State) : s.normalise.mem.x = s.mem.x := by rw [s.normalise_spec.1]

theorem power_x (s : State) : s.power.mem.x = s.mem.x := by rw [s.power_spec.1]

theorem postprocess_x (s : State) : s.postprocess.mem.x = s.mem.x := by
  unfold State.postprocess
  split
  · rfl
  · exact normalise_x s
  · exact power_x s
  · exact (power_x _).trans (normalise_x s)

section
variable {s : State} {i : Nat}

theorem workElem_normalise (hi : i < 2 * s.cfg.seN) :
    s.normalise.workElem i = f32DivPow2 (freeNaN (s.env.nanDraws + i)) (s.workElem i) s.cfg.seN.log2 := by
  rw [s.normalise_spec.2, if_pos hi]

theorem workElem_normalise_beyond (hi : 2 * s.cfg.seN ≤ i) : s.normalise.workElem i = s.workElem i := by
  rw [s.normalise_spec.2, if_neg (not_lt.2 hi)]

theorem workElem_power (hi : i < s.cfg.seN) :
    s.power.workElem i = powerOf (s.env.nanDraws + 3 * i) (s.workElem (2 * i)) (s.workElem (2 * i + 1)) := by
  rw [s.power_spec.2, if_pos hi]

theorem workElem_power_back (hi : s.cfg.seN ≤ i) : s.power.workElem i = s.workElem i := by
  rw [s.power_spec.2, if_neg (not_lt.2 hi)]

/-- NORM, then POWER of the quotients, whose NaNs are drawn after those of NORM (R250). -/
theorem workElem_normalise_power (hi : i < s.cfg.seN) :
    s.normalise.power.workElem i = powerOf (s.env.nanDraws + 2 * s.cfg.seN + 3 * i)
      (f32DivPow2 (freeNaN (s.env.nanDraws + 2 * i)) (s.workElem (2 * i)) s.cfg.seN.log2)
      (f32DivPow2 (freeNaN (s.env.nanDraws + (2 * i + 1))) (s.workElem (2 * i + 1)) s.cfg.seN.log2) := by
  rw [workElem_power (by rwa [(OnlySpectral.normalise s).cfg]), normalise_env, State.useNaNs_env,
    workElem_normalise (by omega), workElem_normalise (by omega)]

theorem workElem_normalise_power_back (hi : s.cfg.seN ≤ i) :
    s.normalise.power.workElem i = s.normalise.workElem i :=
  workElem_power_back (by rwa [(OnlySpectral.normalise s).cfg])

/-- No variant writes past the end of `SE.WORK`. -/
theorem workElem_postprocess_beyond (hi : 2 * s.cfg.seN ≤ i) : s.postprocess.workElem i = s.workElem i := by
  unfold State.postprocess
  split
  · rfl
  · exact workElem_normalise_beyond hi
  · exact workElem_power_back (by omega)
  · exact (workElem_normalise_power_back (by omega)).trans (workElem_normalise_beyond hi)

end

/-- Settles O40: without a variant by command entry, with one by what its computation does to each element. -/
theorem postprocessPerVariant : Obligations.PostprocessPerVariant := by
  intro s hf
  refine ⟨fun hv => exec_of_absent hf (by simp [Instr.present, hv]), fun hv => ?_⟩
  obtain ⟨honly, hstg⟩ := (OnlySpectral.postprocess s).onlySe .ack
  refine ⟨_, exec_postprocess hf hv, honly, postprocess_se s, hstg, postprocess_x s,
    fun i hi => workElem_postprocess_beyond hi, fun hv => ?_, fun hv => ?_, fun hv => ?_⟩
  · have hpost : s.postprocess = s.normalise := by rw [State.postprocess, hv]
    rw [hpost]
    exact ⟨respond_env_of_draws (normalise_env s) _, fun i hi => workElem_normalise hi⟩
  · have hpost : s.postprocess = s.power := by rw [State.postprocess, hv]
    rw [hpost]
    exact ⟨respond_env_of_draws (power_env s) _, fun k hk => workElem_power hk, fun i hi => workElem_power_back hi⟩
  · have hpost : s.postprocess = s.normalise.power := by rw [State.postprocess, hv]
    rw [hpost]
    exact ⟨respond_env_of_draws (normalise_power_env s) _, fun k hk => workElem_normalise_power hk,
      fun i hi hi' => (workElem_normalise_power_back hi).trans (workElem_normalise hi')⟩

end Sys2Proof.Machine

namespace Sys2Proof.Machine

/-! ### COMPUTE (R236 to R244) -/

/-- What COMPUTE needs of the staging ring (R50, R55): its invariant, and one port, attached and never in a burst. A
command of a run need not fit `RB_TW`, so the block's whole invariant is too much to ask. -/
structure StagingInv (s : State) : Prop where
  ring : RingInv (stgParams s.cfg) 1 s.se.stg
  att : (s.se.stg.reader 0).att = true
  free : (s.se.stg.reader 0).br = 0

theorem StagingInv.port_lt {s : State} (h : StagingInv s) : 0 < s.se.stg.readers.length := h.ring.ports ▸ Nat.one_pos

theorem BlockInv.staging {s : State} (h : BlockInv s) : StagingInv s := by
  have hport := h.stg_port _ (Ring.reader_mem s.se.stg 0 (h.stg.ports ▸ Nat.one_pos))
  exact ⟨h.stg, hport.1, hport.2⟩

/-! #### What the phases leave alone -/

@[simp] theorem respond_xElem (x : Response) (s : State) : (s.respond x).xElem = s.xElem := rfl

@[simp] theorem respond_workElem (x : Response) (s : State) : (s.respond x).workElem = s.workElem := rfl

theorem shiftWindow_staged (s : State) (j : Nat) : s.shiftWindow.staged j = s.staged j := by
  rw [s.shiftWindow_spec.1]; rfl

theorem shiftWindow_work (s : State) : s.shiftWindow.workElem = s.workElem := by rw [s.shiftWindow_spec.1]; rfl

theorem window_x (s : State) : s.window.xElem = s.xElem := by rw [s.window_spec.1]; rfl

theorem transform_x (s : State) : s.transform.xElem = s.xElem := by rw [s.transform_spec.1]; rfl

/-- Only the first two phases write `SE.X`. -/
theorem compute_x (s : State) : s.compute.xElem = s.shiftWindow.refill.xElem := by
  have hlast : s.compute.xElem = s.shiftWindow.refill.window.transform.xElem := by
    funext i; simp only [State.compute, State.xElem]
  rw [hlast, transform_x, window_x]

theorem compute_workElem (s : State) : s.compute.workElem = s.shiftWindow.refill.window.transform.workElem := by
  funext i; simp only [State.compute, State.workElem]

/-- The samples that phase (c) leaves in `SE.WORK` (R242). -/
def State.windowed (s : State) : List Cplx :=
  (List.range s.cfg.seN).map fun n =>
    (f32Mul (freeNaN (s.env.nanDraws + 2 * n)) (s.xElem (2 * n)) (s.winElem n),
      f32Mul (freeNaN (s.env.nanDraws + (2 * n + 1))) (s.xElem (2 * n + 1)) (s.winElem n))

theorem window_workSamples (s : State) : s.window.workSamples = s.windowed := by
  unfold State.workSamples State.windowed
  rw [(OnlySpectral.window s).cfg]
  refine List.map_congr_left fun n hn => ?_
  obtain ⟨hre, him⟩ := s.window_spec.2.2 n (List.mem_range.1 hn)
  rw [hre, him]

theorem windowed_congr {s t : State} (hcfg : t.cfg = s.cfg) (henv : t.env = s.env) :
    t.windowed = (List.range s.cfg.seN).map fun n =>
      (f32Mul (freeNaN (s.env.nanDraws + 2 * n)) (t.xElem (2 * n)) (s.winElem n),
        f32Mul (freeNaN (s.env.nanDraws + (2 * n + 1))) (t.xElem (2 * n + 1)) (s.winElem n)) := by
  unfold State.windowed State.winElem
  rw [hcfg, henv]

/-! #### Its effect, element by element -/

/-- Phases (d) to (f): the transform of the new window's samples times their coefficients (R243). -/
theorem compute_work {s : State} {k : Nat} (hk : k < s.cfg.seN) :
    s.compute.workElem (2 * k) = (s.cfg.seFft s.shiftWindow.refill.windowed k).1 ∧
    s.compute.workElem (2 * k + 1) = (s.cfg.seFft s.shiftWindow.refill.windowed k).2 := by
  have hcfg := (((OnlySpectral.shiftWindow s).trans (.refill _)).trans (.window _)).cfg
  rw [compute_workElem, ← window_workSamples, ← hcfg]
  exact (State.transform_spec _).2.2 k (by rwa [hcfg])

section
variable {s : State} (h : StagingInv s) (hcnt : s.cfg.seOv ≤ (s.se.stg.reader 0).cnt)
include h hcnt

/-- The refill after the shift, seen from the state before both (R240, R241). -/
theorem refill_shiftWindow :
    s.shiftWindow.refill.env = s.env ∧ s.shiftWindow.refill.workElem = s.workElem ∧
    s.shiftWindow.refill.se =
      { s.se with stg := s.se.stg.onReader 0 fun q => { q with cnt := q.cnt - s.cfg.seOv } } ∧
    (∀ i, i < 2 * (s.cfg.seN - s.cfg.seOv) ∨ 2 * (s.cfg.seN - s.cfg.seOv + s.cfg.seOv) ≤ i →
      s.shiftWindow.refill.xElem i = s.shiftWindow.xElem i) ∧
    ∀ j, j < s.cfg.seOv →
      s.shiftWindow.refill.xElem (2 * (s.cfg.seN - s.cfg.seOv + j)) = sampleRe (s.staged j) ∧
      s.shiftWindow.refill.xElem (2 * (s.cfg.seN - s.cfg.seOv + j) + 1) = sampleIm (s.staged j) := by
  have hse := shiftWindow_se s
  have hcfg := (OnlySpectral.shiftWindow s).cfg
  have henv : s.shiftWindow.env = s.env := by rw [s.shiftWindow_spec.1]
  obtain ⟨hframe, hstg, hkept, htaken⟩ := s.shiftWindow.refill_spec (by rw [hse]; exact h.ring.ports)
    (by rw [hse, hcfg]; exact (h.ring.reader 0).cnt_le) (by rw [hse, hcfg]; exact hcnt)
  simp only [hcfg, hse, shiftWindow_staged] at hstg hkept htaken
  refine ⟨?_, ?_, ?_, hkept, htaken⟩
  · rw [hframe, henv]
  · rw [hframe]; exact shiftWindow_work s
  · rw [hframe, hstg, hse]

theorem compute_se : s.compute.se =
    { s.se with stg := s.se.stg.onReader 0 fun q => { q with cnt := q.cnt - s.cfg.seOv }, armed := false } := by
  obtain ⟨-, -, hse, -, -⟩ := refill_shiftWindow h hcnt
  simp only [State.compute, transform_se, window_se, hse]

theorem compute_env : s.compute.env = (s.useNaNs (2 * s.cfg.seN)).env := by
  obtain ⟨henv, -, -, -, -⟩ := refill_shiftWindow h hcnt
  have hcfg := ((OnlySpectral.shiftWindow s).trans (.refill _)).cfg
  simp only [State.compute]
  rw [(State.transform_spec _).1, (State.window_spec _).1]
  simp only [henv, hcfg, State.useNaNs_env]

/-- Phase (a): the samples that stay (R240). -/
theorem compute_x_shifted {i : Nat} (hi : i < 2 * s.cfg.seN - 2 * s.cfg.seOv) :
    s.compute.xElem i = s.xElem (i + 2 * s.cfg.seOv) := by
  obtain ⟨-, -, -, hkept, -⟩ := refill_shiftWindow h hcnt
  rw [compute_x, hkept i (.inl (by omega)), s.shiftWindow_spec.2, if_pos hi]

/-- Phase (b): the samples that come in (R241). -/
theorem compute_x_refilled {j : Nat} (hj : j < s.cfg.seOv) :
    s.compute.xElem (2 * (s.cfg.seN - s.cfg.seOv + j)) = sampleRe (s.staged j) ∧
    s.compute.xElem (2 * (s.cfg.seN - s.cfg.seOv + j) + 1) = sampleIm (s.staged j) := by
  obtain ⟨-, -, -, -, htaken⟩ := refill_shiftWindow h hcnt
  rw [compute_x]
  exact htaken j hj

/-- Neither array is written past its end. -/
theorem compute_beyond (hov : s.cfg.seOv ≤ s.cfg.seN) {i : Nat} (hi : 2 * s.cfg.seN ≤ i) :
    s.compute.xElem i = s.xElem i ∧ s.compute.workElem i = s.workElem i := by
  obtain ⟨-, hwork, -, hkept, -⟩ := refill_shiftWindow h hcnt
  have hcfg := ((OnlySpectral.shiftWindow s).trans (.refill _)).cfg
  have hcfg' := (((OnlySpectral.shiftWindow s).trans (.refill _)).trans (.window _)).cfg
  constructor
  · rw [compute_x, hkept i (.inr (by omega)), s.shiftWindow_spec.2, if_neg (by omega)]
  · obtain ⟨-, htransform, -⟩ := State.transform_spec s.shiftWindow.refill.window
    obtain ⟨-, hwindow, -⟩ := State.window_spec s.shiftWindow.refill
    rw [compute_workElem, htransform i (by rwa [hcfg']), hwindow i (by rwa [hcfg]), hwork]

/-- The samples of the new window times their coefficients (R242). -/
theorem refill_windowed : s.shiftWindow.refill.windowed = (List.range s.cfg.seN).map fun n =>
    (f32Mul (freeNaN (s.env.nanDraws + 2 * n)) (s.compute.xElem (2 * n)) (s.winElem n),
      f32Mul (freeNaN (s.env.nanDraws + (2 * n + 1))) (s.compute.xElem (2 * n + 1)) (s.winElem n)) := by
  obtain ⟨henv, -, -, -, -⟩ := refill_shiftWindow h hcnt
  rw [compute_x]
  exact windowed_congr ((OnlySpectral.shiftWindow s).trans (.refill _)).cfg henv

end

/-- Settles O38: the five phases of `State.compute`, with its frame. -/
theorem computeSlidesWindowsAndTransforms : Obligations.ComputeSlidesWindowsAndTransforms := by
  intro s hb hf harmed hcnt
  have hstg := hb.staging
  have hse := compute_se hstg hcnt
  obtain ⟨honly, hdata⟩ := (OnlySpectral.compute s).onlySe .ack
  refine ⟨_, exec_compute hf harmed hcnt, honly, hdata, respond_env_of_draws (compute_env hstg hcnt) _, ?_⟩
  simp only [respond_xElem, respond_workElem, State.respond_se, hse]
  refine ⟨fun i hi => compute_x_shifted hstg hcnt hi, fun j hj => compute_x_refilled hstg hcnt hj, fun k hk => ?_,
    fun i hi => compute_beyond hstg hcnt hb.bounds.seOv_lt.le hi, rfl, Ring.onReader_length ..,
    Ring.reader_onReader_same _ _ _ hstg.port_lt, trivial, trivial⟩
  rw [← refill_windowed hstg hcnt]
  exact compute_work hk

end Sys2Proof.Machine

namespace Sys2Proof.Machine

/-! ### The arithmetic of unit SE (R237) -/

/-! #### Which patterns are NaNs -/

section
variable {a b nan : F32}

theorem isNaN_iff : f32IsNaN a = true ↔ f32Exp a = 255 ∧ f32Frac a ≠ 0 := by simp [f32IsNaN]

theorem isInf_iff : f32IsInf a = true ↔ f32Exp a = 255 ∧ f32Frac a = 0 := by simp [f32IsInf]

theorem isZero_iff : f32IsZero a = true ↔ f32Exp a = 0 ∧ f32Frac a = 0 := by simp [f32IsZero]

theorem isFinite_iff : f32IsFinite a = true ↔ f32Exp a ≠ 255 := by simp [f32IsFinite]

theorem isNaN_of_isInf (h : f32IsInf a = true) : f32IsNaN a = false := by
  rw [← Bool.not_eq_true, isNaN_iff]
  exact fun hnan => hnan.2 (isInf_iff.1 h).2

theorem isZero_of_isInf (h : f32IsInf a = true) : f32IsZero a = false := by
  rw [← Bool.not_eq_true, isZero_iff]
  have hinf := isInf_iff.1 h
  omega

theorem isNaN_of_isFinite (h : f32IsFinite a = true) : f32IsNaN a = false := by
  rw [← Bool.not_eq_true, isNaN_iff]
  exact fun hnan => isFinite_iff.1 h hnan.1

theorem isInf_of_isFinite (h : f32IsFinite a = true) : f32IsInf a = false := by
  rw [← Bool.not_eq_true, isInf_iff]
  exact fun hinf => isFinite_iff.1 h hinf.1

/-- Setting the exponent bits makes the exponent field all ones, and setting further bits clears no fraction bit. -/
theorem isNaN_freeNaN (k : Nat) : f32IsNaN (freeNaN k) = true := by
  have hexp (x m : F32) (hm : m.extractLsb' 23 8 = BitVec.allOnes 8) : f32Exp (x ||| m) = 255 := by
    rw [f32Exp, BitVec.extractLsb'_or, hm, BitVec.or_allOnes]
    rfl
  rw [isNaN_iff, freeNaN, f32MakeNaN]
  generalize Config.freeNanBits k = x
  split_ifs with hfrac
  · refine ⟨hexp x _ (by decide), ?_⟩
    have hzero : x.extractLsb' 0 23 = 0 := BitVec.eq_of_toNat_eq hfrac
    rw [f32Frac, BitVec.extractLsb'_or, hzero]
    decide
  · refine ⟨hexp x _ (by decide), ?_⟩
    rw [f32Frac, BitVec.extractLsb'_or, show (0x7F800000#32).extractLsb' 0 23 = 0#23 by decide, BitVec.or_zero]
    exact hfrac

/-! #### Rounding gives no NaN -/

/-- Up to infinity, the 31 bits below the sign are no NaN. -/
theorem isNaN_withSign (neg : Bool) {k : Nat} (h : k ≤ f32InfBits) : f32IsNaN (f32WithSign neg k) = false := by
  unfold f32InfBits at h
  rw [← Bool.not_eq_true, isNaN_iff]
  cases neg <;> simp only [f32WithSign, Bool.false_eq_true, if_true, if_false, f32Exp_ofNat, f32Frac_ofNat] <;> omega

theorem isNaN_fl32 (neg : Bool) (m : Nat) (e : Int) : f32IsNaN (fl32 neg m e) = false := by
  obtain rfl | hm := m.eq_zero_or_pos
  · exact isNaN_withSign neg (Nat.zero_le _)
  · rw [fl32_eq neg e hm]
    exact isNaN_withSign neg (min_le_right _ _)

theorem isNaN_mul (hnan : f32IsNaN nan = true) : f32IsNaN (f32Mul nan a b) = true ↔
    f32IsNaN a = true ∨ f32IsNaN b = true ∨ (f32IsInf a = true ∧ f32IsZero b = true) ∨
      (f32IsZero a = true ∧ f32IsInf b = true) := by
  unfold f32Mul
  split_ifs with hops hinf hzero
  · rw [Bool.or_eq_true] at hops
    exact iff_of_true hnan (hops.imp_right .inl)
  · rw [Bool.or_eq_true] at hinf hzero
    refine iff_of_true hnan (.inr (.inr ?_))
    obtain ha | hb := hinf
    · exact .inl ⟨ha, hzero.resolve_left (by simp [isZero_of_isInf ha])⟩
    · exact .inr ⟨hzero.resolve_right (by simp [isZero_of_isInf hb]), hb⟩
  · rw [isNaN_withSign _ le_rfl]
    exact iff_of_false Bool.false_ne_true (by simp_all)
  · rw [isNaN_fl32]
    exact iff_of_false Bool.false_ne_true (by simp_all)

theorem isNaN_add (hnan : f32IsNaN nan = true) : f32IsNaN (f32Add nan a b) = true ↔
    f32IsNaN a = true ∨ f32IsNaN b = true ∨ (f32IsInf a = true ∧ f32IsInf b = true ∧ a.msb ≠ b.msb) := by
  unfold f32Add f32Neg
  split_ifs with hops hinfa hopp hinfb
  · rw [Bool.or_eq_true] at hops
    exact iff_of_true hnan (hops.imp_right .inl)
  · rw [Bool.and_eq_true, bne_iff_ne] at hopp
    exact iff_of_true hnan (.inr (.inr ⟨hinfa, hopp⟩))
  · rw [isNaN_of_isInf hinfa]
    exact iff_of_false Bool.false_ne_true (by simp_all)
  · rw [isNaN_of_isInf hinfb]
    exact iff_of_false Bool.false_ne_true (by simp_all)
  · rw [isNaN_fl32]
    exact iff_of_false Bool.false_ne_true (by simp_all)

theorem isNaN_divPow2 (hnan : f32IsNaN nan = true) (k : Nat) :
    f32IsNaN (f32DivPow2 nan a k) = true ↔ f32IsNaN a = true := by
  unfold f32DivPow2
  split_ifs with hop hinf
  · exact iff_of_true hnan hop
  · exact Iff.rfl
  · rw [isNaN_fl32]
    exact iff_of_false Bool.false_ne_true hop

/-! #### The exact result that each operation rounds -/

/-- The number with sign `neg` and magnitude `m * 2^e`, which `fl32 neg m e` rounds. -/
def dyadic (neg : Bool) (m : Nat) (e : Int) : ℚ := (if neg = true then -1 else 1) * ((m : ℚ) * (2 : ℚ) ^ e)

/-- The sign of a product. -/
theorem sign_bne (p q : Bool) : (if (p != q) = true then (-1 : ℚ) else 1) =
    (if p = true then -1 else 1) * (if q = true then -1 else 1) := by
  cases p <;> cases q <;> simp

theorem f32Value_eq_dyadic (a : F32) : f32Value a = dyadic (f32Neg a) (f32Mant a) (f32Pow a) := by
  unfold f32Value f32Signed dyadic
  split_ifs <;> push_cast <;> ring

/-- A signed significand as sign and magnitude; the sign of zero is free. -/
theorem dyadic_natAbs (t : Int) (negZero : Bool) (e : Int) :
    dyadic (if t = 0 then negZero else decide (t < 0)) t.natAbs e = (t : ℚ) * (2 : ℚ) ^ e := by
  unfold dyadic
  rw [Nat.cast_natAbs]
  obtain hneg | rfl | hpos := lt_trichotomy t 0
  · simp [hneg.ne, hneg, abs_of_neg hneg]
  · simp
  · simp [hpos.ne', hpos.le, abs_of_pos hpos]

/-- The sum of the signed significands, in units of the smaller last bit. -/
def alignedSum (a b : F32) : Int :=
  f32Signed a * 2 ^ (f32Pow a - min (f32Pow a) (f32Pow b)).toNat +
    f32Signed b * 2 ^ (f32Pow b - min (f32Pow a) (f32Pow b)).toNat

/-- A significand at a smaller exponent stands for the same value. -/
theorem f32Value_scaled (a : F32) {e : Int} (he : e ≤ f32Pow a) :
    (f32Signed a : ℚ) * 2 ^ (f32Pow a - e).toNat * 2 ^ e = f32Value a := by
  rw [f32Value, mul_assoc, ← zpow_natCast, Int.toNat_of_nonneg (by omega), ← zpow_add₀ two_ne_zero, sub_add_cancel]

theorem alignedSum_value (a b : F32) :
    (alignedSum a b : ℚ) * 2 ^ min (f32Pow a) (f32Pow b) = f32Value a + f32Value b := by
  unfold alignedSum
  push_cast
  rw [add_mul, f32Value_scaled a (min_le_left _ _), f32Value_scaled b (min_le_right _ _)]

section
variable (ha : f32IsFinite a = true) (hb : f32IsFinite b = true)
include ha

theorem divPow2_of_finite (k : Nat) :
    f32DivPow2 nan a k = fl32 (f32Neg a) (f32Mant a) (f32Pow a - k) ∧
    dyadic (f32Neg a) (f32Mant a) (f32Pow a - k) = f32Value a / 2 ^ k := by
  constructor
  · simp [f32DivPow2, isNaN_of_isFinite ha, isInf_of_isFinite ha]
  · rw [f32Value_eq_dyadic, dyadic, dyadic, zpow_sub₀ two_ne_zero, zpow_natCast]
    ring

include hb

theorem mul_of_finite :
    f32Mul nan a b = fl32 (f32Neg a != f32Neg b) (f32Mant a * f32Mant b) (f32Pow a + f32Pow b) ∧
    dyadic (f32Neg a != f32Neg b) (f32Mant a * f32Mant b) (f32Pow a + f32Pow b) = f32Value a * f32Value b := by
  constructor
  · simp [f32Mul, isNaN_of_isFinite ha, isInf_of_isFinite ha, isNaN_of_isFinite hb, isInf_of_isFinite hb]
  · rw [f32Value_eq_dyadic, f32Value_eq_dyadic, dyadic, dyadic, dyadic, zpow_add₀ two_ne_zero]
    rw [sign_bne]
    push_cast
    ring

theorem add_of_finite : ∃ neg, f32Add nan a b = fl32 neg (alignedSum a b).natAbs (min (f32Pow a) (f32Pow b)) ∧
    dyadic neg (alignedSum a b).natAbs (min (f32Pow a) (f32Pow b)) = f32Value a + f32Value b := by
  refine ⟨if alignedSum a b = 0 then f32Neg a && f32Neg b else decide (alignedSum a b < 0), ?_, ?_⟩
  · simp only [f32Add, isNaN_of_isFinite ha, isInf_of_isFinite ha, isNaN_of_isFinite hb, isInf_of_isFinite hb,
      Bool.or_self, Bool.false_eq_true, if_false]
    rfl
  · rw [dyadic_natAbs, alignedSum_value]

end

end

/-- Settles O43: every NaN is one drawn or an operand's, and every finite result is one rounding of the exact one. -/
theorem arithmeticRoundsOnce : Obligations.ArithmeticRoundsOnce := by
  refine ⟨isNaN_freeNaN, fun nan a b hnan => ⟨isNaN_mul hnan, isNaN_add hnan, isNaN_divPow2 hnan⟩,
    fun nan a b ha hb => ⟨⟨_, _, _, mul_of_finite ha hb⟩, ?_, fun k => ⟨_, _, _, divPow2_of_finite ha k⟩⟩⟩
  obtain ⟨neg, hadd⟩ := add_of_finite (nan := nan) ha hb
  exact ⟨neg, _, _, hadd⟩

end Sys2Proof.Machine

namespace Sys2Proof.Machine

/-! ### One event, seen from the window of unit SE (R113, R232, R236) -/

/-- Unit SE's registers, the staged samples and `SE.X` are the same: all that FEED and COMPUTE hand on to later commands
but for `SE.WORK`. -/
structure SameWindow (s t : State) : Prop where
  cfg : t.cfg = s.cfg
  se : t.se = s.se
  stgData : t.mem.stgData = s.mem.stgData
  x : t.mem.x = s.mem.x
  resets : t.env.resets = s.env.resets

namespace SameWindow

variable {s t : State}

theorem refl (s : State) : SameWindow s s := ⟨rfl, rfl, rfl, rfl, rfl⟩

theorem onAgent (h : SameWindow s t) (j : Nat) (f : Agent → Agent) : SameWindow s (t.onAgent j f) :=
  ⟨h.cfg, h.se, h.stgData, h.x, h.resets⟩

theorem respond (h : SameWindow s t) (x : Response) : SameWindow s (t.respond x) := h.onAgent _ _

theorem perform (s : State) (plots : List Plot) : SameWindow s (s.perform plots) := by
  obtain ⟨-, heq⟩ | ⟨p, -, rest, -, -, ⟨-, heq⟩ | ⟨-, heq⟩⟩ := s.perform_cases plots <;> rw [heq]
  all_goals exact ⟨rfl, rfl, rfl, rfl, rfl⟩

theorem pixelStep (s : State) (j pick : Nat) : SameWindow s (s.pixelStep j pick) := by
  have htake : ∀ todo, SameWindow s (takePixel pick todo s).1 := by
    intro todo
    obtain heq | ⟨p, -, heq⟩ := takePixel_state pick todo s <;> rw [heq]
    all_goals exact ⟨rfl, rfl, rfl, rfl, rfl⟩
  obtain ⟨-, heq⟩ | ⟨a, todo, -, -, -, ⟨-, heq⟩ | ⟨-, heq⟩⟩ := s.pixelStep_cases j pick <;> rw [heq]
  · exact refl s
  · exact (htake todo).onAgent _ _
  · exact (htake todo).onAgent _ _

theorem sched (s : State) : SameWindow s s.sched := by
  obtain ⟨-, heq⟩ | ⟨-, -, heq⟩ | ⟨-, -, -, heq⟩ | ⟨-, -, -, -, heq⟩ | ⟨-, -, -, -, heq⟩ := s.sched_cases <;> rw [heq]
  all_goals exact ⟨rfl, rfl, rfl, rfl, rfl⟩

theorem complete (s : State) (ok : Bool) : SameWindow s (s.complete ok) := by
  obtain ⟨-, heq⟩ | ⟨-, -, -, heq⟩ := s.complete_cases ok <;> rw [heq]
  all_goals exact ⟨rfl, rfl, rfl, rfl, rfl⟩

theorem beat (s : State) (r : Nat) : SameWindow s (s.beat r) := by
  unfold State.beat
  split <;> exact ⟨rfl, rfl, rfl, rfl, rfl⟩

theorem setPal (s : State) (k : Nat) (col : Color) : SameWindow s (s.setPal k col) := by
  unfold State.setPal
  split <;> exact ⟨rfl, rfl, rfl, rfl, rfl⟩

theorem postprocess (s : State) : SameWindow s s.postprocess := by
  have honly := OnlySpectral.postprocess s
  exact ⟨honly.cfg, postprocess_se s, by rw [honly.mem], postprocess_x s, by rw [honly.env]⟩

/-- A performed command other than FEED and COMPUTE leaves the window alone. -/
theorem completed {i : Instr} (hc : Completed i s t) (hfeed : fedBy i = none) (hcompute : i ≠ .compute) :
    SameWindow s t := by
  cases hc with
  | feed => cases hfeed
  | compute => exact absurd rfl hcompute
  | postprocess => exact (postprocess s).respond _
  | draw _ plots => exact perform s plots
  | setpal k col => exact (setPal s _ col).respond _
  | _ => exact ⟨rfl, rfl, rfl, rfl, rfl⟩

end SameWindow

/-- What an event makes of the window and the staging ring, from a state `u` that agrees with the one before it: FEED
stages its sample, COMPUTE slides the window, and every other event leaves both alone. -/
inductive WindowEvent (u : State) : Event → State → Prop
  | feed {j pick : Nat} (re im : F32) (x : Response) :
    WindowEvent u (.command j pick (.feed re im)) ((u.feedSample re im).respond x)
  | compute {j pick : Nat} (hcnt : u.cfg.seOv ≤ (u.se.stg.reader 0).cnt) :
    WindowEvent u (.command j pick .compute) (u.compute.respond .ack)
  | other {e : Event} {t : State} (hfeed : e.instr?.bind fedBy = none) (hcompute : e.instr? ≠ some .compute)
    (ht : SameWindow u t) : WindowEvent u e t

/-- Neither FEED nor COMPUTE names a reader (R112). -/
theorem not_spectral_of_held {i : Instr} {s : State} (h : heldIn i s = true) : fedBy i = none ∧ i ≠ .compute := by
  obtain ⟨r, hr, -⟩ := heldIn_iff.1 h
  cases i with
  | feed re im => cases hr
  | compute => cases hr
  | _ => exact ⟨rfl, by simp⟩

/-- Everything an event that raises no fault can do to the window and the staging ring. -/
theorem windowEvent_of_run {e : Event} {s : State} (hf : (e.run s).blk.faulted = false) :
    ∃ u, SameWindow s u ∧ WindowEvent u e (e.run s) := by
  cases e with
  | command j pick i =>
    refine ⟨s.select j pick, ⟨rfl, rfl, rfl, rfl, rfl⟩, ?_⟩
    have hexec := Event.run_command j pick i s
    obtain ⟨hheld, heq⟩ | ⟨hacc, hc⟩ := completed_or_held hexec hf
    · obtain ⟨hfeed, hcompute⟩ := not_spectral_of_held hheld
      rw [heq]
      exact .other hfeed (by simpa [Event.instr?] using hcompute) ⟨rfl, rfl, rfl, rfl, rfl⟩
    · cases i with
      | feed re im =>
        rw [Host.Outcome.next.inj (hexec.symm.trans (exec_feed hacc.1 re im))]
        exact .feed re im _
      | compute =>
        generalize (Event.command j pick .compute).run s = t at hc
        cases hc with
        | compute hcnt => exact .compute hcnt
        | answer hi => cases hi
        | draw hi => cases hi
      | _ => exact .other rfl (by simp [Event.instr?]) (.completed hc rfl (by simp))
  | beat r => exact ⟨s, .refl s, .other rfl (by simp [Event.instr?]) (.beat s r)⟩
  | pixel j pick => exact ⟨s, .refl s, .other rfl (by simp [Event.instr?]) (.pixelStep s j pick)⟩
  | sched => exact ⟨s, .refl s, .other rfl (by simp [Event.instr?]) (.sched s)⟩
  | panel ok => exact ⟨s, .refl s, .other rfl (by simp [Event.instr?]) (.complete s ok)⟩

/-! #### The samples fed and the COMPUTEs counted, event by event -/

theorem fedSamples_append (xs ys : List Event) : fedSamples (xs ++ ys) = fedSamples xs ++ fedSamples ys :=
  List.filterMap_append

theorem computeCount_append (xs ys : List Event) : computeCount (xs ++ ys) = computeCount xs + computeCount ys :=
  List.countP_append

theorem fedSamples_cons (e : Event) (rest : List Event) : fedSamples (e :: rest) = fedSamples [e] ++ fedSamples rest :=
  fedSamples_append [e] rest

theorem computeCount_cons (e : Event) (rest : List Event) :
    computeCount (e :: rest) = computeCount [e] + computeCount rest :=
  computeCount_append [e] rest

theorem fedSamples_of_none {e : Event} (h : e.instr?.bind fedBy = none) : fedSamples [e] = [] := by
  simp [fedSamples, h]

theorem computeCount_of_ne {e : Event} (h : e.instr? ≠ some .compute) : computeCount [e] = 0 := by
  simp [computeCount, h]

theorem neverDropsASample_append (xs ys : List Event) (s : State) : neverDropsASample (xs ++ ys) s =
    (neverDropsASample xs s && neverDropsASample ys (runEvents xs s)) := by
  induction xs generalizing s with
  | nil => rfl
  | cons e rest ih => simp only [List.cons_append, neverDropsASample, runEvents, ih, Bool.and_assoc]

end Sys2Proof.Machine

namespace Sys2Proof.Machine

/-! ### FEED's answer (R233, R234) -/

/-- COMPUTE leaves the phase alone. -/
theorem compute_phase (s : State) : s.compute.se.phase = s.se.phase := by
  have hrefill : s.shiftWindow.refill.se.phase = s.shiftWindow.se.phase :=
    forUpTo_induct State.refillOne s.shiftWindow (P := fun _ t => t.se.phase = s.shiftWindow.se.phase) _ rfl
      fun _ _ _ ht => ht
  simp only [State.compute, transform_se, window_se, hrefill, shiftWindow_se]

/-- The phase counts the `n` FEEDs so far (R56). -/
structure Phased (c : Config) (n : Nat) (s : State) : Prop where
  cfg : s.cfg = c
  phase : s.se.phase = n % c.seOv

namespace Phased

variable {c : Config} {n : Nat} {s t : State}

theorem sameWindow (h : Phased c n s) (ht : SameWindow s t) : Phased c n t :=
  ⟨ht.cfg.trans h.cfg, ht.se ▸ h.phase⟩

/-- The phase that a FEED would leave. -/
theorem nextPhase (h : Phased c n s) : s.nextPhase = (n + 1) % c.seOv := by
  rw [State.nextPhase, h.cfg, h.phase, Nat.mod_add_mod]

theorem event (h : Phased c n s) {e : Event} (hf : (e.run s).blk.faulted = false) :
    Phased c (n + (fedSamples [e]).length) (e.run s) := by
  obtain ⟨u, hu, hevent⟩ := windowEvent_of_run hf
  have h := h.sameWindow hu
  generalize e.run s = t at hevent
  cases hevent with
  | feed re im x => exact ⟨h.cfg, h.nextPhase⟩
  | compute hcnt =>
    have hcompute : Phased c n u.compute := ⟨(OnlySpectral.compute u).cfg.trans h.cfg, (compute_phase u).trans h.phase⟩
    exact hcompute.sameWindow ((SameWindow.refl _).respond _)
  | other hfeed _ ht =>
    rw [fedSamples_of_none hfeed]
    exact h.sameWindow ht

theorem run (h : Phased c n s) {events : List Event} (hf : (runEvents events s).blk.faulted = false) :
    Phased c (n + (fedSamples events).length) (runEvents events s) := by
  induction events generalizing n s with
  | nil => exact h
  | cons e rest ih =>
    have hrest := ih (h.event (not_faulted_of_runEvents hf)) hf
    rw [fedSamples_cons, List.length_append, ← Nat.add_assoc]
    exact hrest

end Phased

/-- Settles O36: the phase counts the FEEDs since reset, and FEED answers whether its new value is 0. -/
theorem feedAnswersTrueEveryOverlap : Obligations.FeedAnswersTrueEveryOverlap := by
  intro c events start j pick a re im _ hstart s hf ha
  obtain ⟨hcfg, -, -, hse, -, -⟩ := hstart
  have hphased : Phased c (0 + (fedSamples events).length) s :=
    Phased.run ⟨hcfg, by rw [hse]; exact (Nat.zero_mod _).symm⟩ hf
  refine ⟨_, exec_feed (s := s.select j pick) hf re im, ?_⟩
  have hanswer : (s.select j pick).nextPhase = ((fedSamples events).length + 1) % c.seOv := by
    rw [← Nat.zero_add (fedSamples events).length]
    exact hphased.nextPhase
  refine (State.agents_respond ..).trans ((if_pos rfl).trans ?_)
  rw [hanswer]
  exact congrArg (Option.map _) ha

end Sys2Proof.Machine

namespace Sys2Proof.Machine

/-! ### The samples in the window and in the staging ring (R241, R246) -/

/-- A packed sample as the pair that was fed (R241). -/
def unpackSample (e : Elem) : Cplx := (sampleRe e, sampleIm e)

theorem unpackSample_packSample (re im : F32) : unpackSample (packSample re im) = (re, im) :=
  Prod.ext BitVec.extractLsb'_append_eq_left BitVec.extractLsb'_append_eq_right

/-- The samples of `SE.X`, oldest first. -/
def State.windowSamples (s : State) : List Cplx :=
  (List.range s.cfg.seN).map fun n => (s.xElem (2 * n), s.xElem (2 * n + 1))

/-- The staged samples, oldest first. -/
def State.stagedSamples (s : State) : List Cplx :=
  (s.se.stg.slots s.cfg.seS 0).map fun a => unpackSample (s.stgElem a)

@[simp] theorem windowSamples_length (s : State) : s.windowSamples.length = s.cfg.seN := by
  simp [State.windowSamples]

@[simp] theorem stagedSamples_length (s : State) : s.stagedSamples.length = (s.se.stg.reader 0).cnt := by
  simp [State.stagedSamples]

theorem windowSamples_getElem {s : State} {n : Nat} (hn : n < s.windowSamples.length) :
    s.windowSamples[n] = (s.xElem (2 * n), s.xElem (2 * n + 1)) := by
  simp [State.windowSamples]

theorem stagedSamples_getElem {s : State} {j : Nat} (hj : j < s.stagedSamples.length) :
    s.stagedSamples[j] = unpackSample (s.staged j) := by
  simp [State.stagedSamples, Ring.slots, State.staged]

/-- Removing `k` elements takes their slots from the front. -/
theorem Ring.slots_drop {cap r k : Nat} {g g' : Ring} (hc : (g.reader r).cnt ≤ cap) (hwr : g'.wr = g.wr)
    (hcnt : (g.reader r).cnt = (g'.reader r).cnt + k) : g'.slots cap r = (g.slots cap r).drop k := by
  have haddr : g'.readAddr cap r = (g.readAddr cap r + k) % cap := by
    rw [readAddr_eq g r hc, readAddr_eq g' r (by omega), hwr, Nat.mod_add_mod]
    congr 1
    omega
  refine List.ext_getElem (by simp; omega) fun j hj hj' => ?_
  simp only [slots, List.getElem_drop, List.getElem_map, List.getElem_range, haddr, Nat.mod_add_mod]
  congr 1
  omega

/-- Any number of elements may be taken from a port that is in no burst. -/
theorem ReaderInv.dropMany {p : RingParams} {q : Reader} (h : ReaderInv p q) (hbr : q.br = 0) (k : Nat) :
    ReaderInv p { q with cnt := q.cnt - k } where
  cnt_le := (Nat.sub_le _ _).trans h.cnt_le
  br_le := hbr.trans_le (Nat.zero_le _)
  unattached hatt := by
    obtain ⟨hcnt, hbr, hdrops⟩ := h.unattached hatt
    exact ⟨by simp [hcnt], hbr, hdrops⟩
  no_counter := h.no_counter
  drops_lt := h.drops_lt

section
variable {s : State}

/-- FEED adds its sample at the end, where there is room (R232). -/
theorem stagedSamples_feedSample (h : StagingInv s)
    (hroom : (s.se.stg.reader 0).cnt < s.cfg.seS) (re im : F32) :
    (s.feedSample re im).stagedSamples = s.stagedSamples ++ [(re, im)] := by
  have hslots : (s.feedSample re im).se.stg.slots s.cfg.seS 0 = s.se.stg.slots s.cfg.seS 0 ++ [s.se.stg.wr] := by
    have happend := Ring.slots_append (h.ring.reader 0) h.ring.wr_lt h.att
    rwa [show (s.se.stg.reader 0).cnt + 1 - (stgParams s.cfg).cap = 0 from Nat.sub_eq_zero_of_le hroom,
      List.drop_zero] at happend
  have hnew : ∀ a, (s.feedSample re im).stgElem a = if a = s.se.stg.wr then packSample re im else s.stgElem a :=
    fun a => s.stgElem_setStgElem s.se.stg.wr a (packSample re im)
  -- the cursor's slot is none of the others that are still to be read
  have hnodup : ((s.feedSample re im).se.stg.slots s.cfg.seS 0).Nodup :=
    Ring.slots_nodup (h.ring.append.reader 0).cnt_le
  rw [hslots, List.nodup_append] at hnodup
  obtain ⟨-, -, hdisjoint⟩ := hnodup
  have hcfg : (s.feedSample re im).cfg = s.cfg := rfl
  rw [State.stagedSamples, hcfg, hslots, List.map_append, List.map_singleton, hnew, if_pos rfl,
    unpackSample_packSample]
  congr 1
  refine List.map_congr_left fun a ha => ?_
  rw [hnew, if_neg (hdisjoint a ha _ (List.mem_singleton_self _))]

theorem reader_feedSample (re im : F32) :
    (s.feedSample re im).se.stg.reader 0 = Reader.onAppend (stgParams s.cfg) (s.se.stg.reader 0) :=
  Ring.reader_append ..

theorem StagingInv.feedSample (h : StagingInv s) (re im : F32) : StagingInv (s.feedSample re im) where
  ring := h.ring.append
  att := by rw [reader_feedSample, Reader.onAppend_att, h.att]
  free := by rw [reader_feedSample, Reader.onAppend_br, h.free]

theorem windowSamples_feedSample (re im : F32) : (s.feedSample re im).windowSamples = s.windowSamples := rfl

variable (h : StagingInv s) (hcnt : s.cfg.seOv ≤ (s.se.stg.reader 0).cnt)
include h hcnt

theorem reader_compute :
    s.compute.se.stg.reader 0 = { s.se.stg.reader 0 with cnt := (s.se.stg.reader 0).cnt - s.cfg.seOv } := by
  rw [compute_se h hcnt]
  exact Ring.reader_onReader_same _ _ _ h.port_lt

theorem StagingInv.compute : StagingInv s.compute where
  ring := by
    rw [(OnlySpectral.compute s).cfg, compute_se h hcnt]
    exact h.ring.onReader 0 _ fun _ => (h.ring.reader 0).dropMany h.free s.cfg.seOv
  att := by rw [reader_compute h hcnt]; exact h.att
  free := by rw [reader_compute h hcnt]; exact h.free

/-- COMPUTE takes the `SE_OV` oldest staged samples (R241). -/
theorem stagedSamples_compute : s.compute.stagedSamples = s.stagedSamples.drop s.cfg.seOv := by
  have hslots : s.compute.se.stg.slots s.cfg.seS 0 = (s.se.stg.slots s.cfg.seS 0).drop s.cfg.seOv :=
    Ring.slots_drop (h.ring.reader 0).cnt_le (by rw [compute_se h hcnt]; rfl)
      (by rw [reader_compute h hcnt]; simp only; omega)
  have hcfg : s.compute.cfg = s.cfg := (OnlySpectral.compute s).cfg
  have hdata : s.compute.stgElem = s.stgElem := by
    funext a
    rw [State.stgElem, State.stgElem, (OnlySpectral.compute s).mem, (OnlySpectral.compute s).env]
  rw [State.stagedSamples, hcfg, hslots, hdata, List.map_drop, State.stagedSamples]

/-- COMPUTE shifts the window and fills its tail from the staging ring (R240, R241). -/
theorem windowSamples_compute (hov : s.cfg.seOv ≤ s.cfg.seN) :
    s.compute.windowSamples = s.windowSamples.drop s.cfg.seOv ++ s.stagedSamples.take s.cfg.seOv := by
  have hcfg : s.compute.cfg = s.cfg := (OnlySpectral.compute s).cfg
  refine List.ext_getElem (by simp [hcfg]; omega) fun n hn hn' => ?_
  rw [windowSamples_length, hcfg] at hn
  rw [windowSamples_getElem]
  by_cases hkept : n < s.cfg.seN - s.cfg.seOv
  · rw [List.getElem_append_left (by simpa using hkept), List.getElem_drop, windowSamples_getElem,
      compute_x_shifted h hcnt (by omega), compute_x_shifted h hcnt (by omega)]
    rw [show 2 * n + 2 * s.cfg.seOv = 2 * (s.cfg.seOv + n) by omega,
      show 2 * n + 1 + 2 * s.cfg.seOv = 2 * (s.cfg.seOv + n) + 1 by omega]
  · obtain ⟨j, rfl⟩ := Nat.exists_eq_add_of_le (not_lt.1 hkept)
    obtain ⟨hre, him⟩ := compute_x_refilled h hcnt (j := j) (by omega)
    rw [List.getElem_append_right (by simp), List.getElem_take, stagedSamples_getElem, hre, him]
    simp [unpackSample]

/-- Seen as one sequence, window and staged samples lose their `SE_OV` oldest. -/
theorem samples_compute (hov : s.cfg.seOv ≤ s.cfg.seN) : s.compute.windowSamples ++ s.compute.stagedSamples =
    (s.windowSamples ++ s.stagedSamples).drop s.cfg.seOv := by
  rw [windowSamples_compute h hcnt hov, stagedSamples_compute h hcnt, List.append_assoc, List.take_append_drop,
    List.drop_append_of_le_length (by rwa [windowSamples_length])]

end

end Sys2Proof.Machine

namespace Sys2Proof.Machine

/-! ### The sliding-window law (R246) -/

/-- The samples behind the window: `SE_N` zeros, then what was fed. -/
def sampleHistory (c : Config) (fed : List Cplx) : List Cplx := List.replicate c.seN (0#32, 0#32) ++ fed

theorem sampleHistory_getD (c : Config) (fed : List Cplx) (k : Nat) : (sampleHistory c fed).getD k (0#32, 0#32) =
    if c.seN ≤ k then fed.getD (k - c.seN) (0#32, 0#32) else (0#32, 0#32) := by
  unfold sampleHistory
  split_ifs with hk
  · rw [List.getD_append_right _ _ _ _ (by rwa [List.length_replicate]), List.length_replicate]
  · rw [List.getD_append _ _ _ _ (by rw [List.length_replicate]; omega), List.getD_replicate _ (by omega)]

/-- After the samples `fed` and `m` COMPUTEs, window and staged samples together are the history without its
`m * SE_OV` oldest: the window slides along it. -/
structure Sliding (c : Config) (fed : List Cplx) (m : Nat) (s : State) : Prop where
  cfg : s.cfg = c
  staging : StagingInv s
  samples : s.windowSamples ++ s.stagedSamples = (sampleHistory c fed).drop (m * c.seOv)

namespace SameWindow

variable {s t : State}

theorem staging (ht : SameWindow s t) (h : StagingInv s) : StagingInv t where
  ring := by rw [ht.cfg, ht.se]; exact h.ring
  att := by rw [ht.se]; exact h.att
  free := by rw [ht.se]; exact h.free

theorem windowSamples (ht : SameWindow s t) : t.windowSamples = s.windowSamples := by
  unfold State.windowSamples State.xElem
  rw [ht.cfg, ht.x]

theorem stagedSamples (ht : SameWindow s t) : t.stagedSamples = s.stagedSamples := by
  unfold State.stagedSamples State.stgElem
  rw [ht.cfg, ht.se, ht.stgData, ht.resets]

end SameWindow

/-- Nothing fed, nothing staged, a window of zeros (R381). -/
theorem sliding_of_reset {c : Config} {start : State} (hc : c.valid = true)
    (hstart : SameBlock (State.resetWith c) start) : Sliding c [] 0 start := by
  obtain ⟨hcfg, hmem, -, hse, -, -⟩ := hstart
  have hreset := (BlockInv.resetWith hc).staging
  refine ⟨hcfg, ⟨?_, ?_, ?_⟩, ?_⟩
  · rw [hcfg, hse]; exact hreset.ring
  · rw [hse]; exact hreset.att
  · rw [hse]; exact hreset.free
  · have hstaged : start.stagedSamples = [] :=
      List.eq_nil_of_length_eq_zero (by rw [stagedSamples_length, hse]; rfl)
    have hzero : ∀ i, start.xElem i = 0#32 := fun i => by rw [State.xElem, hmem]; rfl
    have hcfg' : start.cfg = c := hcfg
    rw [hstaged, State.windowSamples, hcfg']
    simp [hzero, sampleHistory]

namespace Sliding

variable {c : Config} {fed : List Cplx} {m : Nat} {s t : State}

theorem sameWindow (h : Sliding c fed m s) (ht : SameWindow s t) : Sliding c fed m t where
  cfg := ht.cfg.trans h.cfg
  staging := ht.staging h.staging
  samples := by rw [ht.windowSamples, ht.stagedSamples, h.samples]

/-- What was fed has been consumed or is still staged. -/
theorem count (h : Sliding c fed m s) (hN : 0 < c.seN) : m * c.seOv + (s.se.stg.reader 0).cnt = fed.length := by
  have hlength := congrArg List.length h.samples
  simp only [List.length_append, windowSamples_length, stagedSamples_length, List.length_drop, sampleHistory,
    List.length_replicate, h.cfg] at hlength
  omega

theorem feed (h : Sliding c fed m s) (hN : 0 < c.seN) (hroom : (s.se.stg.reader 0).cnt < s.cfg.seS) (re im : F32) :
    Sliding c (fed ++ [(re, im)]) m (s.feedSample re im) where
  cfg := h.cfg
  staging := h.staging.feedSample re im
  samples := by
    have hconsumed : m * c.seOv ≤ (sampleHistory c fed).length := by
      rw [sampleHistory, List.length_append, ← h.count hN]
      omega
    rw [windowSamples_feedSample, stagedSamples_feedSample h.staging hroom, ← List.append_assoc, h.samples,
      ← List.drop_append_of_le_length hconsumed]
    simp only [sampleHistory, List.append_assoc]

theorem compute (h : Sliding c fed m s) (hov : c.seOv ≤ c.seN) (hcnt : s.cfg.seOv ≤ (s.se.stg.reader 0).cnt) :
    Sliding c fed (m + 1) s.compute where
  cfg := (OnlySpectral.compute s).cfg.trans h.cfg
  staging := h.staging.compute hcnt
  samples := by
    rw [samples_compute h.staging hcnt (by rwa [h.cfg]), h.samples, h.cfg, List.drop_drop, Nat.succ_mul]

theorem event (h : Sliding c fed m s) (hc : c.valid = true) {e : Event} (hf : (e.run s).blk.faulted = false)
    (hroom : (e.instr?.bind fedBy).isNone = true ∨ (s.se.stg.reader 0).cnt < s.cfg.seS) :
    Sliding c (fed ++ fedSamples [e]) (m + computeCount [e]) (e.run s) := by
  have hbounds := configBounds_of_valid hc
  have hov := hbounds.seOv_lt
  obtain ⟨u, hu, hevent⟩ := windowEvent_of_run hf
  rw [← hu.se, ← hu.cfg] at hroom
  have h := h.sameWindow hu
  generalize e.run s = t at hevent
  cases hevent with
  | feed re im x =>
    have hfeed := h.feed (by omega) (hroom.resolve_left (by simp [Event.instr?, fedBy])) re im
    exact hfeed.sameWindow ((SameWindow.refl _).respond x)
  | compute hcnt =>
    rw [fedSamples_of_none rfl, List.append_nil]
    exact (h.compute hov.le hcnt).sameWindow ((SameWindow.refl _).respond _)
  | other hfeed hcompute ht =>
    rw [fedSamples_of_none hfeed, computeCount_of_ne hcompute, List.append_nil]
    exact h.sameWindow ht

theorem run (h : Sliding c fed m s) (hc : c.valid = true) {events : List Event}
    (hf : (runEvents events s).blk.faulted = false) (hroom : neverDropsASample events s = true) :
    Sliding c (fed ++ fedSamples events) (m + computeCount events) (runEvents events s) := by
  induction events generalizing fed m s with
  | nil => rw [fedSamples, List.filterMap_nil, List.append_nil]; exact h
  | cons e rest ih =>
    simp only [neverDropsASample, Bool.and_eq_true, Bool.or_eq_true, decide_eq_true_eq] at hroom
    obtain ⟨hfirst, hrest⟩ := hroom
    have hrun := ih (h.event hc (not_faulted_of_runEvents hf) hfirst) hf hrest
    rw [fedSamples_cons, computeCount_cons, ← List.append_assoc, ← Nat.add_assoc]
    exact hrun

/-- Window and staged samples by their numbers: those before the first are zeros. -/
theorem sample (h : Sliding c fed m s) (k : Nat) : (s.windowSamples ++ s.stagedSamples).getD k (0#32, 0#32) =
    if c.seN ≤ m * c.seOv + k then fed.getD (m * c.seOv + k - c.seN) (0#32, 0#32) else (0#32, 0#32) := by
  rw [← sampleHistory_getD, h.samples, List.getD_eq_getElem?_getD, List.getElem?_drop, ← List.getD_eq_getElem?_getD]

theorem window (h : Sliding c fed m s) {n : Nat} (hn : n < c.seN) : (s.xElem (2 * n), s.xElem (2 * n + 1)) =
    if c.seN ≤ m * c.seOv + n then fed.getD (m * c.seOv + n - c.seN) (0#32, 0#32) else (0#32, 0#32) := by
  have hlt : n < s.windowSamples.length := by rwa [windowSamples_length, h.cfg]
  rw [← h.sample, List.getD_append _ _ _ _ hlt, List.getD_eq_getElem _ _ hlt, windowSamples_getElem]

theorem staged (h : Sliding c fed m s) {j : Nat} (hj : j < (s.se.stg.reader 0).cnt) :
    unpackSample (s.staged j) = fed.getD (m * c.seOv + j) (0#32, 0#32) := by
  have hlt : j < s.stagedSamples.length := by rwa [stagedSamples_length]
  have hsample := h.sample (c.seN + j)
  rw [if_pos (by omega), show m * c.seOv + (c.seN + j) - c.seN = m * c.seOv + j by omega,
    List.getD_append_right _ _ _ _ (by rw [windowSamples_length, h.cfg]; omega), windowSamples_length, h.cfg,
    Nat.add_sub_cancel_left, List.getD_eq_getElem _ _ hlt, stagedSamples_getElem] at hsample
  exact hsample

end Sliding

end Sys2Proof.Machine

namespace Sys2Proof.Machine

/-! ### The cadence of R257: `SE_OV` FEEDs, then COMPUTE -/

/-- The FEEDs of the samples `zs`. -/
def feeds (zs : List Cplx) : List Instr := zs.map fun z => .feed z.1 z.2

/-- The samples of round `b` of the stream. -/
def roundSamples (c : Config) (sample : Nat → Cplx) (b : Nat) : List Cplx :=
  (List.range c.seOv).map fun j => sample (b * c.seOv + j)

theorem slidingProgram_succ (c : Config) (sample : Nat → Cplx) (m : Nat) :
    slidingProgram c sample (m + 1) = slidingProgram c sample m ++ (feeds (roundSamples c sample m) ++ [.compute]) := by
  simp [slidingProgram, List.range_succ, feeds, roundSamples, Function.comp_def]

/-- `k` samples of a round are staged and the next command of the cadence can be performed: a FEED finds room, and the
COMPUTE after `SE_OV` of them finds the engine armed (R234). -/
structure InRound (c : Config) (k : Nat) (s : State) : Prop where
  cfg : s.cfg = c
  unfaulted : s.blk.faulted = false
  staging : StagingInv s
  cnt : (s.se.stg.reader 0).cnt = k
  phase : s.se.phase = k % c.seOv
  armed : k = c.seOv → s.se.armed = true

namespace InRound

variable {c : Config} {k : Nat} {s t : State}

theorem sameWindow (h : InRound c k s) (ht : SameWindow s t) (hblk : t.blk = s.blk) : InRound c k t where
  cfg := ht.cfg.trans h.cfg
  unfaulted := hblk ▸ h.unfaulted
  staging := ht.staging h.staging
  cnt := ht.se ▸ h.cnt
  phase := ht.se ▸ h.phase
  armed := ht.se ▸ h.armed

theorem select (h : InRound c k s) (j pick : Nat) : InRound c k (s.select j pick) :=
  h.sameWindow ⟨rfl, rfl, rfl, rfl, rfl⟩ rfl

theorem respond (h : InRound c k s) (x : Response) : InRound c k (s.respond x) :=
  h.sameWindow ((SameWindow.refl s).respond x) rfl

theorem of_reset {start : State} (hc : c.valid = true) (hstart : SameBlock (State.resetWith c) start) :
    InRound c 0 start := by
  have hstaging := (sliding_of_reset hc hstart).staging
  have hov := (configBounds_of_valid hc).seOv_pos
  obtain ⟨hcfg, -, -, hse, -, hblk⟩ := hstart
  refine ⟨hcfg, by rw [hblk]; rfl, hstaging, by rw [hse]; rfl, ?_, fun hk => by omega⟩
  rw [hse, Nat.zero_mod]
  rfl

/-- A FEED of the round finds room, and the last one arms (R233). -/
theorem feedSample (h : InRound c k s) (hk : k < c.seS) (re im : F32) : InRound c (k + 1) (s.feedSample re im) where
  cfg := h.cfg
  unfaulted := h.unfaulted
  staging := h.staging.feedSample re im
  cnt := by
    have hroom : (s.se.stg.reader 0).cnt < (stgParams s.cfg).cap := by rw [h.cnt, h.cfg]; exact hk
    rw [reader_feedSample, Reader.onAppend_cnt, if_pos ⟨h.staging.att, hroom⟩, h.cnt]
  phase := Phased.nextPhase ⟨h.cfg, h.phase⟩
  armed hlast := by
    have hnext : s.nextPhase = 0 := by
      rw [Phased.nextPhase ⟨h.cfg, h.phase⟩, hlast, Nat.mod_self]
    change (s.se.armed || decide (s.nextPhase = 0)) = true
    simp [hnext]

theorem compute (h : InRound c c.seOv s) (hov : 0 < c.seOv) : InRound c 0 s.compute := by
  have hcnt : s.cfg.seOv ≤ (s.se.stg.reader 0).cnt := by rw [h.cnt, h.cfg]
  have honly := OnlySpectral.compute s
  refine ⟨honly.cfg.trans h.cfg, by rw [honly.blk]; exact h.unfaulted, h.staging.compute hcnt, ?_, ?_,
    fun hk => by omega⟩
  · rw [reader_compute h.staging hcnt]
    simp only [h.cnt, h.cfg, Nat.sub_self]
  · rw [compute_phase, h.phase, Nat.mod_self, Nat.zero_mod]

variable {j pick : Nat}

theorem run_feed (h : InRound c k s) (hk : k < c.seS) (z : Cplx) :
    InRound c (k + 1) ((Event.command j pick (.feed z.1 z.2)).run s) := by
  have hselect := h.select j pick
  rw [Event.run, exec_feed hselect.unfaulted]
  exact (hselect.feedSample hk _ _).respond _

theorem run_compute (h : InRound c c.seOv s) (hov : 0 < c.seOv) :
    InRound c 0 ((Event.command j pick .compute).run s) := by
  have hselect := h.select j pick
  rw [Event.run, exec_compute hselect.unfaulted (hselect.armed rfl) (by rw [hselect.cnt, hselect.cfg])]
  exact (hselect.compute hov).respond _

theorem run_feeds (h : InRound c k s) {zs : List Cplx} (hroom : k + zs.length ≤ c.seS) :
    InRound c (k + zs.length) (runEvents ((feeds zs).map (.command j pick)) s) ∧
    neverDropsASample ((feeds zs).map (.command j pick)) s = true := by
  induction zs generalizing k s with
  | nil => exact ⟨h, rfl⟩
  | cons z rest ih =>
    rw [List.length_cons] at hroom ⊢
    obtain ⟨hround, hrest⟩ := ih (h.run_feed (j := j) (pick := pick) (by omega) z) (by omega)
    refine ⟨by rw [← Nat.add_assoc, Nat.add_right_comm]; exact hround, ?_⟩
    have hfirst : (s.se.stg.reader 0).cnt < s.cfg.seS := by rw [h.cnt, h.cfg]; omega
    simp only [feeds, List.map_cons, neverDropsASample, hfirst, decide_true, Bool.or_true, Bool.true_and]
    exact hrest

/-- A round of the cadence stages `SE_OV` samples and consumes them. -/
theorem run_round (h : InRound c 0 s) (hc : c.valid = true) {zs : List Cplx} (hzs : zs.length = c.seOv) :
    InRound c 0 (runEvents ((feeds zs ++ [Instr.compute]).map (.command j pick)) s) ∧
    neverDropsASample ((feeds zs ++ [Instr.compute]).map (.command j pick)) s = true := by
  have hbounds := configBounds_of_valid hc
  obtain ⟨hround, hdrops⟩ := h.run_feeds (j := j) (pick := pick) (zs := zs)
    (by rw [hzs, Nat.zero_add]; exact hbounds.seOv_le)
  rw [hzs, Nat.zero_add] at hround
  rw [List.map_append, runEvents_append, neverDropsASample_append, hdrops, Bool.true_and]
  exact ⟨hround.run_compute hbounds.seOv_pos, rfl⟩

theorem run_slidingProgram (h : InRound c 0 s) (hc : c.valid = true) (sample : Nat → Cplx) (m : Nat) :
    InRound c 0 (runEvents ((slidingProgram c sample m).map (.command j pick)) s) ∧
    neverDropsASample ((slidingProgram c sample m).map (.command j pick)) s = true := by
  induction m with
  | zero => exact ⟨h, rfl⟩
  | succ m ih =>
    obtain ⟨hround, hdrops⟩ := ih
    rw [slidingProgram_succ, List.map_append, runEvents_append, neverDropsASample_append, hdrops, Bool.true_and]
    exact hround.run_round hc (by simp [roundSamples])

end InRound

/-! #### What the cadence feeds and how often it computes -/

section
variable (j pick : Nat)

theorem samples_of_feeds (zs : List Cplx) : fedSamples ((feeds zs).map (.command j pick)) = zs ∧
    computeCount ((feeds zs).map (.command j pick)) = 0 := by
  induction zs with
  | nil => exact ⟨rfl, rfl⟩
  | cons z rest ih =>
    obtain ⟨hfed, hcount⟩ := ih
    simp only [feeds, List.map_cons] at hfed hcount ⊢
    rw [fedSamples_cons, computeCount_cons, hfed, hcount]
    exact ⟨rfl, computeCount_of_ne (e := .command j pick (.feed z.1 z.2)) (by simp [Event.instr?])⟩

theorem samples_of_slidingProgram (c : Config) (sample : Nat → Cplx) (m : Nat) :
    computeCount ((slidingProgram c sample m).map (.command j pick)) = m ∧
    fedSamples ((slidingProgram c sample m).map (.command j pick)) = (List.range (m * c.seOv)).map sample := by
  induction m with
  | zero => exact ⟨rfl, by rw [Nat.zero_mul]; rfl⟩
  | succ m ih =>
    obtain ⟨hcount, hfed⟩ := ih
    obtain ⟨hfed', hcount'⟩ := samples_of_feeds j pick (roundSamples c sample m)
    rw [slidingProgram_succ, List.map_append, List.map_append, computeCount_append, computeCount_append,
      fedSamples_append, fedSamples_append, hcount, hcount', hfed, hfed', Nat.succ_mul, List.range_add, List.map_append,
      List.map_map]
    exact ⟨rfl, congrArg _ (List.append_nil _)⟩

end

/-- Settles O39: window and staged samples slide along the history of what was fed, on every run that drops nothing; and
the cadence is such a run. -/
theorem windowHoldsTheLastSamples : Obligations.WindowHoldsTheLastSamples := by
  intro c start hc hstart
  refine ⟨fun events hf hroom => ?_, fun sample m j pick => ?_⟩
  · have hsliding := (sliding_of_reset hc hstart).run hc hf hroom
    rw [List.nil_append, Nat.zero_add] at hsliding
    have hN : 0 < c.seN := Nat.zero_lt_of_lt (configBounds_of_valid hc).seOv_lt
    exact ⟨hsliding.count hN, fun j hj => hsliding.staged hj, fun n hn => hsliding.window hn⟩
  · obtain ⟨hround, hdrops⟩ := (InRound.of_reset hc hstart).run_slidingProgram (j := j) (pick := pick) hc sample m
    exact ⟨hround.unfaulted, hdrops, samples_of_slidingProgram j pick c sample m⟩

end Sys2Proof.Machine

namespace Sys2Proof.Machine

/-! ### The one-step commands of unit FB (R285, R297 to R301) -/

section
variable {s : State}

/-- PIXEL is never held and never faults (R112, R342). -/
theorem exec_pixel (hf : s.blk.faulted = false) (x y : BitVec 16) (c : Byte) :
    exec (.pixel x y c) s = .next (State.respond .ack
      (if Plot.inside s.cfg ⟨x.toInt, y.toInt, c⟩ then s.setPixel ⟨x.toInt.toNat, y.toInt.toNat, c⟩ else s)) :=
  accept_of_accepted ⟨hf, rfl, rfl⟩

theorem exec_setpal_pinned (hf : s.blk.faulted = false) {k : BitVec 8} (col : Color) (hk : k.toNat < 2) :
    exec (.setpal k col) s = .next (s.raiseFault (0x27#8 ++ k) .palettePinned) :=
  (accept_of_accepted ⟨hf, rfl, rfl⟩).trans (if_pos hk)

theorem exec_setpal (hf : s.blk.faulted = false) {k : BitVec 8} (col : Color) (hk : 2 ≤ k.toNat) :
    exec (.setpal k col) s = .next ((s.setPal k.toNat col).respond .ack) :=
  (accept_of_accepted ⟨hf, rfl, rfl⟩).trans (if_neg (not_lt.2 hk))

theorem exec_update (hf : s.blk.faulted = false) :
    exec .update s = .next ({ s with fb := s.fb.update }.respond .ack) :=
  accept_of_accepted ⟨hf, rfl, rfl⟩

theorem exec_ready (hf : s.blk.faulted = false) : exec .ready s = .next (s.respond (.bool (!s.inFlight))) :=
  accept_of_accepted ⟨hf, rfl, rfl⟩

end

theorem plot_inside_iff {c : Config} {p : Plot} :
    p.inside c = true ↔ 0 ≤ p.x ∧ p.x < c.fbW ∧ 0 ≤ p.y ∧ p.y < c.fbH := decide_eq_true_iff

/-- A write to one pixel of the framebuffer, seen from any other. -/
theorem pixel_setPixel (s : State) {p : PixelWrite} {x y : Nat} (hx : x < s.cfg.fbW) (hp : p.x < s.cfg.fbW) :
    (s.setPixel p).pixel x y = if x = p.x ∧ y = p.y then p.c else s.pixel x y := by
  have hindex : pixIndex s.cfg x y = pixIndex s.cfg p.x p.y ↔ x = p.x ∧ y = p.y :=
    ⟨pixIndex_inj hx hp, fun ⟨h1, h2⟩ => by rw [h1, h2]⟩
  simp only [State.pixel, State.setPixel_mem, State.setPixel_cfg, readPix_set, hindex]

/-- Settles O46: PIXEL is one write to the framebuffer where the point lies in it, and none where it does not. -/
theorem pixelWritesOnePixel : Obligations.PixelWritesOnePixel := by
  intro x y c s hf
  refine ⟨_, exec_pixel hf x y c, ?_⟩
  by_cases hin : Plot.inside s.cfg ⟨x.toInt, y.toInt, c⟩ = true
  · have hbounds := plot_inside_iff.1 hin
    dsimp only at hbounds
    rw [if_pos hin]
    refine ⟨⟨rfl, rfl, rfl, rfl, rfl, rfl⟩, rfl, fun px py hpx _ => ?_, fun hout => absurd hbounds hout⟩
    refine (pixel_setPixel s (p := ⟨x.toInt.toNat, y.toInt.toNat, c⟩) hpx (by simp only; omega)).trans ?_
    exact if_congr (by simp only; omega) rfl rfl
  · have hout := mt plot_inside_iff.2 hin
    dsimp only at hout
    rw [if_neg hin]
    exact ⟨⟨rfl, rfl, rfl, rfl, rfl, rfl⟩, rfl, fun px py hpx hpy => (if_neg (by omega)).symm, fun _ => rfl⟩

/-- Settles O50: entries 0 and 1 fail SETPAL's check; any other is one write to the palette. -/
theorem setpalWritesOneEntry : Obligations.SetpalWritesOneEntry := by
  intro k col s hf
  refine ⟨fun hk => exec_setpal_pinned hf col (by omega), fun hk => ⟨_, exec_setpal hf col hk, ?_⟩⟩
  have hmem : (s.setPal k.toNat col).mem = { s.mem with pal := (s.setPal k.toNat col).mem.pal } := by
    rw [s.setPal_mem _ _ hk]
  exact ⟨by simp [Answered], by simp, by simp, by simp, by simp, by simp, hmem,
    fun i => s.palEntry_setPal k.toNat i col hk⟩

/-- Settles O51: what UPDATE makes of the registers is one case per state of the pipeline. -/
theorem updateRequestsAFrame : Obligations.UpdateRequestsAFrame := by
  intro s hf
  refine ⟨_, exec_update hf, rfl, ⟨rfl, rfl, rfl, rfl, rfl⟩, ?_⟩
  simp only [State.respond_fb, DisplayRegs.update]
  cases hst : s.fb.st <;> simp

/-- Settles O52: READY only answers, and the in-flight flag is off in IDLE alone (R66). -/
theorem readyAnswersIdle : Obligations.ReadyAnswersIdle := fun s hf =>
  ⟨_, exec_ready hf, ⟨rfl, rfl, rfl, rfl, rfl, rfl⟩, by simp [Answered, State.inFlight]⟩

end Sys2Proof.Machine

namespace Sys2Proof.Machine

/-! ### CIRCLE's loop (R288, R289) -/

/-- Passes left over plot nothing: `y` rises by one in each pass and `x` never does. -/
theorem circleLoop_add {xc yc x y : Int} {c : Byte} {fuel : Nat} (extra : Nat) (d : Int) (h : x < y + fuel) :
    circleLoop xc yc c (fuel + extra) x y d = circleLoop xc yc c fuel x y d := by
  induction fuel generalizing x y d with
  | zero =>
    cases extra with
    | zero => rfl
    | succ extra => rw [Nat.zero_add, circleLoop, circleLoop, if_neg (by omega)]
  | succ fuel ih =>
    rw [Nat.add_right_comm, circleLoop, circleLoop]
    simp only [ih (x := x) (y := y + 1) _ (by omega), ih (x := x - 1) (y := y + 1) _ (by omega)]

/-- Settles O47: `RAD + 1` passes take `y` from 0 past every `x` the loop can have. -/
theorem circleLoopRunsToItsEnd : Obligations.CircleLoopRunsToItsEnd := fun _ _ rad extra _ =>
  circleLoop_add extra (1 - (rad : Int)) (by omega)

/-- The points of one pass are those whose distances from the centre along the axes are `|a|` and `|b|`, in one order or
the other. -/
theorem mem_octants {xc yc a b x y : Int} {c d : Byte} :
    (⟨xc + x, yc + y, d⟩ : Plot) ∈ octants xc yc a b c ↔
      d = c ∧ ((|x| = |a| ∧ |y| = |b|) ∨ (|x| = |b| ∧ |y| = |a|)) := by
  simp only [octants, List.mem_cons, List.not_mem_nil, or_false, Plot.mk.injEq, abs_eq_abs]
  by_cases hd : d = c
  · simp only [hd, and_true, true_and]; omega
  · simp only [hd, and_false, false_and, or_false]

theorem circlePlots_zero (xc yc : Int) (c : Byte) : circlePlots xc yc 0 c = octants xc yc 0 0 c := by
  simp [circlePlots, circleLoop]

theorem circlePlots_one (xc yc : Int) (c : Byte) : circlePlots xc yc 1 c = octants xc yc 1 0 c := by
  simp [circlePlots, circleLoop]

theorem circlePlots_two (xc yc : Int) (c : Byte) :
    circlePlots xc yc 2 c = octants xc yc 2 0 c ++ octants xc yc 2 1 c := by
  simp [circlePlots, circleLoop]

/-- Settles O48: radius 0 and 1 take one pass of the loop, radius 2 takes two. -/
theorem smallCircles : Obligations.SmallCircles := by
  intro xc yc x y c d
  have hx : x = 0 ↔ |x| = 0 := abs_eq_zero.symm
  have hy : y = 0 ↔ |y| = 0 := abs_eq_zero.symm
  have hx0 := abs_nonneg x
  have hy0 := abs_nonneg y
  have habs : |(0 : Int)| = 0 ∧ |(1 : Int)| = 1 ∧ |(2 : Int)| = 2 := by decide
  rw [circlePlots_zero, circlePlots_one, circlePlots_two, List.mem_append, mem_octants, mem_octants, mem_octants,
    mem_octants, habs.1, habs.2.1, habs.2.2, hx, hy, ← and_or_left (a := d = c)]
  refine ⟨and_congr_right fun _ => ?_, and_congr_right fun _ => ?_, and_congr_right fun _ => ?_⟩ <;> omega

end Sys2Proof.Machine

namespace Sys2Proof.Machine

/-! ### The `plot` calls of each drawing command (R284 to R292) -/

section
variable {p : Plot}

theorem mem_clearPlots {c : Config} :
    p ∈ clearPlots c ↔ ∃ y < c.fbH, ∃ x < c.fbW, p = ⟨(x : Int), (y : Int), 0#8⟩ := by
  simp only [clearPlots, List.mem_flatMap, List.mem_map, List.mem_range, eq_comm (a := p)]

theorem mem_hlinePlots {x y : Int} {len : Nat} {c : Byte} :
    p ∈ hlinePlots x y len c ↔ ∃ i < len, p = ⟨x + (i : Int), y, c⟩ := by
  simp only [hlinePlots, List.mem_map, List.mem_range, eq_comm (a := p)]

theorem mem_vlinePlots {x y : Int} {len : Nat} {c : Byte} :
    p ∈ vlinePlots x y len c ↔ ∃ i < len, p = ⟨x, y + (i : Int), c⟩ := by
  simp only [vlinePlots, List.mem_map, List.mem_range, eq_comm (a := p)]

theorem mem_blitPlots {x y : Int} {bw bh : Nat} {data : List Byte} :
    p ∈ blitPlots x y bw bh data ↔
      ∃ j < bh, ∃ i < bw, p = ⟨x + (i : Int), y + (j : Int), data.getD (j * bw + i) 0#8⟩ := by
  simp only [blitPlots, List.mem_flatMap, List.mem_map, List.mem_range, eq_comm (a := p)]

theorem mem_vscrollPlots {s : State} :
    p ∈ s.vscrollPlots ↔ ∃ y < s.cfg.fbH - 1, ∃ x < s.cfg.fbW, p = ⟨(x : Int), (y : Int), s.pixel x (y + 1)⟩ := by
  simp only [State.vscrollPlots, List.mem_flatMap, List.mem_map, List.mem_range, eq_comm (a := p)]

/-- Every point of one pass has the command's colour. -/
theorem color_of_mem_octants {xc yc x y : Int} {c : Byte} (h : p ∈ octants xc yc x y c) : p.c = c := by
  simp only [octants, List.mem_cons, List.not_mem_nil, or_false] at h
  obtain rfl | rfl | rfl | rfl | rfl | rfl | rfl | rfl := h <;> rfl

/-- Every point of a circle has the command's colour. -/
theorem color_of_mem_circleLoop {xc yc x y d : Int} {c : Byte} {fuel : Nat} (h : p ∈ circleLoop xc yc c fuel x y d) :
    p.c = c := by
  induction fuel generalizing x y d with
  | zero => simp [circleLoop] at h
  | succ fuel ih =>
    rw [circleLoop] at h
    split_ifs at h with _ hd
    · exact (List.mem_append.1 h).elim color_of_mem_octants ih
    · exact (List.mem_append.1 h).elim color_of_mem_octants ih
    · cases h

end

/-- The `plot` calls of a multi-pixel drawing command accepted in `s`. -/
def drawPlots (i : Instr) (s : State) : List Plot :=
  match i with
  | .clear => clearPlots s.cfg
  | .hline x y len c => hlinePlots x.toInt y.toInt len.toNat c
  | .vline x y len c => vlinePlots x.toInt y.toInt len.toNat c
  | .circle xc yc rad c => circlePlots xc.toInt yc.toInt rad.toNat c
  | .blit x y bw bh data => blitPlots x.toInt y.toInt bw.toNat bh.toNat data
  | .vscroll => s.vscrollPlots
  | _ => []

/-- A multi-pixel drawing command is never held and never faults (R112, R342). -/
theorem exec_draw {i : Instr} {s : State} (hi : multiPixel i = true) (hf : s.blk.faulted = false) :
    exec i s = .next (s.perform (drawPlots i s)) := by
  cases i with
  | clear | hline | vline | circle | blit | vscroll => exact accept_of_accepted ⟨hf, rfl, rfl⟩
  | _ => cases hi

/-! ### The framebuffer each rule defines (R282) -/

section
variable {c : Config} {x y : Nat}

/-- Where the calls that name a pixel agree on its colour, that is what it takes; a pixel that none names keeps its
value. -/
theorem finalFrame_eq_ite {P : Prop} [Decidable P] {k : Byte} {plots : List Plot} {pix : Cells Byte} (hx : x < c.fbW)
    (hy : y < c.fbH) (named : P → ∃ p ∈ plots, p.x = x ∧ p.y = y)
    (same : ∀ p ∈ plots, p.x = x → p.y = y → P ∧ p.c = k) :
    readPix (finalFrame c plots pix) (pixIndex c x y) = if P then k else readPix pix (pixIndex c x y) := by
  split_ifs with hP
  · exact finalFrame_hit hx hy plots pix k (named hP) fun p hp h1 h2 => (same p hp h1 h2).2
  · exact finalFrame_miss hx hy plots pix fun p hp h => hP (same p hp h.1 h.2).1

end

/-- The `plot` calls of a multi-pixel drawing command end in the framebuffer its rule defines (R284 to R292). -/
theorem finalFrame_drawPlots {i : Instr} {s : State} {x y : Nat} (hi : multiPixel i = true) (hx : x < s.cfg.fbW)
    (hy : y < s.cfg.fbH) :
    readPix (finalFrame s.cfg (drawPlots i s) s.mem.pix) (pixIndex s.cfg x y) = drawnPixel i s x y := by
  cases i with
  | clear =>
    refine finalFrame_hit hx hy _ _ _ ⟨_, mem_clearPlots.2 ⟨y, hy, x, hx, rfl⟩, rfl, rfl⟩ fun p hp _ _ => ?_
    obtain ⟨_, _, _, _, rfl⟩ := mem_clearPlots.1 hp
    rfl
  | hline px py len k =>
    refine finalFrame_eq_ite hx hy (fun h => ?_) fun p hp h1 h2 => ?_
    · exact ⟨_, mem_hlinePlots.2 ⟨((x : Int) - px.toInt).toNat, by omega, rfl⟩, by simp only; omega, h.1⟩
    · obtain ⟨j, hj, rfl⟩ := mem_hlinePlots.1 hp
      exact ⟨by simp only at h1 h2; omega, rfl⟩
  | vline px py len k =>
    refine finalFrame_eq_ite hx hy (fun h => ?_) fun p hp h1 h2 => ?_
    · exact ⟨_, mem_vlinePlots.2 ⟨((y : Int) - py.toInt).toNat, by omega, rfl⟩, h.1, by simp only; omega⟩
    · obtain ⟨j, hj, rfl⟩ := mem_vlinePlots.1 hp
      exact ⟨by simp only at h1 h2; omega, rfl⟩
  | circle xc yc rad k =>
    refine finalFrame_eq_ite hx hy (fun h => ?_) fun p hp h1 h2 => ?_
    · obtain ⟨p, hp, hxy⟩ := List.any_eq_true.1 h
      exact ⟨p, hp, of_decide_eq_true hxy⟩
    · exact ⟨List.any_eq_true.2 ⟨p, hp, decide_eq_true ⟨h1, h2⟩⟩, color_of_mem_circleLoop hp⟩
  | blit px py bw bh data =>
    refine finalFrame_eq_ite hx hy (fun h => ?_) fun p hp h1 h2 => ?_
    · exact ⟨_, mem_blitPlots.2 ⟨((y : Int) - py.toInt).toNat, by omega, ((x : Int) - px.toInt).toNat, by omega, rfl⟩,
        by simp only; omega, by simp only; omega⟩
    · obtain ⟨j, hj, i, hi, rfl⟩ := mem_blitPlots.1 hp
      simp only at h1 h2
      refine ⟨by omega, ?_⟩
      rw [← h1, ← h2, add_sub_cancel_left, add_sub_cancel_left, Int.toNat_natCast, Int.toNat_natCast]
  | vscroll =>
    refine finalFrame_eq_ite hx hy (fun h => ?_) fun p hp h1 h2 => ?_
    · exact ⟨_, mem_vscrollPlots.2 ⟨y, by omega, x, hx, rfl⟩, rfl, rfl⟩
    · obtain ⟨j, hj, i, hi, rfl⟩ := mem_vscrollPlots.1 hp
      obtain rfl : i = x := Int.ofNat.inj h1
      obtain rfl : j = y := Int.ofNat.inj h2
      exact ⟨by omega, rfl⟩
  | _ => cases hi

end Sys2Proof.Machine

namespace Sys2Proof.Machine

/-! ### A drawing command, pixel step by pixel step (R282) -/

/-- A list is the element at an index and the others. -/
theorem perm_cons_eraseIdx {α : Type} {l : List α} {k : Nat} {x : α} (h : l[k]? = some x) :
    l.Perm (x :: l.eraseIdx k) := by
  obtain ⟨hk, rfl⟩ := List.getElem?_eq_some_iff.1 h
  exact (List.getElem_cons_eraseIdx_perm hk).symm

/-- With writes left, a pixel step does one of them and leaves the others. -/
theorem takePixel_perm (pick : Nat) {todo : List PixelWrite} (h : todo ≠ []) (s : State) :
    ∃ p rest, todo.Perm (p :: rest) ∧ takePixel pick todo s = (s.setPixel p, rest) := by
  have hk : pick % todo.length < todo.length := Nat.mod_lt _ (List.length_pos_of_ne_nil h)
  have hget := List.getElem?_eq_getElem hk
  exact ⟨_, _, perm_cons_eraseIdx hget, by simp [takePixel, hget]⟩

/-- What the issuing agent has of a drawing command with the writes `todo` left: the answer, or the command in
progress. -/
def State.afterWrites (todo : List PixelWrite) (s : State) : State :=
  if todo = [] then s.respond .ack else s.beginWork (.draw todo)

@[simp] theorem State.afterWrites_nil (s : State) : s.afterWrites [] = s.respond .ack := rfl

theorem State.afterWrites_of_ne_nil {todo : List PixelWrite} (h : todo ≠ []) (s : State) :
    s.afterWrites todo = s.beginWork (.draw todo) := if_neg h

/-- The environment after writes to the framebuffer is as if there had been none. -/
theorem afterWrites_env {s t : State} (h : t.env = s.env) (todo : List PixelWrite) :
    (t.afterWrites todo).env = (s.afterWrites todo).env := by
  unfold State.afterWrites
  split_ifs
  · rw [State.respond_env, State.respond_env, h]
  · rw [State.beginWork_env, State.beginWork_env, h]

@[simp] theorem pixel_afterWrites (todo : List PixelWrite) (s : State) (x y : Nat) :
    (s.afterWrites todo).pixel x y = s.pixel x y := by
  unfold State.afterWrites
  split_ifs <;> rfl

/-- An answer, or a command's start, changes no more than the agents. -/
theorem onlyPix_afterWrites {s t : State} (h : OnlyPix s t) (todo : List PixelWrite) :
    OnlyPix s (t.afterWrites todo) := by
  unfold State.afterWrites
  split_ifs
  · exact h
  · exact h

theorem onlyPix_setPixel {s t : State} (h : OnlyPix s t) (p : PixelWrite) : OnlyPix s (t.setPixel p) := by
  obtain ⟨hcfg, hrb, hse, hfb, hblk, hmem⟩ := h
  refine ⟨hcfg, hrb, hse, hfb, hblk, ?_⟩
  rw [State.setPixel_mem, hmem]

/-- Acceptance of a drawing command does the first of its pixel writes, if it has any, and leaves the others. -/
theorem perform_perm (s : State) (plots : List Plot) :
    (s.pixelWrites plots = [] ∧ s.perform plots = s.afterWrites []) ∨
    ∃ p rest, (s.pixelWrites plots).Perm (p :: rest) ∧ s.perform plots = (s.setPixel p).afterWrites rest := by
  by_cases h : s.pixelWrites plots = []
  · exact .inl ⟨h, State.perform_unchanged h⟩
  · obtain ⟨p, rest, hperm, htake⟩ := takePixel_perm s.env.pick h s
    exact .inr ⟨p, rest, hperm, by rw [State.perform, htake]; rfl⟩

/-- The writes a command has to do are those of the pixels it changes, at the values its rule gives them. -/
theorem mem_pixelWrites_draw {i : Instr} {s : State} (hi : multiPixel i = true) {p : PixelWrite} :
    p ∈ s.pixelWrites (drawPlots i s) ↔ Changes i s p.x p.y ∧ p.c = drawnPixel i s p.x p.y := by
  rw [mem_pixelWrites]
  constructor
  · rintro ⟨hx, hy, hc, hne⟩
    rw [finalFrame_drawPlots hi hx hy] at hc
    exact ⟨⟨hx, hy, hc ▸ hne⟩, hc⟩
  · rintro ⟨⟨hx, hy, hne⟩, hc⟩
    exact ⟨hx, hy, by rw [finalFrame_drawPlots hi hx hy, hc], hc ▸ hne⟩

theorem pixelWrites_nodup (s : State) (plots : List Plot) : (s.pixelWrites plots).Nodup := changedPixels_nodup ..

/-- A command has at most one write to do for each pixel of the framebuffer. -/
theorem length_pixelWrites_le (s : State) (plots : List Plot) :
    (s.pixelWrites plots).length ≤ s.cfg.fbW * s.cfg.fbH := by
  unfold State.pixelWrites changedPixels
  rw [List.length_flatMap, Nat.mul_comm]
  refine (List.sum_le_card_nsmul _ s.cfg.fbW ?_).trans (by simp)
  intro n hn
  obtain ⟨y, -, rfl⟩ := List.mem_map.1 hn
  exact (List.length_filterMap_le _ _).trans (by simp)

/-! #### The framebuffer between the steps -/

/-- Of a drawing command accepted in `s`, the writes `todo` are left in `t`: each is inside the framebuffer, at the
value of the command's rule, and every pixel without one holds that value already. -/
structure PixelsLeft (i : Instr) (s : State) (todo : List PixelWrite) (t : State) : Prop where
  only : OnlyPix s t
  inside : ∀ p ∈ todo, p.x < s.cfg.fbW ∧ p.y < s.cfg.fbH ∧ p.c = drawnPixel i s p.x p.y
  done : ∀ x y, x < s.cfg.fbW → y < s.cfg.fbH →
    t.pixel x y = drawnPixel i s x y ∨ ⟨x, y, drawnPixel i s x y⟩ ∈ todo

namespace PixelsLeft

variable {i : Instr} {s t : State} {todo : List PixelWrite}

theorem start (hi : multiPixel i = true) : PixelsLeft i s (s.pixelWrites (drawPlots i s)) s where
  only := ⟨rfl, rfl, rfl, rfl, rfl, rfl⟩
  inside := fun _ hp =>
    have ⟨⟨hx, hy, _⟩, hc⟩ := (mem_pixelWrites_draw hi).1 hp
    ⟨hx, hy, hc⟩
  done := fun x y hx hy => by
    by_cases h : drawnPixel i s x y = s.pixel x y
    · exact .inl h.symm
    · exact .inr ((mem_pixelWrites_draw hi).2 ⟨⟨hx, hy, h⟩, rfl⟩)

/-- One write fewer is left once it is done. -/
theorem write {p : PixelWrite} {rest : List PixelWrite} (h : PixelsLeft i s todo t) (hperm : todo.Perm (p :: rest)) :
    PixelsLeft i s rest (t.setPixel p) where
  only := onlyPix_setPixel h.only p
  inside := fun q hq => h.inside q (hperm.mem_iff.2 (List.mem_cons_of_mem _ hq))
  done := fun x y hx hy => by
    obtain ⟨hpx, hpy, hpc⟩ := h.inside p (hperm.mem_iff.2 List.mem_cons_self)
    have hcfg : t.cfg = s.cfg := h.only.1
    rw [pixel_setPixel t (hcfg ▸ hx) (hcfg ▸ hpx)]
    split_ifs with hxy
    · obtain ⟨rfl, rfl⟩ := hxy
      exact .inl hpc
    · refine (h.done x y hx hy).imp_right fun hmem => ?_
      obtain heq | hrest := List.mem_cons.1 (hperm.mem_iff.1 hmem)
      · exact absurd ⟨congrArg PixelWrite.x heq, congrArg PixelWrite.y heq⟩ hxy
      · exact hrest

theorem onAgent (h : PixelsLeft i s todo t) (j : Nat) (f : Agent → Agent) : PixelsLeft i s todo (t.onAgent j f) :=
  ⟨h.only, h.inside, h.done⟩

theorem afterWrites (h : PixelsLeft i s todo t) (rest : List PixelWrite) :
    PixelsLeft i s todo (t.afterWrites rest) := by
  unfold State.afterWrites
  split_ifs
  · exact h.onAgent _ _
  · exact h.onAgent _ _

end PixelsLeft

/-- Once the write to one pixel is done, those of the other changed pixels are left. -/
theorem mem_writesLeft_iff {i : Instr} {s : State} {p q : PixelWrite} {rest : List PixelWrite}
    (hi : multiPixel i = true) (hperm : (s.pixelWrites (drawPlots i s)).Perm (p :: rest)) :
    q ∈ rest ↔ Changes i s q.x q.y ∧ ¬ (q.x = p.x ∧ q.y = p.y) ∧ q.c = drawnPixel i s q.x q.y := by
  have hmem : ∀ w, Changes i s w.x w.y ∧ w.c = drawnPixel i s w.x w.y ↔ w = p ∨ w ∈ rest := fun w =>
    (mem_pixelWrites_draw hi).symm.trans (hperm.mem_iff.trans List.mem_cons)
  have hnot : p ∉ rest := (List.nodup_cons.1 (hperm.nodup_iff.1 (pixelWrites_nodup s _))).1
  constructor
  · intro hq
    obtain ⟨hch, hc⟩ := (hmem q).2 (.inr hq)
    refine ⟨hch, fun ⟨hx, hy⟩ => hnot ?_, hc⟩
    have hpc := ((hmem p).2 (.inl rfl)).2
    rw [← hx, ← hy, ← hc] at hpc
    obtain ⟨px, py, pc⟩ := p
    subst hx hy hpc
    exact hq
  · rintro ⟨hch, hne, hc⟩
    refine ((hmem q).1 ⟨hch, hc⟩).resolve_left ?_
    rintro rfl
    exact hne ⟨rfl, rfl⟩

/-- Settles O44: the writes the command has to do are those of the pixels it changes, and acceptance does one. -/
theorem drawingStartsWithOnePixel : Obligations.DrawingStartsWithOnePixel := by
  intro i s hi hf
  have hmem := fun p => mem_pixelWrites_draw (s := s) hi (p := p)
  refine ⟨_, exec_draw hi hf, ?_⟩
  obtain ⟨hnil, heq⟩ | ⟨p, rest, hperm, heq⟩ := perform_perm s (drawPlots i s)
  · rw [heq]
    refine ⟨⟨rfl, rfl, rfl, rfl, rfl, rfl⟩, .inl ⟨fun x y hch => ?_, rfl, rfl⟩⟩
    have hin := (hmem ⟨x, y, drawnPixel i s x y⟩).2 ⟨hch, rfl⟩
    rw [hnil] at hin
    exact List.not_mem_nil hin
  · obtain ⟨hchp, hpc⟩ := (hmem p).1 (hperm.mem_iff.2 List.mem_cons_self)
    have honly : OnlyPix s (s.setPixel p) := onlyPix_setPixel ⟨rfl, rfl, rfl, rfl, rfl, rfl⟩ p
    rw [heq]
    refine ⟨onlyPix_afterWrites honly rest, .inr ⟨p.x, p.y, hchp, fun x y hx _ => ?_, ?_⟩⟩
    · rw [pixel_afterWrites, pixel_setPixel s hx hchp.1, hpc]
    · by_cases hrest : rest = []
      · subst hrest
        refine .inl ⟨fun x y hch => ?_, rfl⟩
        by_contra hne
        exact List.not_mem_nil ((mem_writesLeft_iff (q := ⟨x, y, drawnPixel i s x y⟩) hi hperm).2 ⟨hch, hne, rfl⟩)
      · have hnodup := (List.nodup_cons.1 (hperm.nodup_iff.1 (pixelWrites_nodup s _))).2
        refine .inr ⟨rest, hrest, hnodup, ?_, fun q => mem_writesLeft_iff hi hperm⟩
        rw [State.afterWrites_of_ne_nil hrest]
        rfl

/-! #### The environment between the steps -/

/-- Two changes that agree on the element at an index change the list there alike. -/
theorem modify_congr {α : Type} {l : List α} {k : Nat} {x : α} {f g : α → α} (h : l[k]? = some x) (hfg : f x = g x) :
    l.modify k f = l.modify k g := by
  refine List.ext_getElem? fun j => ?_
  rw [List.getElem?_modify, List.getElem?_modify]
  by_cases hj : k = j
  · subst hj
    simp [h, hfg]
  · simp [hj]

/-- The drawing command `i`, accepted in `s`, with the writes `todo` left. -/
structure Drawing (i : Instr) (s : State) (todo : List PixelWrite) (t : State) : Prop where
  pixels : PixelsLeft i s todo t
  env : t.env = (s.afterWrites todo).env

namespace Drawing

variable {i : Instr} {s t : State} {todo : List PixelWrite}

/-- Acceptance leaves fewer writes than the framebuffer has pixels, or none. -/
theorem of_exec (hi : multiPixel i = true) (hf : s.blk.faulted = false) (ht : exec i s = .next t) :
    ∃ todo, todo.length ≤ s.cfg.fbW * s.cfg.fbH ∧ Drawing i s todo t := by
  obtain rfl := Host.Outcome.next.inj ((exec_draw hi hf).symm.trans ht)
  have hstart := PixelsLeft.start (s := s) hi
  obtain ⟨hnil, heq⟩ | ⟨p, rest, hperm, heq⟩ := perform_perm s (drawPlots i s)
  · rw [hnil] at hstart
    rw [heq]
    exact ⟨[], Nat.zero_le _, hstart.afterWrites _, rfl⟩
  · have hlen := length_pixelWrites_le s (drawPlots i s)
    rw [hperm.length_eq, List.length_cons] at hlen
    rw [heq]
    exact ⟨rest, by omega, (hstart.write hperm).afterWrites _, afterWrites_env (s := s) (t := s.setPixel p) rfl _⟩

section
variable {a : Agent} (ha : s.env.agents[s.env.issuer]? = some a) (hidle : a.work = .idle)
include ha

/-- What the agent still has to write. -/
theorem drawing? (h : Drawing i s todo t) (hne : todo ≠ []) : t.drawing? s.env.issuer = some todo := by
  have hagent := issuer_beginWork ha (.draw todo)
  rw [← State.afterWrites_of_ne_nil hne, ← h.env] at hagent
  simp [State.drawing?, hagent, Agent.begin]

include hidle

theorem drawing?_nil (h : Drawing i s [] t) : t.drawing? s.env.issuer = none := by
  have hagent := issuer_respond ha .ack
  rw [← State.afterWrites_nil, ← h.env] at hagent
  simp [State.drawing?, hagent, Agent.answer, hidle]

/-- A pixel step after the last does nothing. -/
theorem pixelStep_nil (h : Drawing i s [] t) (pick : Nat) : t.pixelStep s.env.issuer pick = t := by
  simp [State.pixelStep, h.drawing?_nil ha hidle]

/-- A pixel step with writes left does one of them. -/
theorem pixelStep (h : Drawing i s todo t) (hf : s.blk.faulted = false) (hne : todo ≠ []) (pick : Nat) :
    ∃ rest, rest.length + 1 = todo.length ∧ Drawing i s rest (t.pixelStep s.env.issuer pick) := by
  obtain ⟨p, rest, hperm, htake⟩ := takePixel_perm pick hne t
  obtain ⟨-, -, -, -, hblk, -⟩ := h.pixels.only
  have hpixels := h.pixels.write hperm
  have henv := h.env
  rw [State.afterWrites_of_ne_nil hne, State.beginWork_env] at henv
  refine ⟨rest, hperm.length_eq.symm, ?_⟩
  have hfaulted : t.blk.faulted = false := by rw [hblk, hf]
  simp only [State.pixelStep, hfaulted, h.drawing? ha hne, htake, Bool.false_eq_true, if_false]
  split_ifs with hnil
  · subst hnil
    refine ⟨hpixels.onAgent _ _, ?_⟩
    have hanswer : (Agent.finish .ack ∘ Agent.begin (.draw todo)) a = Agent.answer .ack a := by
      simp [Agent.finish, Agent.begin, Agent.answer, hidle]
    rw [State.onAgent_env, State.setPixel_env, henv, State.afterWrites_nil, State.respond_env, List.modify_modify_eq,
      modify_congr ha hanswer]
  · refine ⟨hpixels.onAgent _ _, ?_⟩
    rw [State.onAgent_env, State.setPixel_env, henv, State.afterWrites_of_ne_nil hnil, State.beginWork_env,
      List.modify_modify_eq]
    rfl

/-- As many pixel steps as there are writes left do them all, in whatever order. -/
theorem pixelSteps {picks : List Nat} (h : Drawing i s todo t) (hf : s.blk.faulted = false)
    (hlen : todo.length ≤ picks.length) : Drawing i s [] (pixelSteps s.env.issuer picks t) := by
  induction picks generalizing t todo with
  | nil =>
    obtain rfl := List.length_eq_zero_iff.1 (Nat.le_zero.1 hlen)
    exact h
  | cons k picks ih =>
    rw [List.length_cons] at hlen
    by_cases hnil : todo = []
    · subst hnil
      rw [Machine.pixelSteps, h.pixelStep_nil ha hidle]
      exact ih h (Nat.zero_le _)
    · obtain ⟨rest, hrest, h'⟩ := h.pixelStep ha hidle hf hnil k
      exact ih h' (by omega)

end

end Drawing

/-- Settles O45: each pixel step does one of the writes left, so in the end none is. -/
theorem drawingEndsTheSameInEveryOrder : Obligations.DrawingEndsTheSameInEveryOrder := by
  intro i s t a picks hi hf ha hidle ht hlen
  obtain ⟨todo, htodo, h⟩ := Drawing.of_exec hi hf ht
  obtain ⟨hpixels, henv⟩ := h.pixelSteps ha hidle hf (htodo.trans hlen)
  exact ⟨hpixels.only, henv, fun x y hx hy => (hpixels.done x y hx hy).resolve_right List.not_mem_nil⟩

end Sys2Proof.Machine

namespace Sys2Proof.Machine

/-! ### What no drawing command touches (R294) -/

/-- The palette, the line buffer, the scheduler's registers and what the panel was sent are the same. -/
def SchedulerKept (s t : State) : Prop :=
  t.mem.pal = s.mem.pal ∧ t.mem.line = s.mem.line ∧ t.fb = s.fb ∧ t.env.sent = s.env.sent

theorem schedulerKept_perform (s : State) (plots : List Plot) : SchedulerKept s (s.perform plots) := by
  obtain ⟨-, heq⟩ | ⟨p, -, rest, -, -, ⟨-, heq⟩ | ⟨-, heq⟩⟩ := s.perform_cases plots <;> rw [heq] <;>
    exact ⟨rfl, rfl, rfl, rfl⟩

theorem schedulerKept_pixelStep (s : State) (t pick : Nat) : SchedulerKept s (s.pixelStep t pick) := by
  obtain ⟨-, heq⟩ | ⟨a, todo, -, -, -, hdone⟩ := s.pixelStep_cases t pick
  · rw [heq]
    exact ⟨rfl, rfl, rfl, rfl⟩
  · have htake : SchedulerKept s (takePixel pick todo s).1 := by
      obtain heq | ⟨p, -, heq⟩ := takePixel_state pick todo s <;> rw [heq] <;> exact ⟨rfl, rfl, rfl, rfl⟩
    obtain ⟨-, heq⟩ | ⟨-, heq⟩ := hdone <;> rw [heq] <;> exact htake

/-- A faulted block answers, PIXEL writes to the framebuffer at most, and so does the acceptance of the others. -/
theorem schedulerKept_of_draw {i : Instr} {s t : State} (hi : multiPixel i = true ∨ ∃ x y c, i = .pixel x y c)
    (h : exec i s = .next t) : SchedulerKept s t := by
  cases hf : s.blk.faulted with
  | true =>
    obtain rfl := Host.Outcome.next.inj ((exec_of_faulted hf).symm.trans h)
    exact ⟨rfl, rfl, rfl, rfl⟩
  | false =>
    obtain hi | ⟨x, y, c, rfl⟩ := hi
    · obtain rfl := Host.Outcome.next.inj ((exec_draw hi hf).symm.trans h)
      exact schedulerKept_perform s _
    · obtain rfl := Host.Outcome.next.inj ((exec_pixel hf x y c).symm.trans h)
      split_ifs <;> exact ⟨rfl, rfl, rfl, rfl⟩

/-- Settles O49: a drawing command's steps write to the framebuffer and to the agents, and to nothing else. -/
theorem drawingTouchesNoSchedulerState : Obligations.DrawingTouchesNoSchedulerState :=
  ⟨fun _ _ _ hi h => schedulerKept_of_draw hi h, schedulerKept_pixelStep⟩

/-! ### The scheduler's and the panel's steps (R302 to R308) -/

section
variable {s : State}

theorem sched_start (hf : s.blk.faulted = false) (hst : s.fb.st = .treq) : s.sched = s.startFrame := by
  simp [State.sched, State.schedEnabled, hf, hst]

theorem sched_convert (hf : s.blk.faulted = false) (hst : s.fb.st = .tx) (hls : s.fb.ls = .convert)
    (hcur : s.fb.cur < s.cfg.lineCount) : s.sched = s.convertPixel := by
  simp [State.sched, State.schedEnabled, hf, hst, hls, hcur, hcur.ne]

theorem sched_send (hf : s.blk.faulted = false) (hst : s.fb.st = .tx) (hls : s.fb.ls = .send)
    (hcur : s.fb.cur < s.cfg.lineCount) : s.sched = s.sendLine := by
  simp [State.sched, State.schedEnabled, hf, hst, hls, hcur.ne]

theorem sched_finish (hf : s.blk.faulted = false) (hst : s.fb.st = .tx) (hcur : s.fb.cur = s.cfg.lineCount) :
    s.sched = s.endFrame := by
  simp [State.sched, State.schedEnabled, hf, hst, hcur]

theorem panelEnabled_iff : s.panelEnabled = true ↔ s.blk.faulted = false ∧ s.fb.st = .tx ∧ s.fb.ls = .wait := by
  simp [State.panelEnabled]

theorem complete_of_waiting (hf : s.blk.faulted = false) (hst : s.fb.st = .tx) (hls : s.fb.ls = .wait) (ok : Bool) :
    s.complete ok = { s with fb := { s.fb with cur := s.fb.cur + 1, xp := 0, ls := .convert } } :=
  if_pos (panelEnabled_iff.2 ⟨hf, hst, hls⟩)

end

/-- Settles O54: the completion is enabled exactly while a line is waited for, and its status is not read. -/
theorem completionGoesOnToTheNextLine : Obligations.CompletionGoesOnToTheNextLine := fun _ ok =>
  ⟨fun hf hst hls => complete_of_waiting hf hst hls ok, fun h => if_neg (mt panelEnabled_iff.1 h)⟩

/-- Settles O53: the phases of a line are distinct, and END waits for a line number that no line in progress has. -/
theorem schedulerSteps : Obligations.SchedulerSteps := by
  intro s hinv start convert send finish
  have hsend : send → s.fb.cur < s.cfg.lineCount := fun ⟨_, _, hls⟩ => (hinv.sending hls).2
  have hstart : start → s.fb.st ≠ .tx := fun ⟨_, hst⟩ htx => nomatch hst.symm.trans htx
  refine ⟨⟨fun ⟨h, _, htx, _⟩ => hstart h htx, fun ⟨h, _, htx, _⟩ => hstart h htx,
    fun ⟨h, _, htx, _⟩ => hstart h htx, ?_, ?_, ?_⟩, fun ⟨hf, hst⟩ => sched_start hf hst, ?_, ?_, ?_, ?_⟩
  · rintro ⟨⟨-, -, hls, -⟩, -, -, hls'⟩
    exact nomatch hls.symm.trans hls'
  · rintro ⟨⟨-, -, -, hcur⟩, -, -, hcur'⟩
    exact hcur.ne hcur'
  · rintro ⟨h, -, -, hcur⟩
    exact (hsend h).ne hcur
  · rintro ⟨hf, hst, hls, hcur⟩
    obtain ⟨hframe, hline⟩ := s.convertPixel_spec
    rw [sched_convert hf hst hls hcur]
    have hfb : s.convertPixel.fb =
        { s.fb with xp := s.fb.xp + 1, ls := if s.fb.xp + 1 = s.cfg.lineLen then .send else .convert } := by
      rw [hframe, hls]
    refine ⟨rfl, rfl, rfl, rfl, rfl, rfl, fun j => ?_, hfb⟩
    rw [hline j]
    unfold State.scanColor State.scanPoint
    cases s.cfg.fbScan <;> rfl
  · exact fun h => sched_send h.1 h.2.1 h.2.2 (hsend h)
  · rintro ⟨hf, hst, hcur⟩
    exact sched_finish hf hst hcur
  · intro hnostart hnoconvert hnosend hnofinish
    obtain ⟨-, heq⟩ | ⟨hf, hst, -⟩ | ⟨hf, hst, hcur, -⟩ | ⟨hf, hst, hcur, hls, -⟩ | ⟨hf, hst, -, hls, -⟩ :=
      s.sched_cases
    · exact heq
    · exact absurd ⟨hf, hst⟩ hnostart
    · exact absurd ⟨hf, hst, hcur⟩ hnofinish
    · exact absurd ⟨hf, hst, hls, hcur⟩ hnoconvert
    · exact absurd ⟨hf, hst, hls⟩ hnosend

end Sys2Proof.Machine

namespace Sys2Proof.Machine

/-! ### The lines of a frame (R304, R311) -/

/-- Where pixel `p` of line `l` of a frame stands in the framebuffer (R304). -/
def linePoint (c : Config) (l p : Nat) : Nat × Nat :=
  match c.fbScan with
  | .rowMajor => (p, l)
  | .columnMajor => (l, p)

/-- The colour of pixel `p` of line `l` of a frame. -/
def State.lineColor (s : State) (l p : Nat) : Color :=
  s.palEntry (s.pixel (linePoint s.cfg l p).1 (linePoint s.cfg l p).2).toNat

/-- Byte `j` of line `l` of a frame: two for each pixel, the colour's bits 15:8 first (R103). -/
def State.frameByte (s : State) (l j : Nat) : Byte :=
  if j % 2 = 0 then (s.lineColor l (j / 2)).extractLsb' 8 8 else (s.lineColor l (j / 2)).extractLsb' 0 8

theorem State.frameByte_high (s : State) (l p : Nat) : s.frameByte l (2 * p) = (s.lineColor l p).extractLsb' 8 8 := by
  rw [State.frameByte, if_pos (by omega), Nat.mul_div_cancel_left p (by omega)]

theorem State.frameByte_low (s : State) (l p : Nat) :
    s.frameByte l (2 * p + 1) = (s.lineColor l p).extractLsb' 0 8 := by
  rw [State.frameByte, if_neg (by omega), show (2 * p + 1) / 2 = p by omega]

/-- The colour that CONVERT takes is that of the pixel at the cursors. -/
theorem State.scanColor_eq (s : State) : s.scanColor = s.lineColor s.fb.cur s.fb.xp := by
  unfold State.scanColor State.scanPoint State.lineColor linePoint
  cases s.cfg.fbScan <;> rfl

/-- A list of pairs, one for each index, laid out in a row. -/
theorem flatMap_pair_eq_map {α : Type} (f : Nat → α) (n : Nat) :
    ((List.range n).flatMap fun p => [f (2 * p), f (2 * p + 1)]) = (List.range (2 * n)).map f := by
  induction n with
  | zero => rfl
  | succ n ih =>
    rw [List.range_succ, List.flatMap_append, ih, Nat.mul_succ, List.range_succ, List.range_succ]
    simp

theorem State.frameLine_eq_map (s : State) (l : Nat) :
    s.frameLine l = (List.range (2 * s.cfg.lineLen)).map (s.frameByte l) := by
  rw [← flatMap_pair_eq_map]
  simp only [State.frameByte_high, State.frameByte_low]
  unfold State.frameLine State.lineColor linePoint
  cases s.cfg.fbScan <;> rfl

theorem State.length_frameLine (s : State) (l : Nat) : (s.frameLine l).length = 2 * s.cfg.lineLen := by
  rw [s.frameLine_eq_map, List.length_map, List.length_range]

theorem State.getElem?_frameLine (s : State) (l : Nat) {j : Nat} (hj : j < 2 * s.cfg.lineLen) :
    (s.frameLine l)[j]? = some (s.frameByte l j) := by
  rw [s.frameLine_eq_map, List.getElem?_map, List.getElem?_range hj, Option.map_some]

/-! ### Runs of the transmit pipeline -/

theorem pipeline_add (m n : Nat) (s : State) : pipeline (m + n) s = pipeline n (pipeline m s) := by
  induction m generalizing s with
  | zero => rw [Nat.zero_add]; rfl
  | succ m ih => rw [Nat.add_right_comm]; exact ih _

/-- `n` steps of the pipeline lead from `s` to `t`, and it is idle in none of the states before `t`. -/
def PipelineRun (n : Nat) (s t : State) : Prop := pipeline n s = t ∧ ∀ m < n, (pipeline m s).fb.st ≠ .idle

namespace PipelineRun

variable {m n : Nat} {s t u : State}

theorem refl (s : State) : PipelineRun 0 s s := ⟨rfl, fun _ hm => absurd hm (Nat.not_lt_zero _)⟩

theorem trans (h : PipelineRun m s t) (h' : PipelineRun n t u) : PipelineRun (m + n) s u := by
  obtain ⟨rfl, hbusy⟩ := h
  obtain ⟨rfl, hbusy'⟩ := h'
  refine ⟨pipeline_add m n s, fun k hk => ?_⟩
  by_cases hkm : k < m
  · exact hbusy k hkm
  · obtain ⟨j, rfl⟩ := Nat.exists_eq_add_of_le (not_lt.1 hkm)
    rw [pipeline_add]
    exact hbusy' j (by omega)

theorem single (hbusy : s.fb.st ≠ .idle) (ht : pipeline 1 s = t) : PipelineRun 1 s t := by
  refine ⟨ht, fun m hm => ?_⟩
  obtain rfl : m = 0 := by omega
  exact hbusy

/-- The scheduler's step, where no completion is awaited. -/
theorem sched (hbusy : s.fb.st ≠ .idle) (hls : s.fb.ls ≠ .wait) (ht : s.sched = t) : PipelineRun 1 s t :=
  single hbusy ((if_neg fun h => hls (panelEnabled_iff.1 h).2.2).trans ht)

/-- The panel's completion, where it is awaited. -/
theorem complete (hf : s.blk.faulted = false) (hst : s.fb.st = .tx) (hls : s.fb.ls = .wait)
    (ht : s.complete true = t) : PipelineRun 1 s t :=
  single (by simp [hst]) ((if_pos (panelEnabled_iff.2 ⟨hf, hst, hls⟩)).trans ht)

end PipelineRun

/-! ### A frame, from START to END (R303 to R309) -/

/-- In `t` the frame requested in `s` is at line `l`, in phase `ls`, with `p` pixels converted and `k` lines sent; only
the line buffer and the pipeline's registers have changed. -/
structure InFrame (s : State) (k l p : Nat) (ls : LinePhase) (t : State) : Prop where
  frame : t = { s with
    mem := { s.mem with line := t.mem.line }
    fb := { st := .tx, pend := false, cur := l, xp := p, ls := ls }
    env := { s.env with sent := s.env.sent ++ (List.range k).map s.frameLine } }
  converted : ∀ j < 2 * p, t.lineByte j = s.frameByte l j

namespace InFrame

variable {s t : State} {k l p : Nat} {ls : LinePhase}

theorem cfg (h : InFrame s k l p ls t) : t.cfg = s.cfg := by rw [h.frame]

theorem fb (h : InFrame s k l p ls t) : t.fb = { st := .tx, pend := false, cur := l, xp := p, ls := ls } := by
  rw [h.frame]

theorem unfaulted (h : InFrame s k l p ls t) (hf : s.blk.faulted = false) : t.blk.faulted = false := by
  rw [h.frame]
  exact hf

theorem st (h : InFrame s k l p ls t) : t.fb.st = .tx := by rw [h.fb]

theorem busy (h : InFrame s k l p ls t) : t.fb.st ≠ .idle := by simp [h.st]

/-- The pixel at the cursors has the colour it had when the frame was requested. -/
theorem scanColor (h : InFrame s k l p ls t) : t.scanColor = s.lineColor l p := by
  rw [t.scanColor_eq, h.fb, h.frame]
  rfl

/-- The line buffer holds the whole line once every pixel is converted. -/
theorem lineBytes (h : InFrame s k l s.cfg.lineLen ls t) : t.lineBytes = s.frameLine l := by
  rw [State.lineBytes, h.cfg, s.frameLine_eq_map]
  exact List.map_congr_left fun j hj => h.converted j (List.mem_range.1 hj)

/-- START (R303). -/
theorem start (hpend : s.fb.pend = false) : InFrame s 0 0 0 .convert s.startFrame where
  frame := by simp [State.startFrame, hpend]
  converted := fun _ hj => absurd hj (Nat.not_lt_zero _)

section
variable (hf : s.blk.faulted = false)
include hf

/-- CONVERT (R304). -/
theorem convert (h : InFrame s l l p .convert t) (hl : l < s.cfg.lineCount) :
    PipelineRun 1 t t.convertPixel ∧
      InFrame s l l (p + 1) (if p + 1 = s.cfg.lineLen then .send else .convert) t.convertPixel := by
  obtain ⟨hframe, hline⟩ := t.convertPixel_spec
  have hls : t.fb.ls = .convert := by rw [h.fb]
  have hxp : t.fb.xp = p := by rw [h.fb]
  have hcur : t.fb.cur < t.cfg.lineCount := by rw [h.fb, h.cfg]; exact hl
  refine ⟨.sched h.busy (by simp [hls]) (sched_convert (h.unfaulted hf) h.st hls hcur), ?_, ?_⟩
  · rw [hframe, h.frame]
  · intro j hj
    rw [hline, h.scanColor, hxp]
    split_ifs with hhigh hlow
    · rw [hhigh, s.frameByte_high]
    · rw [hlow, s.frameByte_low]
    · exact h.converted j (by omega)

/-- All the pixels of a line. -/
theorem convertAll (h : InFrame s l l 0 .convert t) (hl : l < s.cfg.lineCount) (hlen : 1 ≤ s.cfg.lineLen)
    (hp : p ≤ s.cfg.lineLen) :
    ∃ u, PipelineRun p t u ∧ InFrame s l l p (if p = s.cfg.lineLen then .send else .convert) u := by
  induction p with
  | zero => exact ⟨t, .refl t, by rwa [if_neg (by omega)]⟩
  | succ p ih =>
    obtain ⟨u, hrun, hu⟩ := ih (by omega)
    rw [if_neg (by omega)] at hu
    obtain ⟨hstep, hnext⟩ := hu.convert hf hl
    exact ⟨_, hrun.trans hstep, hnext⟩

/-- SEND (R305). -/
theorem send (h : InFrame s l l s.cfg.lineLen .send t) (hl : l < s.cfg.lineCount) :
    PipelineRun 1 t t.sendLine ∧ InFrame s (l + 1) l s.cfg.lineLen .wait t.sendLine := by
  have hls : t.fb.ls = .send := by rw [h.fb]
  have hcur : t.fb.cur < t.cfg.lineCount := by rw [h.fb, h.cfg]; exact hl
  refine ⟨.sched h.busy (by simp [hls]) (sched_send (h.unfaulted hf) h.st hls hcur), ?_, h.converted⟩
  rw [State.sendLine, h.lineBytes, h.frame]
  simp [List.range_succ]

/-- The panel's completion (R306). -/
theorem complete (h : InFrame s (l + 1) l p .wait t) :
    PipelineRun 1 t (t.complete true) ∧ InFrame s (l + 1) (l + 1) 0 .convert (t.complete true) := by
  have hls : t.fb.ls = .wait := by rw [h.fb]
  refine ⟨.complete (h.unfaulted hf) h.st hls rfl, ?_, fun _ hj => absurd hj (Nat.not_lt_zero _)⟩
  rw [complete_of_waiting (h.unfaulted hf) h.st hls, h.frame]

/-- One line takes a step for each of its pixels, one to send it and one for the panel. -/
theorem line (h : InFrame s l l 0 .convert t) (hl : l < s.cfg.lineCount) (hlen : 1 ≤ s.cfg.lineLen) :
    ∃ u, PipelineRun (s.cfg.lineLen + 2) t u ∧ InFrame s (l + 1) (l + 1) 0 .convert u := by
  obtain ⟨u, hconverts, hu⟩ := h.convertAll hf hl hlen le_rfl
  rw [if_pos rfl] at hu
  obtain ⟨hsend, hsent⟩ := hu.send hf hl
  obtain ⟨hcomplete, hnext⟩ := hsent.complete hf
  exact ⟨_, (hconverts.trans hsend).trans hcomplete, hnext⟩

theorem lines (h : InFrame s 0 0 0 .convert t) (hlen : 1 ≤ s.cfg.lineLen) (hl : l ≤ s.cfg.lineCount) :
    ∃ u, PipelineRun (l * (s.cfg.lineLen + 2)) t u ∧ InFrame s l l 0 .convert u := by
  induction l with
  | zero => exact ⟨t, by simpa using .refl t, h⟩
  | succ l ih =>
    obtain ⟨u, hrun, hu⟩ := ih (by omega)
    obtain ⟨v, hline, hv⟩ := hu.line hf hl hlen
    exact ⟨v, by rw [Nat.succ_mul]; exact hrun.trans hline, hv⟩

/-- END (R307). -/
theorem finish (h : InFrame s k s.cfg.lineCount p .convert t) : PipelineRun 1 t t.endFrame := by
  have hls : t.fb.ls = .convert := by rw [h.fb]
  exact .sched h.busy (by simp [hls]) (sched_finish (h.unfaulted hf) h.st (by rw [h.fb, h.cfg]))

end

end InFrame

/-- The steps of a requested frame, up to the last line and then END. -/
theorem frame_runs {s : State} (hb : BlockInv s) (hf : s.blk.faulted = false) (hst : s.fb.st = .treq) :
    ∃ t, InFrame s s.cfg.lineCount s.cfg.lineCount 0 .convert t ∧ PipelineRun (frameSteps s.cfg) s t.endFrame := by
  obtain ⟨hpend, -, hls⟩ := hb.display.outside (by simp [hst])
  have hstart : PipelineRun 1 s s.startFrame := .sched (by simp [hst]) (by simp [hls]) (sched_start hf hst)
  obtain ⟨t, hlines, ht⟩ := (InFrame.start hpend).lines hf hb.bounds.lineLen_pos le_rfl
  exact ⟨t, ht, (hstart.trans hlines).trans (ht.finish hf)⟩

/-- Settles O55: START, then each line in turn, then END, with what each step leaves in `InFrame`. -/
theorem frameTakesItsStepsAndSendsItsLines : Obligations.FrameTakesItsStepsAndSendsItsLines := by
  intro s hb hf hst
  obtain ⟨t, ht, hrun, hbusy⟩ := frame_runs hb hf hst
  dsimp only
  rw [hrun]
  refine ⟨?_, ?_, rfl, ?_, ?_, ?_, ?_, hbusy⟩
  · rw [State.endFrame_env, ht.frame]
  · rw [State.endFrame_fb, ht.fb]; rfl
  · rw [State.endFrame_mem, ht.frame]
  · rw [State.endFrame_rb, ht.frame]
  · rw [State.endFrame_se, ht.frame]
  · rw [State.endFrame_blk, ht.frame]

/-! ### A pixel on its way to the panel (R310) -/

/-- A coordinate of the framebuffer is not negative as an `s16` (R17, R21). -/
theorem toInt_of_coordinate {c : Config} (hc : c.valid = true) {v : BitVec 16}
    (hv : v.toNat < c.fbW ∨ v.toNat < c.fbH) :
    v.toInt = v.toNat := by
  simp only [Config.valid, Bool.and_eq_true, decide_eq_true_eq] at hc
  exact BitVec.toInt_eq_toNat_of_lt (by omega)

theorem exec_pixel_inside {s : State} {x y : BitVec 16} (hc : s.cfg.valid = true) (hf : s.blk.faulted = false)
    (c : Byte) (hx : x.toNat < s.cfg.fbW) (hy : y.toNat < s.cfg.fbH) :
    exec (.pixel x y c) s = .next ((s.setPixel ⟨x.toNat, y.toNat, c⟩).respond .ack) := by
  have hxi := toInt_of_coordinate hc (.inl hx)
  have hyi := toInt_of_coordinate hc (.inr hy)
  rw [exec_pixel hf, hxi, hyi, if_pos (plot_inside_iff.2 (by simp only; omega)), Int.toNat_natCast, Int.toNat_natCast]

/-- The state after PIXEL and UPDATE in an idle pipeline. -/
def State.drawAndRequest (p : PixelWrite) (s : State) : State :=
  { (s.setPixel p).respond .ack with fb := { s.fb with st := .treq } }.respond .ack

theorem eq_drawAndRequest {s t u : State} {x y : BitVec 16} {c : Byte} (hc : s.cfg.valid = true)
    (hf : s.blk.faulted = false) (hidle : s.fb.st = .idle) (hx : x.toNat < s.cfg.fbW) (hy : y.toNat < s.cfg.fbH)
    (ht : exec (.pixel x y c) s = .next t) (hu : exec .update t = .next u) :
    u = s.drawAndRequest ⟨x.toNat, y.toNat, c⟩ := by
  obtain rfl := Host.Outcome.next.inj ((exec_pixel_inside hc hf c hx hy).symm.trans ht)
  have hupdate := exec_update (s := (s.setPixel ⟨x.toNat, y.toNat, c⟩).respond .ack) hf
  obtain rfl := Host.Outcome.next.inj (hupdate.symm.trans hu)
  simp [State.drawAndRequest, DisplayRegs.update, hidle]

section
variable {s : State} {p : PixelWrite}

theorem BlockInv.drawAndRequest (h : BlockInv s) (hidle : s.fb.st = .idle) (hp : p.x < s.cfg.fbW ∧ p.y < s.cfg.fbH) :
    BlockInv (s.drawAndRequest p) := by
  refine (((h.setPixel hp).respond _).withFb ?_).respond _
  have hupdate := h.display.update
  rwa [DisplayRegs.update, hidle] at hupdate

/-- The frame shows the pixel's new colour where the scan order has its place. -/
theorem lineColor_drawAndRequest {l j : Nat} (hx : p.x < s.cfg.fbW) (hpoint : linePoint s.cfg l j = (p.x, p.y)) :
    (s.drawAndRequest p).lineColor l j = s.palEntry p.c.toNat := by
  have hpixel : (s.setPixel p).pixel p.x p.y = p.c := by rw [pixel_setPixel s hx hx, if_pos ⟨rfl, rfl⟩]
  have hcolor : (s.drawAndRequest p).lineColor l j =
      s.palEntry ((s.setPixel p).pixel (linePoint s.cfg l j).1 (linePoint s.cfg l j).2).toNat := rfl
  rw [hcolor, hpoint, hpixel]

/-- The line of the pixel, with its two bytes. -/
theorem frameLine_drawAndRequest {l j : Nat} (hx : p.x < s.cfg.fbW) (hpoint : linePoint s.cfg l j = (p.x, p.y))
    (hl : l < s.cfg.lineCount) (hj : j < s.cfg.lineLen) :
    ∃ bytes, ((List.range s.cfg.lineCount).map (s.drawAndRequest p).frameLine)[l]? = some bytes ∧
      bytes[2 * j]? = some ((s.palEntry p.c.toNat).extractLsb' 8 8) ∧
      bytes[2 * j + 1]? = some ((s.palEntry p.c.toNat).extractLsb' 0 8) := by
  have hlen : (s.drawAndRequest p).cfg.lineLen = s.cfg.lineLen := rfl
  refine ⟨_, by rw [List.getElem?_map, List.getElem?_range hl, Option.map_some], ?_, ?_⟩
  · rw [State.getElem?_frameLine _ _ (by omega), State.frameByte_high, lineColor_drawAndRequest hx hpoint]
  · rw [State.getElem?_frameLine _ _ (by omega), State.frameByte_low, lineColor_drawAndRequest hx hpoint]

end

/-- Settles O56: PIXEL writes the framebuffer, UPDATE requests a frame, and the frame is read from what PIXEL left. -/
theorem updateCarriesThePixel : Obligations.UpdateCarriesThePixel := by
  intro x y c s t u hb hf hidle hx hy ht hu
  obtain rfl := eq_drawAndRequest hb.cfg_valid hf hidle hx hy ht hu
  have hb' : BlockInv (s.drawAndRequest ⟨x.toNat, y.toNat, c⟩) := hb.drawAndRequest hidle ⟨hx, hy⟩
  obtain ⟨henv, -⟩ := frameTakesItsStepsAndSendsItsLines _ hb' hf rfl
  refine ⟨_, congrArg Env.sent henv, (List.length_map _).trans List.length_range, fun l hl => ?_, fun hscan => ?_,
    fun hscan => ?_⟩
  · obtain ⟨n, -, rfl⟩ := List.mem_map.1 hl
    exact State.length_frameLine _ n
  · exact frameLine_drawAndRequest hx (by simp [linePoint, hscan]) (by simpa [Config.lineCount, hscan] using hy)
      (by simpa [Config.lineLen, hscan] using hx)
  · exact frameLine_drawAndRequest hx (by simp [linePoint, hscan]) (by simpa [Config.lineCount, hscan] using hx)
      (by simpa [Config.lineLen, hscan] using hy)

end Sys2Proof.Machine

namespace Sys2Proof.Machine

/-! ### A faulted block (R345, R347, R349)

Command entry answers `ERR` before it looks at the command, and every internal step asks first whether the block is
faulted. -/

section
variable {s t : State}

theorem issue_of_faulted (h : s.blk.faulted = true) (p : Packet) : issue p s = .next s.respondErr := by
  simp [issue, h]

theorem beat_of_faulted (h : s.blk.faulted = true) (r : Nat) : s.beat r = s := by
  simp [State.beat, State.beatEnabled, h]

theorem pixelStep_of_faulted (h : s.blk.faulted = true) (t pick : Nat) : s.pixelStep t pick = s := by
  simp [State.pixelStep, h]

theorem sched_of_faulted (h : s.blk.faulted = true) : s.sched = s := by
  simp [State.sched, State.schedEnabled, h]

theorem complete_of_faulted (h : s.blk.faulted = true) (ok : Bool) : s.complete ok = s := by
  simp [State.complete, State.panelEnabled, h]

theorem sameBlock_refl (s : State) : SameBlock s s := ⟨rfl, rfl, rfl, rfl, rfl, rfl⟩

theorem sameBlock_respond (s : State) (x : Response) : SameBlock s (s.respond x) := ⟨rfl, rfl, rfl, rfl, rfl, rfl⟩

theorem sameBlock_jump (s : State) (t pos : Nat) : SameBlock s (s.jump t pos) := by
  unfold State.jump
  split
  · exact sameBlock_refl s
  · split <;> exact ⟨rfl, rfl, rfl, rfl, rfl, rfl⟩

/-- Which move is chosen is no part of the block. -/
theorem sameBlock_of_afterChoice (h : SameBlock s.afterChoice t) : SameBlock s t := by
  simpa [SameBlock] using h

/-- Reset is the one move that changes a faulted block (R347, R348). -/
theorem runMove_sameBlock_of_faulted {m : Move} (hf : s.blk.faulted = true) (hm : m ≠ .reset)
    (h : runMove m s = .next t) : SameBlock s t := by
  cases m with
  | issue j pick =>
    unfold runMove at h
    dsimp only at h
    split at h
    · cases h; exact sameBlock_refl s
    · rw [issue_of_faulted (s := s.select j pick) hf] at h
      cases h; exact sameBlock_respond (s.select j pick) _
  | beat r => cases h; rw [beat_of_faulted hf]; exact sameBlock_refl s
  | pixel j pick => cases h; rw [pixelStep_of_faulted hf]; exact sameBlock_refl s
  | sched => cases h; rw [sched_of_faulted hf]; exact sameBlock_refl s
  | panel ok => cases h; rw [complete_of_faulted hf]; exact sameBlock_refl s
  | jump j pos => cases h; exact sameBlock_jump s j pos
  | reset => exact absurd rfl hm

end

/-- Settles O12: in a faulted block every move but reset is answered `ERR` or is not enabled. -/
theorem faultRecordIsNeverOverwritten : Obligations.FaultRecordIsNeverOverwritten := by
  intro s t hf h
  obtain ⟨-, -, hmove⟩ := step_cases h
  refine ⟨fun hm => sameBlock_of_afterChoice (runMove_sameBlock_of_faulted (by simpa using hf) hm hmove), fun hm => ?_⟩
  rw [hm] at hmove
  cases hmove
  rfl

/-! ### Fault entry, agent by agent (R344, R346) -/

section
variable {s : State} (w : CmdWord) (code : FaultCode)

theorem sameButFault_raiseFault (s : State) : SameButFault s (s.raiseFault w code) := ⟨rfl, rfl, rfl, rfl, rfl⟩

/-- The agent whose command faults is answered, and nothing of it is left to close. -/
theorem issuer_raiseFault {a : Agent} (ha : s.env.agents[s.env.issuer]? = some a) (hidle : a.work = .idle) :
    (s.raiseFault w code).env.agents[s.env.issuer]? = some (a.answer (.err (errWord w code.bits))) := by
  rw [State.agents_raiseFault, if_pos rfl, ha, Option.map_some, Option.map_some,
    Agent.closeWork_of_idle (a.answer _) _ hidle, Agent.closeHeld_of_not_held _ _ rfl]

/-- What an agent is sent for the command that a fault cuts short (R346 (a), (b)). -/
def Work.cutShort (e : BitVec 24) : Work → List Response
  | .idle => []
  | .burst _ k vs => [.burstErr k vs e]
  | .draw _ => [.err e]

theorem Agent.closeWork_eq (a : Agent) (e : BitVec 24) :
    a.closeWork e = { a with work := .idle, inbox := a.inbox ++ a.work.cutShort e } := by
  obtain ⟨script, pos, work, held, inbox⟩ := a
  cases work with
  | idle => simp [Agent.closeWork, Work.cutShort]
  | burst r k vs => rfl
  | draw todo => rfl

theorem Agent.closeHeld_eq (a : Agent) (e : BitVec 24) :
    a.closeHeld e =
      { a with
        pos := if a.held then a.pos + 1 else a.pos
        held := false
        inbox := a.inbox ++ if a.held then [.err e] else [] } := by
  obtain ⟨script, pos, work, held, inbox⟩ := a
  cases held with
  | false => simp [Agent.closeHeld]
  | true => rfl

/-- Any other agent has its command in progress closed, then its held one. -/
theorem other_raiseFault {j : Nat} {a : Agent} (hj : j ≠ s.env.issuer) (ha : s.env.agents[j]? = some a) :
    (s.raiseFault w code).env.agents[j]? =
      some ((a.closeWork (errWord w code.bits)).closeHeld (errWord w code.bits)) := by
  rw [State.agents_raiseFault, if_neg hj.symm, ha, Option.map_some]

end

/-- Settles O11: by command entry's first check, and by the issuer's answer at fault entry. -/
theorem faultedBlockAnswersErr : Obligations.FaultedBlockAnswersErr :=
  ⟨fun p s hf => ⟨_, issue_of_faulted hf p, sameBlock_respond s _, rfl⟩,
    fun _ s hf => ⟨_, exec_of_faulted hf, sameBlock_respond s _, rfl⟩,
    fun w code _ _ ha hidle => ⟨_, issuer_raiseFault w code ha hidle, rfl⟩⟩

/-- Settles O13: fault entry closes what each agent has unfinished, and a faulted block enables no internal step. -/
theorem faultStopsEveryActivity : Obligations.FaultStopsEveryActivity := by
  refine ⟨fun w code s j a hj ha => ?_, sameButFault_raiseFault, fun s hf =>
    ⟨beat_of_faulted hf, pixelStep_of_faulted hf, sched_of_faulted hf, complete_of_faulted hf⟩⟩
  rw [other_raiseFault w code hj ha, Agent.closeHeld_eq, Agent.closeWork_eq]
  cases a.work <;> rfl

/-! ### Command entry in its order (R344) -/

/-- A held agent presents the same packet again (R112). -/
theorem fetch_hold (s : State) (t : Nat) : s.hold.fetch t = s.fetch t := by
  have hheld (w : CmdWord) : s.hold.wordHeld w = s.wordHeld w := rfl
  unfold State.fetch
  simp only [State.agents_hold, hheld]
  split_ifs with ht
  · cases s.env.agents[t]? <;> rfl
  · rfl

theorem heldIn_of_free {i : Instr} {s : State}
    (h : ∀ r, i.reader? = some r → r < s.cfg.rbR → (s.rb.reader r).br = 0) : heldIn i s = false := by
  rw [← Bool.not_eq_true, heldIn_iff]
  rintro ⟨r, hi, hr, hbr⟩
  exact hbr.ne' (h r hi hr)

/-- Settles O7: the faulted check, the decoder, the hold and the command, each past the one before it. -/
theorem commandEntryInOrder : Obligations.CommandEntryInOrder := by
  refine ⟨fun p s => ⟨fun hf => issue_of_faulted hf p, fun hf => ⟨fun why hp => issue_of_illegal hf hp, ?_, ?_⟩⟩,
    fun w code s => ⟨rfl, sameButFault_raiseFault w code s, fun a ha hidle => issuer_raiseFault w code ha hidle⟩⟩
  · intro i r hp hi hr hbr
    obtain ⟨-, hpresent⟩ := decode_instr hp
    exact ⟨(issue_of_decode hf hp).trans (exec_of_busy hf hpresent hi hr hbr), ⟨rfl, rfl, rfl, rfl, rfl, rfl⟩,
      fetch_hold s⟩
  · intro i hp hfree
    obtain ⟨-, hpresent⟩ := decode_instr hp
    exact ⟨issue_of_decode hf hp, fun rule => accept_of_accepted ⟨hf, hpresent, heldIn_of_free hfree⟩⟩

/-! ### What leaves the parameters and the fault record alone (R10, R342) -/

/-- The parameters and the fault record are the same. -/
structure RecordKept (s t : State) : Prop where
  cfg : t.cfg = s.cfg
  blk : t.blk = s.blk

namespace RecordKept

theorem refl (s : State) : RecordKept s s := ⟨rfl, rfl⟩

theorem onlySpectral {s t : State} (h : OnlySpectral s t) : RecordKept s t := ⟨h.cfg, h.blk⟩

theorem perform (s : State) (plots : List Plot) : RecordKept s (s.perform plots) := by
  obtain ⟨-, heq⟩ | ⟨p, -, rest, -, -, ⟨-, heq⟩ | ⟨-, heq⟩⟩ := s.perform_cases plots <;> rw [heq] <;> exact ⟨rfl, rfl⟩

theorem beat (s : State) (r : Nat) : RecordKept s (s.beat r) := by
  unfold State.beat
  split_ifs <;> exact ⟨rfl, rfl⟩

theorem pixelStep (s : State) (t pick : Nat) : RecordKept s (s.pixelStep t pick) := by
  obtain ⟨-, heq⟩ | ⟨a, todo, -, -, -, hdone⟩ := s.pixelStep_cases t pick
  · rw [heq]
    exact refl s
  · have htake : RecordKept s (takePixel pick todo s).1 := by
      obtain heq | ⟨p, -, heq⟩ := takePixel_state pick todo s <;> rw [heq] <;> exact ⟨rfl, rfl⟩
    obtain ⟨-, heq⟩ | ⟨-, heq⟩ := hdone <;> rw [heq] <;> exact ⟨htake.cfg, htake.blk⟩

theorem sched (s : State) : RecordKept s s.sched := by
  obtain ⟨-, heq⟩ | ⟨-, -, heq⟩ | ⟨-, -, -, heq⟩ | ⟨-, -, -, -, heq⟩ | ⟨-, -, -, -, heq⟩ := s.sched_cases <;>
    rw [heq] <;> exact ⟨rfl, rfl⟩

theorem complete (s : State) (ok : Bool) : RecordKept s (s.complete ok) := by
  obtain ⟨-, heq⟩ | ⟨-, -, -, heq⟩ := s.complete_cases ok <;> rw [heq] <;> exact ⟨rfl, rfl⟩

theorem setPixel (s : State) (p : PixelWrite) : RecordKept s (s.setPixel p) := ⟨rfl, rfl⟩

theorem setPal (s : State) (i : Nat) (col : Color) : RecordKept s (s.setPal i col) := ⟨by simp, by simp⟩

theorem jump (s : State) (t pos : Nat) : RecordKept s (s.jump t pos) := by
  obtain ⟨hcfg, -, -, -, -, hblk⟩ := sameBlock_jump s t pos
  exact ⟨hcfg, hblk⟩

section
variable {s t : State}

theorem respond (h : RecordKept s t) (x : Response) : RecordKept s (t.respond x) := ⟨h.cfg, h.blk⟩

theorem ite {p : Prop} [Decidable p] {u : State} (ht : RecordKept s t) (hu : RecordKept s u) :
    RecordKept s (if p then t else u) := by
  split_ifs
  · exact ht
  · exact hu

end

end RecordKept

/-! ### The table of fault conditions (R352) -/

section
variable {i : Instr} {s t : State} {rule : Result} {l : List (Bool × FaultCode)}

/-- The conditions of a table asked in their order: the first that holds raises its fault, and where none holds the rule
is performed. -/
def raiseFirst (i : Instr) (s : State) (l : List (Bool × FaultCode)) (rule : Result) : Result :=
  l.foldr (fun e rest => if e.1 then raise i e.2 s else rest) rule

theorem raiseFirst_of_find_some {e : Bool × FaultCode} (h : (l.find? fun e => e.1) = some e) :
    raiseFirst i s l rule = .next (s.raiseFault i.word e.2) := by
  induction l with
  | nil => cases h
  | cons d rest ih =>
    obtain ⟨b, code⟩ := d
    cases b with
    | false => exact ih h
    | true => cases h; rfl

theorem raiseFirst_of_find_none (h : (l.find? fun e => e.1) = none) : raiseFirst i s l rule = rule := by
  induction l with
  | nil => rfl
  | cons d rest ih =>
    obtain ⟨b, code⟩ := d
    cases b with
    | false => exact ih h
    | true => cases h

/-- One more condition at the head of a table. -/
theorem ite_raise {p : Prop} [Decidable p] {code : FaultCode} {x : Result} (h : x = raiseFirst i s l rule) :
    (if p then raise i code s else x) = raiseFirst i s ((decide p, code) :: l) rule := by
  simp [raiseFirst, h]

theorem ite_not_raise {b : Bool} {code : FaultCode} {x : Result} (h : x = raiseFirst i s l rule) :
    (if !b then raise i code s else x) = raiseFirst i s ((!b, code) :: l) rule :=
  congrArg (if !b then raise i code s else ·) h

/-- `check_reader` is the first two rows of a reader command's table (R181). -/
theorem checkReader_eq_raiseFirst {r : Nat} {x : Result} (h : x = raiseFirst i s l rule) :
    checkReader i r s x = raiseFirst i s
      ((decide (s.cfg.rbR ≤ r), .badReader) :: (!(s.rb.reader r).att, .notAttached) :: l) rule :=
  ite_raise (ite_not_raise h)

end

/-- Every command is command entry, then its conditions of R352 in their order, then a rule that raises no fault. -/
theorem exec_eq_raiseFirst (i : Instr) (s : State) :
    ∃ u, exec i s = accept i s (raiseFirst i s (faultConditions i s) (.next u)) ∧ RecordKept s u := by
  cases i with
  | append v => exact ⟨_, rfl, rfl, rfl⟩
  | attach r => exact ⟨_, congrArg (accept _ s) (ite_raise rfl), rfl, rfl⟩
  | count r => exact ⟨_, congrArg (accept _ s) (checkReader_eq_raiseFirst rfl), rfl, rfl⟩
  | read r => exact ⟨_, congrArg (accept _ s) (checkReader_eq_raiseFirst (ite_raise rfl)), rfl, rfl⟩
  | consume r =>
    refine ⟨_, congrArg (accept _ s) (checkReader_eq_raiseFirst (apply_ite Host.Outcome.next _ _ _).symm), ?_⟩
    exact .ite ⟨rfl, rfl⟩ ⟨rfl, rfl⟩
  | drops r => exact ⟨_, congrArg (accept _ s) (checkReader_eq_raiseFirst rfl), rfl, rfl⟩
  | feed re im => exact ⟨_, rfl, rfl, rfl⟩
  | compute =>
    exact ⟨_, congrArg (accept _ s) (ite_not_raise (ite_raise rfl)), (RecordKept.onlySpectral (.compute s)).respond _⟩
  | postprocess => exact ⟨_, rfl, (RecordKept.onlySpectral (.postprocess s)).respond _⟩
  | copyfft l => exact ⟨_, congrArg (accept _ s) (ite_raise rfl), rfl, rfl⟩
  | clear => exact ⟨_, rfl, .perform s _⟩
  | pixel x y c => exact ⟨_, rfl, (RecordKept.ite (.setPixel s _) (.refl s)).respond _⟩
  | hline x y len c => exact ⟨_, rfl, .perform s _⟩
  | vline x y len c => exact ⟨_, rfl, .perform s _⟩
  | circle xc yc rad c => exact ⟨_, rfl, .perform s _⟩
  | blit x y bw bh data => exact ⟨_, rfl, .perform s _⟩
  | vscroll => exact ⟨_, rfl, .perform s _⟩
  | setpal k col =>
    have hpinned : k.toNat < 2 ↔ k.toNat = 0 ∨ k.toNat = 1 := by omega
    exact ⟨_, congrArg (accept _ s) ((if_congr hpinned rfl rfl).trans (ite_raise rfl)),
      (RecordKept.setPal s _ col).respond _⟩
  | update => exact ⟨_, rfl, rfl, rfl⟩
  | ready => exact ⟨_, rfl, rfl, rfl⟩

section
variable {i : Instr} {s t : State}

/-- What a command that the configuration has can do to the parameters and the record: it is held, or raises the first
condition of its table that holds, or leaves both alone. -/
theorem exec_record_cases (hf : s.blk.faulted = false) (hp : i.present s.cfg = true) (h : exec i s = .next t) :
    (heldIn i s = true ∧ t = s.hold) ∨
    (heldIn i s = false ∧ ∃ e, (faultConditions i s).find? (fun e => e.1) = some e ∧ t = s.raiseFault i.word e.2) ∨
    (heldIn i s = false ∧ (faultConditions i s).find? (fun e => e.1) = none ∧ RecordKept s t) := by
  obtain ⟨u, hexec, hu⟩ := exec_eq_raiseFirst i s
  cases hheld : heldIn i s with
  | true => exact .inl ⟨rfl, Host.Outcome.next.inj (h.symm.trans (exec_of_held hf hp hheld))⟩
  | false =>
    rw [hexec, accept_of_accepted ⟨hf, hp, hheld⟩] at h
    cases hfind : (faultConditions i s).find? fun e => e.1 with
    | some e =>
      rw [raiseFirst_of_find_some hfind] at h
      exact .inr (.inl ⟨rfl, e, rfl, (Host.Outcome.next.inj h).symm⟩)
    | none =>
      rw [raiseFirst_of_find_none hfind] at h
      cases h
      exact .inr (.inr ⟨rfl, rfl, hu⟩)

/-- R342: these commands have no row in the table of R352. -/
theorem faultConditions_of_neverFaults (h : neverFaults i = true) (s : State) : faultConditions i s = [] := by
  cases i with
  | attach r | count r | read r | consume r | drops r | compute | copyfft l | setpal k col => cases h
  | _ => rfl

theorem blk_of_neverFaults (hi : neverFaults i = true) (hp : i.present s.cfg = true) (h : exec i s = .next t) :
    t.blk = s.blk := by
  cases hf : s.blk.faulted with
  | true =>
    rw [exec_of_faulted hf] at h
    cases h
    rfl
  | false =>
    obtain ⟨-, rfl⟩ | ⟨-, e, hfind, -⟩ | ⟨-, -, hkept⟩ := exec_record_cases hf hp h
    · rfl
    · rw [faultConditions_of_neverFaults hi] at hfind
      cases hfind
    · exact hkept.blk

end

/-- Settles O14: the commands of R342 have no fault condition, and no internal step writes the record. -/
theorem noFaultOfTheirOwn : Obligations.NoFaultOfTheirOwn :=
  ⟨fun _ _ _ hi hp h => blk_of_neverFaults hi hp h, fun s =>
    ⟨fun r => (RecordKept.beat s r).blk, fun t pick => (RecordKept.pixelStep s t pick).blk, (RecordKept.sched s).blk,
      fun ok => (RecordKept.complete s ok).blk⟩⟩

section
variable {p : Packet} {i : Instr} {s : State}

theorem firstFault_of_illegal {why : IllegalWord} (hp : decode s.cfg p = .illegal why) :
    firstFault p s = some .illegalCommand := by
  simp [firstFault, hp]

theorem firstFault_of_held (hp : decode s.cfg p = .instr i) (hheld : heldIn i s = true) : firstFault p s = none := by
  simp [firstFault, hp, hheld]

theorem firstFault_of_free (hp : decode s.cfg p = .instr i) (hheld : heldIn i s = false) :
    firstFault p s = ((faultConditions i s).find? fun e => e.1).map fun e => e.2 := by
  simp [firstFault, hp, hheld]

end

/-- A packet issued to a block that is not faulted raises its first fault, or leaves the parameters and the record
alone. -/
theorem issue_record_cases {p : Packet} {s t : State} (hf : s.blk.faulted = false) (h : issue p s = .next t) :
    (∃ code, firstFault p s = some code ∧ t = s.raiseFault p.word code) ∨ (firstFault p s = none ∧ RecordKept s t) := by
  cases hp : decode s.cfg p with
  | illegal why =>
    rw [issue_of_illegal hf hp] at h
    cases h
    exact .inl ⟨_, firstFault_of_illegal hp, rfl⟩
  | instr i =>
    rw [issue_of_decode hf hp] at h
    obtain ⟨hword, hpresent⟩ := decode_instr hp
    obtain ⟨hheld, rfl⟩ | ⟨hheld, e, hfind, rfl⟩ | ⟨hheld, hfind, hkept⟩ := exec_record_cases hf hpresent h
    · exact .inr ⟨firstFault_of_held hp hheld, rfl, rfl⟩
    · exact .inl ⟨e.2, by rw [firstFault_of_free hp hheld, hfind, Option.map_some], by rw [hword]⟩
    · exact .inr ⟨by rw [firstFault_of_free hp hheld, hfind, Option.map_none], hkept⟩

/-- A packet issued to a faulted block leaves both alone too (R345). -/
theorem recordKept_of_issue_faulted {p : Packet} {s t : State} (hf : s.blk.faulted = true) (h : issue p s = .next t) :
    RecordKept s t := by
  rw [issue_of_faulted hf] at h
  cases h
  exact ⟨rfl, rfl⟩

/-- Settles O10: a packet's outcome is either the fault of the first condition that holds or keeps the record. -/
theorem firstConditionInTheTableFaults : Obligations.FirstConditionInTheTableFaults := by
  refine ⟨⟨rfl, rfl, rfl, rfl, rfl, rfl, rfl, rfl⟩, fun p s t h =>
    ⟨fun hf => (recordKept_of_issue_faulted hf h).blk, fun hf code hcode => ?_, fun hf hnone => ?_⟩⟩
  · obtain ⟨code', hcode', rfl⟩ | ⟨hnone, -⟩ := issue_record_cases hf h
    · obtain rfl := Option.some.inj (hcode.symm.trans hcode')
      exact ⟨rfl, sameButFault_raiseFault p.word code s⟩
    · exact nomatch hcode.symm.trans hnone
  · obtain ⟨code, hcode, -⟩ | ⟨-, hkept⟩ := issue_record_cases hf h
    · exact nomatch hcode.symm.trans hnone
    · exact hkept.blk

/-! ### No move changes a parameter (R10, R70) -/

theorem issue_cfg {p : Packet} {s t : State} (h : issue p s = .next t) : t.cfg = s.cfg := by
  cases hf : s.blk.faulted with
  | true => exact (recordKept_of_issue_faulted hf h).cfg
  | false =>
    obtain ⟨code, -, rfl⟩ | ⟨-, hkept⟩ := issue_record_cases hf h
    · rfl
    · exact hkept.cfg

theorem runMove_cfg {m : Move} {s t : State} (h : runMove m s = .next t) : t.cfg = s.cfg := by
  cases m with
  | issue j pick =>
    unfold runMove at h
    dsimp only at h
    split at h
    · cases h; rfl
    · exact issue_cfg (s := s.select j pick) h
  | beat r => cases h; exact (RecordKept.beat s r).cfg
  | pixel j pick => cases h; exact (RecordKept.pixelStep s j pick).cfg
  | sched => cases h; exact (RecordKept.sched s).cfg
  | panel ok => cases h; exact (RecordKept.complete s ok).cfg
  | jump j pos => cases h; exact (RecordKept.jump s j pos).cfg
  | reset => cases h; rfl

/-- Settles O8: past the two checks every move gives a next state, of the same parameters. -/
theorem onlyTheTwoRefusals : Obligations.OnlyTheTwoRefusals := by
  refine fun s => ⟨fun hvalid => by simp [step, hvalid], fun hvalid => (step_refused_iff hvalid).2,
    fun hvalid howned => ?_⟩
  obtain ⟨t, ht⟩ := runMove_next s.nextMove s.afterChoice
  exact ⟨t, (step_of_valid hvalid howned).trans ht, (runMove_cfg ht).trans s.afterChoice_cfg⟩

end Sys2Proof.Machine

namespace Sys2Proof.Machine

/-! ### The quiescent state (R399)

No agent has a command to issue or in progress, and no internal step is enabled. -/

section
variable {s : State}

/-- A finished script has no packet at its place (R41). -/
theorem fetch_of_finished (h : ∀ a ∈ s.env.agents, a.script.length ≤ a.pos) (t : Nat) : s.fetch t = none := by
  refine Option.eq_none_iff_forall_ne_some.2 fun p hp => ?_
  obtain ⟨a, ha, hpos, -⟩ := fetch_some hp
  exact absurd (List.getElem?_eq_some_iff.1 hpos).1 (h a (List.mem_of_getElem? ha)).not_gt

theorem pixelStep_of_idle (h : ∀ a ∈ s.env.agents, a.work = .idle) (t pick : Nat) : s.pixelStep t pick = s := by
  obtain ⟨-, hsame⟩ | ⟨a, todo, -, ha, hdraw, -⟩ := s.pixelStep_cases t pick
  · exact hsame
  · exact nomatch (h a (List.mem_of_getElem? ha)).symm.trans hdraw

theorem sched_of_idle (h : s.fb.st = .idle) : s.sched = s := by
  simp [State.sched, State.schedEnabled, h]

theorem complete_of_idle (h : s.fb.st = .idle) (ok : Bool) : s.complete ok = s :=
  if_neg fun hen => nomatch h.symm.trans (panelEnabled_iff.1 hen).2.1

theorem beat_of_free {r : Nat} (h : (s.rb.reader r).br = 0) : s.beat r = s :=
  beat_of_disabled fun hen => (beatEnabled_iff.1 hen).2.ne' h

end

namespace State.quiescent

variable {s t : State} {m : Move}

/-- Which move is chosen has no part in quiescence. -/
theorem afterChoice (h : s.quiescent) : s.afterChoice.quiescent := by
  simpa [State.quiescent] using h

theorem beat (h : s.quiescent) (r : Nat) : s.beat r = s := by
  obtain ⟨-, hf | ⟨hbr, -⟩⟩ := h
  · exact beat_of_faulted hf r
  · exact beat_of_free (hbr r)

theorem sched (h : s.quiescent) : s.sched = s := by
  obtain ⟨-, hf | ⟨-, hst⟩⟩ := h
  · exact sched_of_faulted hf
  · exact sched_of_idle hst

theorem complete (h : s.quiescent) (ok : Bool) : s.complete ok = s := by
  obtain ⟨-, hf | ⟨-, hst⟩⟩ := h
  · exact complete_of_faulted hf ok
  · exact complete_of_idle hst ok

/-- A command would come from a script that is not finished; no other move but reset and an agent's choice of its place
is enabled. -/
theorem runMove_eq (h : s.quiescent) (hreset : m ≠ .reset) (hjump : ∀ j pos, m ≠ .jump j pos) :
    runMove m s = .next s := by
  cases m with
  | issue j pick => simp [runMove, fetch_of_finished fun a ha => (h.1 a ha).1]
  | beat r => exact congrArg _ (h.beat r)
  | pixel j pick => exact congrArg _ (pixelStep_of_idle (fun a ha => (h.1 a ha).2.1) j pick)
  | sched => exact congrArg _ h.sched
  | panel ok => exact congrArg _ (h.complete ok)
  | jump j pos => exact absurd rfl (hjump j pos)
  | reset => exact absurd rfl hreset

/-- An agent's choice of its place is no part of the block. -/
theorem runMove_sameBlock (h : s.quiescent) (hreset : m ≠ .reset) (hmove : runMove m s = .next t) :
    SameBlock s t := by
  by_cases hjump : ∃ j pos, m = .jump j pos
  · obtain ⟨j, pos, rfl⟩ := hjump
    cases hmove
    exact sameBlock_jump s j pos
  · rw [h.runMove_eq hreset fun j pos hm => hjump ⟨j, pos, hm⟩] at hmove
    cases hmove
    exact sameBlock_refl s

end State.quiescent

/-- Settles O59: a quiescent state enables no move but reset and an agent's choice of its place. -/
theorem quiescentStateStays : Obligations.QuiescentStateStays := by
  intro s t hq h
  obtain ⟨-, -, hmove⟩ := step_cases h
  refine ⟨fun hreset => sameBlock_of_afterChoice (hq.afterChoice.runMove_sameBlock hreset hmove),
    fun ⟨hreset, hjump⟩ => ?_⟩
  rw [hq.afterChoice.runMove_eq hreset hjump] at hmove
  cases hmove
  exact hq.afterChoice

/-! ### What reset makes of the block and of its environment (R381, R383) -/

theorem Ring.reader_reset (n r : Nat) : (Ring.reset n).reader r = Reader.reset := by
  simp [Ring.reset, Ring.reader]

theorem sameBlock_hardReset (s : State) : SameBlock (State.resetWith s.cfg) s.hardReset :=
  ⟨rfl, rfl, rfl, rfl, rfl, rfl⟩

section
variable {s : State} (h : s.mem = Memory.reset)
include h

theorem xElem_of_reset (i : Nat) : s.xElem i = 0#32 := by
  simp [State.xElem, h, Memory.reset, zeroFill]

theorem workElem_of_reset (i : Nat) : s.workElem i = 0#32 := by
  simp [State.workElem, h, Memory.reset, zeroFill]

theorem pixel_of_reset (x y : Nat) : s.pixel x y = 0#8 := by
  simp [State.pixel, readPix, h, Memory.reset, zeroFill]

theorem palEntry_of_reset {i : Nat} (hi : 2 ≤ i) : s.palEntry i = 0#16 := by
  have h0 : i ≠ 0 := by omega
  have h1 : i ≠ 1 := by omega
  simp [State.palEntry, h0, h1, h, Memory.reset, zeroFill]

end

/-- Settles O15: power-on and reset leave the same block, in which every array lists nothing. -/
theorem resetValues : Obligations.ResetValues := by
  intro c s hs
  have hblock : SameBlock (State.resetWith c) s := by
    obtain rfl | ⟨u, rfl, rfl⟩ := hs
    · exact sameBlock_refl _
    · exact sameBlock_hardReset u
  obtain ⟨hcfg, hmem, hrb, hse, hfb, hblk⟩ := hblock
  refine ⟨hcfg, ?wr, ?ports, fun r => ?port, fun n => ?win, xElem_of_reset hmem, workElem_of_reset hmem, ?stgWr,
    ?stgPort, ?phase, ?armed, pixel_of_reset hmem, rfl, rfl, fun _ hi => palEntry_of_reset hmem hi, ?display⟩
  case wr | ports => rw [hrb]; simp [State.resetWith, Ring.reset]
  case port => rw [hrb]; exact Ring.reader_reset c.rbR r
  case win => unfold State.winElem; rw [hcfg]; rfl
  case stgWr | stgPort | phase | armed => rw [hse]; rfl
  case display => rw [hfb, hblk]; exact ⟨rfl, rfl, rfl, rfl, rfl, rfl, rfl, rfl⟩

theorem resetFrom_hardReset (s : State) : ResetFrom s s.hardReset where
  block := sameBlock_hardReset s
  agents := List.length_map _
  restarted := fun j a b ha hb => by
    rw [State.agents_hardReset, ha] at hb
    cases hb
    exact ⟨rfl, rfl, rfl, rfl, List.nil_prefix⟩
  unsent := rfl
  panel := rfl

/-- Which move is chosen has no part in what a reset leaves. -/
theorem ResetFrom.of_afterChoice {s t : State} (h : ResetFrom s.afterChoice t) : ResetFrom s t where
  block := by simpa using h.block
  agents := by simpa using h.agents
  restarted := by simpa using h.restarted
  unsent := h.unsent
  panel := h.panel

/-- Settles O16: every agent is restarted, and the step whose move is reset runs `State.hardReset`. -/
theorem resetAbandonsEverything : Obligations.ResetAbandonsEverything := by
  refine fun s => ⟨resetFrom_hardReset s, fun hvalid howned hmove => ⟨?_, (resetFrom_hardReset _).of_afterChoice⟩⟩
  calc step s = runMove .reset s.afterChoice := by rw [step_of_valid hvalid howned, hmove]
    _ = .next s.afterChoice.hardReset := rfl

end Sys2Proof.Machine
